-- ==== Sys2Proof/Word.lean ====
section
/-! DEFINITION. The word types of OQX: 32-bit register words, bytes, and complex samples as two binary32 words
(00_scope.md R9, R12). -/

namespace Sys2Proof

/-- A register word or a bus word (R9: "All register words are 32 bits"). -/
abbrev Word := BitVec 32

/-- A byte of a buffer space. -/
abbrev Byte := BitVec 8

/-- A complex sample or constellation point: two binary32 bit patterns (R12). -/
structure Sample where
  /-- real part -/
  re : Word
  /-- imaginary part -/
  im : Word
  deriving DecidableEq, Repr

end Sys2Proof
end

