-- ==== Sys2Proof/Config.lean ====
section
/-! DEFINITION. What an OQX implementation fixes (00_scope.md R8, R13) and the free values of the model. Every
constant here is opaque and has no body, so a claim holds for every implementation the spec admits. The defaults the
spec states for some of them stand in Sys2Proof/Machine/Parameters.lean. -/

namespace Sys2Proof

/-- The eight buffer address spaces (10_state.md R41, 20_memory.md R60). -/
inductive Space where
  | cap | bur | sym | glen | raw | dem | dsc | frm
  deriving DecidableEq, Repr

/-- The nine bus windows (20_memory.md R66): the register window and one per buffer space. -/
inductive Window where
  | registers
  | buffer (sp : Space)
  deriving DecidableEq, Repr

/-- What `GOLD_POLY` stands for (45_gold_descramble.md R181): the stages each register feeds back, and the first
register's initial fill. -/
structure GoldPoly where
  /-- stages of the first register that are xored into its feedback -/
  taps1 : List Nat
  /-- stages of the second register that are xored into its feedback -/
  taps2 : List Nat
  /-- initial content of the first register, stage `i` in bit `i` -/
  fill1 : BitVec 31
  deriving DecidableEq, Repr, Inhabited

namespace Config

/-! ### Capacities (R8, D9; log 8). Each is its least admissible value plus a free amount. -/

/-- `CAP_DEPTH - 1`. -/
opaque capDepthExtra : Fin 4294967295
/-- `BUR_DEPTH - 1`. -/
opaque burDepthExtra : Fin 4294967295
/-- `SYM_DEPTH - 706`. -/
opaque symDepthExtra : Fin 2147482942
/-- `MAX_GROUPS - 1`. -/
opaque maxGroupsExtra : Fin 4294967295

/-- `CAP_DEPTH`, with `1 <= CAP_DEPTH < 2^32` (R8). -/
def capDepth : Nat := capDepthExtra.val + 1
/-- `BUR_DEPTH`, with `1 <= BUR_DEPTH < 2^32` (R8). -/
def burDepth : Nat := burDepthExtra.val + 1
/-- `SYM_DEPTH`, with `706 <= SYM_DEPTH < 2^31` (R8). -/
def symDepth : Nat := symDepthExtra.val + 706
/-- `MAX_GROUPS`, with `1 <= MAX_GROUPS < 2^32` (R8). -/
def maxGroups : Nat := maxGroupsExtra.val + 1

/-- The base addresses an implementation asks for (R8, R66); used only where they are admissible (log 9). -/
opaque requestedBase : Window → Nat

/-! ### The three numerics functions (R13, D10; log 14), by their parts. What R8 puts inside them is an argument. -/

/-- `BD_WINDOW[0..63]`, the analysis window: real numbers (R8). -/
opaque bdWindow : Fin 64 → ℝ
/-- `CFO_BW_EXPECTED`, the expected occupied bandwidth, Hz (R8). -/
opaque cfoBwExpected : ℝ
/-- `CFO_BW_TOL`, its tolerance, Hz (R8). -/
opaque cfoBwTol : ℝ

/-- Whether `NUM.bd_mask` under a window marks time step `t` of the samples (40_burst_detect.md R111). -/
opaque stepMarked : (window : Fin 64 → ℝ) → List Sample → Nat → Bool
/-- Whether an offset can be computed at all (41_cfo_estimate.md R131). -/
opaque cfoComputable : List Sample → Word → Bool
/-- The best-effort offset, binary32 in Hz (R131). -/
opaque cfoBestOffset : List Sample → Word → Word
/-- Whether the measured occupied bandwidth matches the expected one within the tolerance (R131). -/
opaque cfoBandwidthOk : (expected tolerance : ℝ) → List Sample → Word → Bool
/-- The demodulator of a burst at a sample rate in Hz: `none` is `Fail`, `some groups` is `Ok(groups)`
(42_symbol_extract.md R142). -/
opaque sxDemod : (rate : Nat) → List Sample → Bool → Option (List (List Sample))

/-! ### The decoder's parameters (R8; log 10 to log 13) -/

/-- `QPSK_LUT[h][q]` (43_phase_decode.md R152). -/
opaque qpskLut : BitVec 2 → BitVec 2 → BitVec 2
/-- The `RDM_DUMMY(len, r, c)` an implementation asks for; used only where it is admissible (44_rate_dematch.md R172). -/
opaque requestedDummy : Nat → Nat → Nat → Bool
/-- `GOLD_POLY` (45_gold_descramble.md R181: "A model must keep `GOLD_POLY` replaceable"). -/
opaque goldPoly : GoldPoly
/-- `STRUCT_OK(frame)` (43_phase_decode.md R157). -/
opaque structOk : List Byte → Bool

/-! ### Free values -/

/-- The byte a buffer space holds at a byte offset after the `n`-th reset, while nothing has written it
(10_state.md R49, 93 U1; log 3). -/
opaque resetByte : Nat → Space → Nat → Byte
/-- The word the host reads from anything but `STATUS` while `BUSY = 1` (93 U4; log 4). -/
opaque busyRead : Nat → Word
/-- The word a host read outside all nine windows answers: it "does not reach OQX" (20_memory.md R66; log 6). -/
opaque outsideRead : Nat → Word
/-- How many host actions may come between acceptance and completion of a command word (93 U5; log 2). -/
opaque commandDelay : Nat → Word → Nat

end Config

end Sys2Proof
end

