-- ==== Sys2Proof/Syntax.lean ====
section
/-! DEFINITION. The twelve commands (30_encoding.md R93) and the host actions a program is made of (30_encoding.md
R98, R99; 70_reset_and_hazards.md R263, R264). -/

namespace Sys2Proof

/-- Packet type, the `A` operand of `BDET` (30_encoding.md R92). -/
inductive PacketType where
  | droneid | c2 | beacon | video
  deriving DecidableEq, Repr

/-- A command: one constructor per row of spec/opcode_table.json (R93). -/
inductive Instr where
  /-- `NOP` (47_control.md R210) -/
  | nop
  /-- `CLR` (47_control.md R211) -/
  | clr
  /-- `BDET ptype [, legacy] [, skipbw]` (40_burst_detect.md R110) -/
  | bdet (ptype : PacketType) (legacy : Bool) (skipBw : Bool)
  /-- `CFOE [skipbw]` (41_cfo_estimate.md R130) -/
  | cfoe (skipBw : Bool)
  /-- `SXTR [skipzc]` (42_symbol_extract.md R140) -/
  | sxtr (skipZc : Bool)
  /-- `QMAP h` (43_phase_decode.md R150) -/
  | qmap (h : BitVec 2)
  /-- `RDM` (44_rate_dematch.md R170) -/
  | rdm
  /-- `DSCR` (45_gold_descramble.md R180) -/
  | dscr
  /-- `PACK` (43_phase_decode.md R153) -/
  | pack
  /-- `PDAT h` (43_phase_decode.md R155) -/
  | pdat (h : BitVec 2)
  /-- `PDEC` (43_phase_decode.md R156) -/
  | pdec
  /-- `CRCC` (46_crc_frame.md R190) -/
  | crcc
  deriving DecidableEq, Repr

/-- One host action (70_reset_and_hazards.md R263). -/
inductive HostAction where
  /-- `RegRead(off)` (20_memory.md R61) -/
  | regRead (off : Nat)
  /-- `RegWrite(off, v)` (R61) -/
  | regWrite (off : Nat) (v : Word)
  /-- `BufRead(space, w)` (R62) -/
  | bufRead (sp : Space) (w : Nat)
  /-- `BufWrite(space, w, v)` (R62) -/
  | bufWrite (sp : Space) (w : Nat) (v : Word)
  /-- `MemRead(addr, size)` on the bus (R66); `size` in bytes -/
  | memRead (addr : Nat) (size : Nat)
  /-- `MemWrite(addr, size, v)` on the bus (R66) -/
  | memWrite (addr : Nat) (size : Nat) (v : Word)
  /-- `WAIT`: read `STATUS` until `DONE = 1` and `BUSY = 0` (30_encoding.md R99; log 17) -/
  | wait
  /-- assert reset (R250) -/
  | reset
  deriving DecidableEq, Repr

end Sys2Proof
end

