-- ==== Sys2Proof/WellFormed.lean ====
section
/-! DEFINITION. Which commands and which host actions are part of the interface. A command's operands have exact
types, so every command term is well formed (30_encoding.md R92: "every value 0 to 3 is legal and no out-of-range
hypothesis can be encoded"); a host action is well formed when it is an aligned 32-bit access (20_memory.md R61, R64). -/

namespace Sys2Proof

/-- Every operand value of every command is legal (R92). -/
def Instr.wellFormed : Instr → Bool
  | .nop => true
  | .clr => true
  | .bdet _ _ _ => true
  | .cfoe _ => true
  | .sxtr _ => true
  | .qmap _ => true
  | .rdm => true
  | .dscr => true
  | .pack => true
  | .pdat _ => true
  | .pdec => true
  | .crcc => true

/-- A register offset the primitives of R61 take: a multiple of 4 below `0x100`. -/
def regOffsetOk (off : Nat) : Bool := off % 4 == 0 && decide (off < 256)

/-- A bus access that is part of the interface: four bytes, aligned (R64). -/
def busAccessOk (addr size : Nat) : Bool := size == 4 && addr % 4 == 0

/-- A host action the interface gives a meaning (R61, R64). -/
def HostAction.wellFormed : HostAction → Bool
  | .regRead off => regOffsetOk off
  | .regWrite off _ => regOffsetOk off
  | .bufRead _ _ => true
  | .bufWrite _ _ _ => true
  | .memRead addr size => busAccessOk addr size
  | .memWrite addr size _ => busAccessOk addr size
  | .wait => true
  | .reset => true

end Sys2Proof
end

