-- ==== Sys2Proof/Decode.lean ====
section
/-! DEFINITION. Decoding a command word, total on 32-bit words and rejecting by name (30_encoding.md R90 to R95), and
the encoder (R98: "The word is OP | A << 8 | L << 10 | S << 11 | Z << 12"). -/

namespace Sys2Proof

/-- The fields of a command word (R91). -/
structure CmdFields where
  /-- `OP`, bits 7:0 -/
  op : BitVec 8
  /-- `A`, bits 9:8 -/
  a : BitVec 2
  /-- `L`, bit 10 -/
  l : Bool
  /-- `S`, bit 11 -/
  s : Bool
  /-- `Z`, bit 12 -/
  z : Bool
  /-- bits 31:13, which must be 0 -/
  zero : BitVec 19
  deriving DecidableEq, Repr

/-- Split a command word into its fields (R91). -/
def fieldsOf (w : Word) : CmdFields where
  op := w.extractLsb' 0 8
  a := w.extractLsb' 8 2
  l := w.getLsbD 10
  s := w.getLsbD 11
  z := w.getLsbD 12
  zero := w.extractLsb' 13 19

/-- Put the fields of a command word together (R91). -/
def wordOf (f : CmdFields) : Word :=
  f.zero ++ BitVec.ofBool f.z ++ BitVec.ofBool f.s ++ BitVec.ofBool f.l ++ f.a ++ f.op

/-- Why a word selects no command (R94). The order in which the reasons are tried is the model's (log 23); every one
of them ends in `ILLCMD`. -/
inductive DecodeError where
  /-- bits 31:13 are not zero -/
  | highBits
  /-- no command has this `OP` -/
  | unknownOpcode
  /-- the command does not use a field that is not zero -/
  | unusedField
  deriving DecidableEq, Repr

/-- Packet type from `A` (R92). -/
def packetTypeOf (a : BitVec 2) : PacketType :=
  if a = 0#2 then .droneid else if a = 1#2 then .c2 else if a = 2#2 then .beacon else .video

/-- `A` from a packet type (R92). -/
def packetTypeBits : PacketType → BitVec 2
  | .droneid => 0#2
  | .c2 => 1#2
  | .beacon => 2#2
  | .video => 3#2

/-- The command, if the fields it does not use are zero (R91: "A field a command does not use must be 0"). -/
def ifUnusedZero (unusedZero : Bool) (i : Instr) : Except DecodeError Instr :=
  if unusedZero then .ok i else .error .unusedField

/-- The command a field record selects (R93), bits 31:13 being zero. -/
def decodeFields (f : CmdFields) : Except DecodeError Instr :=
  if f.op = 0x00#8 then ifUnusedZero (f.a == 0#2 && !f.l && !f.s && !f.z) .nop
  else if f.op = 0x01#8 then ifUnusedZero (f.a == 0#2 && !f.l && !f.s && !f.z) .clr
  else if f.op = 0x10#8 then ifUnusedZero (!f.z) (.bdet (packetTypeOf f.a) f.l f.s)
  else if f.op = 0x11#8 then ifUnusedZero (f.a == 0#2 && !f.l && !f.z) (.cfoe f.s)
  else if f.op = 0x20#8 then ifUnusedZero (f.a == 0#2 && !f.l && !f.s) (.sxtr f.z)
  else if f.op = 0x30#8 then ifUnusedZero (!f.l && !f.s && !f.z) (.qmap f.a)
  else if f.op = 0x31#8 then ifUnusedZero (f.a == 0#2 && !f.l && !f.s && !f.z) .rdm
  else if f.op = 0x32#8 then ifUnusedZero (f.a == 0#2 && !f.l && !f.s && !f.z) .dscr
  else if f.op = 0x33#8 then ifUnusedZero (f.a == 0#2 && !f.l && !f.s && !f.z) .pack
  else if f.op = 0x34#8 then ifUnusedZero (!f.l && !f.s && !f.z) (.pdat f.a)
  else if f.op = 0x35#8 then ifUnusedZero (f.a == 0#2 && !f.l && !f.s && !f.z) .pdec
  else if f.op = 0x40#8 then ifUnusedZero (f.a == 0#2 && !f.l && !f.s && !f.z) .crcc
  else .error .unknownOpcode

/-- The command a word selects, or why it selects none (R93, R94). -/
def decode (w : Word) : Except DecodeError Instr :=
  if (fieldsOf w).zero = 0#19 then decodeFields (fieldsOf w) else .error .highBits

/-- The fields of a command's word (R93): its opcode, its operands, and zero elsewhere. -/
def encodeFields : Instr → CmdFields
  | .nop => ⟨0x00#8, 0#2, false, false, false, 0#19⟩
  | .clr => ⟨0x01#8, 0#2, false, false, false, 0#19⟩
  | .bdet ptype legacy skipBw => ⟨0x10#8, packetTypeBits ptype, legacy, skipBw, false, 0#19⟩
  | .cfoe skipBw => ⟨0x11#8, 0#2, false, skipBw, false, 0#19⟩
  | .sxtr skipZc => ⟨0x20#8, 0#2, false, false, skipZc, 0#19⟩
  | .qmap h => ⟨0x30#8, h, false, false, false, 0#19⟩
  | .rdm => ⟨0x31#8, 0#2, false, false, false, 0#19⟩
  | .dscr => ⟨0x32#8, 0#2, false, false, false, 0#19⟩
  | .pack => ⟨0x33#8, 0#2, false, false, false, 0#19⟩
  | .pdat h => ⟨0x34#8, h, false, false, false, 0#19⟩
  | .pdec => ⟨0x35#8, 0#2, false, false, false, 0#19⟩
  | .crcc => ⟨0x40#8, 0#2, false, false, false, 0#19⟩

/-- The word of a command (R98). -/
def encode (i : Instr) : Word := wordOf (encodeFields i)

/-- The instruction the decoder reads from an opcode-table row's bits: one 32-bit word, bit 0 the least significant
(R90); the bits above `nbits` are zero. A row wider than the one command length is none. -/
def decodeTableWord (nbits w : Nat) : Option Instr :=
  if 32 < nbits then none
  else (decode (BitVec.ofNat 32 (w % 2 ^ nbits))).toOption

/-- A row of the opcode map (R93): a word `w` selects the command when `w & mask = match`. -/
structure OpcodeRow where
  /-- mnemonic as the table spells it -/
  mnemonic : String
  /-- the `match` column -/
  pattern : Word
  /-- the `mask` column -/
  mask : Word
  deriving DecidableEq, Repr

/-- The row of a command in the table of R93. -/
def opcodeRow : Instr → OpcodeRow
  | .nop => ⟨"NOP", 0x00000000#32, 0xFFFFFFFF#32⟩
  | .clr => ⟨"CLR", 0x00000001#32, 0xFFFFFFFF#32⟩
  | .bdet _ _ _ => ⟨"BDET", 0x00000010#32, 0xFFFFF0FF#32⟩
  | .cfoe _ => ⟨"CFOE", 0x00000011#32, 0xFFFFF7FF#32⟩
  | .sxtr _ => ⟨"SXTR", 0x00000020#32, 0xFFFFEFFF#32⟩
  | .qmap _ => ⟨"QMAP", 0x00000030#32, 0xFFFFFCFF#32⟩
  | .rdm => ⟨"RDM", 0x00000031#32, 0xFFFFFFFF#32⟩
  | .dscr => ⟨"DSCR", 0x00000032#32, 0xFFFFFFFF#32⟩
  | .pack => ⟨"PACK", 0x00000033#32, 0xFFFFFFFF#32⟩
  | .pdat _ => ⟨"PDAT", 0x00000034#32, 0xFFFFFCFF#32⟩
  | .pdec => ⟨"PDEC", 0x00000035#32, 0xFFFFFFFF#32⟩
  | .crcc => ⟨"CRCC", 0x00000040#32, 0xFFFFFFFF#32⟩

/-- Whether a word selects a row (R93). -/
def OpcodeRow.selects (r : OpcodeRow) (w : Word) : Bool := w &&& r.mask == r.pattern

/-- The twelve rows of R93, in the table's order. -/
def opcodeRows : List OpcodeRow :=
  [opcodeRow .nop, opcodeRow .clr, opcodeRow (.bdet .droneid false false), opcodeRow (.cfoe false),
   opcodeRow (.sxtr false), opcodeRow (.qmap 0#2), opcodeRow .rdm, opcodeRow .dscr, opcodeRow .pack,
   opcodeRow (.pdat 0#2), opcodeRow .pdec, opcodeRow .crcc]

/-- A packet type as the assembler writes it (R98). -/
def packetTypeName : PacketType → String
  | .droneid => "droneid"
  | .c2 => "c2"
  | .beacon => "beacon"
  | .video => "video"

/-- A command as the assembler writes it (R98): mnemonic, operands, and a keyword for each flag that is set. -/
def Instr.assembly (i : Instr) : String :=
  match i with
  | .bdet ptype legacy skipBw => "BDET " ++ packetTypeName ptype ++ (if legacy then ", legacy" else "")
      ++ (if skipBw then ", skipbw" else "")
  | .cfoe skipBw => if skipBw then "CFOE skipbw" else "CFOE"
  | .sxtr skipZc => if skipZc then "SXTR skipzc" else "SXTR"
  | .qmap h => "QMAP " ++ toString h.toNat
  | .pdat h => "PDAT " ++ toString h.toNat
  | .nop => "NOP"
  | .clr => "CLR"
  | .rdm => "RDM"
  | .dscr => "DSCR"
  | .pack => "PACK"
  | .pdec => "PDEC"
  | .crcc => "CRCC"

end Sys2Proof
end

