-- ==== Sys2Proof/Machine/Parameters.lean ====
section
/-! DEFINITION. Constants band0 fixes (00_scope.md R7), capacities and bus windows derived from the configuration (R8,
20_memory.md R62, R66), and the decoder's parameters: the defaults the spec states, and what the implementation uses,
which is free (log 10 to log 13). The operations that use a parameter take it as an argument. -/

namespace Sys2Proof.Machine

/-! ### Constants (R7) -/

/-- `STFT_N`, samples per time step. -/
def stftN : Nat := 64
/-- `BD_THRESH`; only the ideal mask of 40_burst_detect.md R111 uses it. -/
def bdThresh : ℚ := 115 / 100
/-- `BD_GUARD_US`, microseconds. -/
def bdGuardUs : Nat := 45
/-- `BD_MAX_CAND`. -/
def bdMaxCand : Nat := 3
/-- `CANON_RATE`, Hz: the rate `BUR` is sampled at (10_state.md R43, 70_reset_and_hazards.md R260). -/
def canonRate : Nat := 15360000
/-- `N_HYP`. -/
def nHyp : Nat := 4
/-- `RDM_COLS`. -/
def rdmCols : Nat := 32
/-- `SYS_LEN_EXPECTED`. -/
def sysLenExpected : Nat := 1412
/-- `GOLD_NC`. -/
def goldNc : Nat := 1600
/-- `GOLD_SEED_RESET`. -/
def goldSeedReset : Word := 0x12345678#32
/-- `PAYLOAD_LEN`. -/
def payloadLen : Nat := 89
/-- `FRAME_LEN`. -/
def frameLen : Nat := 91
/-- `CRC_POLY`, with its leading coefficient. -/
def crcPoly : BitVec 17 := 0x11021#17
/-- `CRC_INIT`. -/
def crcInit : BitVec 16 := 0x3692#16
/-- The 16 low coefficients of `CRC_POLY = 0x11021`, bit-reversed (46_crc_frame.md R191). -/
def crcPolyReversed : BitVec 16 := 0x8408#16

/-! ### Capacities (R8, 20_memory.md R62) -/

/-- `BIT_DEPTH = 2 × SYM_DEPTH`. -/
def bitDepth : Nat := 2 * Config.symDepth
/-- `FRM_DEPTH = floor(BIT_DEPTH / 8)`. -/
def frmDepth : Nat := bitDepth / 8

/-- A space's capacity in bits (10_state.md R41). -/
def capacityBits : Space → Nat
  | .cap => 64 * Config.capDepth
  | .bur => 64 * Config.burDepth
  | .sym => 64 * Config.symDepth
  | .glen => 32 * Config.maxGroups
  | .raw => bitDepth
  | .dem => bitDepth
  | .dsc => bitDepth
  | .frm => 8 * frmDepth

/-- "A space has ceil(capacity_in_bits / 32) words" (R62). -/
def spaceWords (sp : Space) : Nat := (capacityBits sp + 31) / 32

/-! ### Bus windows (20_memory.md R66; log 9) -/

/-- The nine windows. -/
def windows : List Window :=
  [.registers, .buffer .cap, .buffer .bur, .buffer .sym, .buffer .glen, .buffer .raw, .buffer .dem, .buffer .dsc,
   .buffer .frm]

/-- A window's size in bytes: 256 for the registers, four per word for a buffer (R66). -/
def windowBytes : Window → Nat
  | .registers => 256
  | .buffer sp => 4 * spaceWords sp

/-- Two windows do not meet under the given bases. -/
def windowsApart (base : Window → Nat) (x y : Window) : Bool :=
  decide (base x + windowBytes x ≤ base y) || decide (base y + windowBytes y ≤ base x)

/-- "The nine bases are ... word aligned, windows pairwise disjoint" (R66). -/
def basesAdmissible (base : Window → Nat) : Bool :=
  windows.all (fun x => base x % 4 == 0) &&
  windows.all (fun x => windows.all (fun y => x == y || windowsApart base x y))

/-- The windows one after another from address 0 in the order of `windows`: an admissible layout. -/
def packedBase : Window → Nat
  | .registers => 0
  | .buffer .cap => 256
  | .buffer .bur => 256 + 4 * spaceWords .cap
  | .buffer .sym => 256 + 4 * spaceWords .cap + 4 * spaceWords .bur
  | .buffer .glen => 256 + 4 * spaceWords .cap + 4 * spaceWords .bur + 4 * spaceWords .sym
  | .buffer .raw => 256 + 4 * spaceWords .cap + 4 * spaceWords .bur + 4 * spaceWords .sym + 4 * spaceWords .glen
  | .buffer .dem => 256 + 4 * spaceWords .cap + 4 * spaceWords .bur + 4 * spaceWords .sym + 4 * spaceWords .glen
      + 4 * spaceWords .raw
  | .buffer .dsc => 256 + 4 * spaceWords .cap + 4 * spaceWords .bur + 4 * spaceWords .sym + 4 * spaceWords .glen
      + 4 * spaceWords .raw + 4 * spaceWords .dem
  | .buffer .frm => 256 + 4 * spaceWords .cap + 4 * spaceWords .bur + 4 * spaceWords .sym + 4 * spaceWords .glen
      + 4 * spaceWords .raw + 4 * spaceWords .dem + 4 * spaceWords .dsc

/-- `BASE_REG` and the eight `BASE_<space>`: what the implementation asks for where that is admissible, else the
packed layout (log 9). -/
def windowBase (x : Window) : Nat :=
  if basesAdmissible Config.requestedBase then Config.requestedBase x else packedBase x

/-! ### The decoder's parameters: the spec's defaults -/

/-- The default tables of 43_phase_decode.md R152: row `h`, column `q`, each entry the 2-bit value `v`. -/
def qpskTable : List (List (BitVec 2)) :=
  [[0b00#2, 0b01#2, 0b10#2, 0b11#2],
   [0b01#2, 0b11#2, 0b00#2, 0b10#2],
   [0b11#2, 0b10#2, 0b01#2, 0b00#2],
   [0b10#2, 0b00#2, 0b11#2, 0b01#2]]

/-- The default of `QPSK_LUT[h][q]` (R152). -/
def qpskLutDefault (h q : BitVec 2) : BitVec 2 := ((qpskTable[h.toNat]?).getD [])[q.toNat]?.getD 0#2

/-- Rows of the de-matching matrix, `ceil(len / 32)` (44_rate_dematch.md R171). -/
def rdmRows (len : Nat) : Nat := (len + (rdmCols - 1)) / rdmCols

/-- The matrix cells `(r, c)` in column-major order (00_scope.md R10). -/
def cellsByColumn (rows : Nat) : List (Nat × Nat) :=
  (List.range rdmCols).flatMap (fun c => (List.range rows).map (fun r => (r, c)))

/-- The matrix cells `(r, c)` in row-major order (R10). -/
def cellsByRow (rows : Nat) : List (Nat × Nat) :=
  (List.range rows).flatMap (fun r => (List.range rdmCols).map (fun c => (r, c)))

/-- The default of `RDM_DUMMY(len, r, c)` (R172). -/
def rdmDummyDefault (len r c : Nat) : Bool := decide (len ≤ c * rdmRows len + r)

/-- `RDM_DUMMY_ALT`, the reading R172 records and sets aside as a default; it is admissible too. -/
def rdmDummyAlt (len r c : Nat) : Bool :=
  decide (r + 1 = rdmRows len) && decide (len + rdmCols ≤ c + rdmCols * rdmRows len)

/-- "any admissible predicate marks exactly `ND` cells for every `len`" (R172): whether it does for `len`. -/
def dummyAdmissible (dummy : Nat → Nat → Nat → Bool) (len : Nat) : Bool :=
  ((cellsByColumn (rdmRows len)).filter (fun cell => dummy len cell.1 cell.2)).length == rdmCols * rdmRows len - len

/-- The default of `GOLD_POLY` (45_gold_descramble.md R181): feedback of stages 3 and 0, and of stages 3, 2, 1 and 0;
first register filled with `1, 0, ..., 0`. -/
def goldPolyDefault : GoldPoly := ⟨[3, 0], [3, 2, 1, 0], 1#31⟩

/-- The default of `STRUCT_OK(frame)`: the constant true (43_phase_decode.md R157). -/
def structOkDefault (_frame : List Byte) : Bool := true

/-! ### The decoder's parameters: the implementation's -/

/-- `RDM_DUMMY(len, r, c)`: what the implementation asks for where that is admissible, else the default (log 11). -/
def rdmDummy (len r c : Nat) : Bool :=
  if dummyAdmissible Config.requestedDummy len then Config.requestedDummy len r c else rdmDummyDefault len r c

/-- The parameters one decode attempt depends on (00_scope.md R8). -/
structure DecoderParams where
  /-- `QPSK_LUT[h][q]` -/
  lut : BitVec 2 → BitVec 2 → BitVec 2
  /-- `RDM_DUMMY(len, r, c)` -/
  dummy : Nat → Nat → Nat → Bool
  /-- `GOLD_POLY` -/
  poly : GoldPoly
  /-- `STRUCT_OK(frame)` -/
  struct : List Byte → Bool

/-- The spec's defaults (R152, R172, R181, R157). -/
def defaultParams : DecoderParams := ⟨qpskLutDefault, rdmDummyDefault, goldPolyDefault, structOkDefault⟩

/-- The implementation's parameters, which the commands run with (log 10 to log 13). -/
def implParams : DecoderParams := ⟨Config.qpskLut, rdmDummy, Config.goldPoly, Config.structOk⟩

end Sys2Proof.Machine
end

