-- ==== Sys2Proof/Machine/State.lean ====
section
/-! DEFINITION. The architectural state of one OQX instance (10_state.md R20 to R49), its reset value, and the reasons
a step can stop. -/

namespace Sys2Proof.Machine

/-- The result codes of `STATUS.RES` (60_exceptions.md R221). Codes 8 to 15 are never produced, so they have no
constructor. -/
inductive ResultCode where
  | ok | illcmd | range | offset | symx | phase | crc | noburst
  deriving DecidableEq, Repr

/-- A buffer space's contents: byte offset in the space's bus window and byte, offsets strictly rising. A byte nothing
has written since reset is not listed (log 3, log 15). -/
abbrev Memory := List Host.Cell

/-- One entry of the candidate table (10_state.md R32). -/
structure Cand where
  /-- `START`: first sample index, inclusive -/
  start : Word
  /-- `END`: one past the last sample -/
  stop : Word
  /-- `DUR`: duration in samples -/
  dur : Word
  /-- `OFFSET`: binary32, Hz -/
  offset : Word
  /-- `FLAGS.VALID` -/
  valid : Bool
  /-- `FLAGS.FORCED` -/
  forced : Bool
  deriving DecidableEq, Repr

/-- An entry all of whose words are zero (R32: entries at or above `BD_NCAND`). -/
def Cand.zero : Cand := ⟨0#32, 0#32, 0#32, 0#32, false, false⟩

/-- The registers of 10_state.md R40, the eight buffer spaces of R41, and five fields of the model's own (`host`,
`busData`, `delay`, `draws`, `resets`). Reserved register bits are not held: they read 0 and ignore writes (R50;
log 21). -/
structure State where
  /-- `CMD` (R23) -/
  cmd : Word
  /-- `STATUS.BUSY` (R24) -/
  busy : Bool
  /-- `STATUS.DONE` (R24) -/
  done : Bool
  /-- `STATUS.OVR` (R24) -/
  ovr : Bool
  /-- `STATUS.RES` (R24, R221) -/
  res : ResultCode
  /-- `CTRL.IE` (R25) -/
  ie : Bool
  /-- `CAP_LEN` (R26) -/
  capLen : Word
  /-- `CAP_RATE` (R27) -/
  capRate : Word
  /-- `CAP_FREQ_LO` (R28) -/
  capFreqLo : Word
  /-- `CAP_FREQ_HI` (R28) -/
  capFreqHi : Word
  /-- `CAP_TS_LO` (R28) -/
  capTsLo : Word
  /-- `CAP_TS_HI` (R28) -/
  capTsHi : Word
  /-- `BD_NFOUND` (R29) -/
  bdNfound : BitVec 2
  /-- `BD_NCAND` (R29) -/
  bdNcand : BitVec 2
  /-- `BD_LASTOFF` (R29) -/
  bdLastoff : Word
  /-- `CFO_START` (R30) -/
  cfoStart : Word
  /-- `CFO_END` (R30) -/
  cfoEnd : Word
  /-- `CFO_OFFSET` (R31) -/
  cfoOffset : Word
  /-- `CFO_STAT.FOUND` (R31) -/
  cfoFound : Bool
  /-- `CFO_STAT.COMPUTABLE` (R31) -/
  cfoComputable : Bool
  /-- `CAND[0]` (R32) -/
  cand0 : Cand
  /-- `CAND[1]` (R32) -/
  cand1 : Cand
  /-- `CAND[2]` (R32) -/
  cand2 : Cand
  /-- `BUR_LEN` (R33) -/
  burLen : Word
  /-- `SX_NGRP` (R34) -/
  sxNgrp : Word
  /-- `SYM_COUNT` (R34) -/
  symCount : Word
  /-- `GOLD_SEED` (R35) -/
  goldSeed : Word
  /-- `RAW_LEN` (R36) -/
  rawLen : Word
  /-- `DEM_LEN` (R36) -/
  demLen : Word
  /-- `DSC_LEN` (R36) -/
  dscLen : Word
  /-- `FRM_LEN` (R36) -/
  frmLen : Word
  /-- `PD_STAT.HYP` (R37) -/
  pdHyp : BitVec 2
  /-- `PD_STAT.OK` (R37) -/
  pdOk : Bool
  /-- `PD_STAT.LENX` (R37) -/
  pdLenx : Bool
  /-- `PD_STAT.ATT` (R37) -/
  pdAtt : BitVec 3
  /-- `CRC_CALC` (R38) -/
  crcCalc : BitVec 16
  /-- `CRC_RX` (R38) -/
  crcRx : BitVec 16
  /-- `CRC_STAT.VALID` (R38) -/
  crcValid : Bool
  /-- `CAP` (R42) -/
  cap : Memory
  /-- `BUR` (R43) -/
  bur : Memory
  /-- `SYM` (R44) -/
  sym : Memory
  /-- `GLEN` (R41, R44) -/
  glen : Memory
  /-- `RAW` (R45) -/
  raw : Memory
  /-- `DEM` (R45) -/
  dem : Memory
  /-- `DSC` (R45) -/
  dsc : Memory
  /-- `FRM` (R46) -/
  frm : Memory
  /-- model field: host actions still to come, oldest first (log 1) -/
  host : List HostAction
  /-- model field: the word the host's latest read returned (log 16) -/
  busData : Word
  /-- model field: how many more host actions may come before the command in flight completes (log 2) -/
  delay : Nat
  /-- model field: how many free values have been drawn (log 2, log 4, log 6) -/
  draws : Nat
  /-- model field: how many resets there have been; indexes the free buffer contents (log 3) -/
  resets : Nat
  deriving DecidableEq, Repr

/-- The state right after reset (R49, R250): every register 0 but `GOLD_SEED`, no command in flight, no buffer byte
written, no host action pending. -/
def State.reset : State where
  cmd := 0#32
  busy := false
  done := false
  ovr := false
  res := .ok
  ie := false
  capLen := 0#32
  capRate := 0#32
  capFreqLo := 0#32
  capFreqHi := 0#32
  capTsLo := 0#32
  capTsHi := 0#32
  bdNfound := 0#2
  bdNcand := 0#2
  bdLastoff := 0#32
  cfoStart := 0#32
  cfoEnd := 0#32
  cfoOffset := 0#32
  cfoFound := false
  cfoComputable := false
  cand0 := Cand.zero
  cand1 := Cand.zero
  cand2 := Cand.zero
  burLen := 0#32
  sxNgrp := 0#32
  symCount := 0#32
  goldSeed := 0x12345678#32
  rawLen := 0#32
  demLen := 0#32
  dscLen := 0#32
  frmLen := 0#32
  pdHyp := 0#2
  pdOk := false
  pdLenx := false
  pdAtt := 0#3
  crcCalc := 0#16
  crcRx := 0#16
  crcValid := false
  cap := []
  bur := []
  sym := []
  glen := []
  raw := []
  dem := []
  dsc := []
  frm := []
  host := []
  busData := 0#32
  delay := 0
  draws := 0
  resets := 0

/-- Reasons a step ends in a fault: none. "OQX takes no traps" (60_exceptions.md R220), every command completes, and an
access outside the nine windows does not reach it (20_memory.md R66). -/
inductive Fault where
  deriving DecidableEq, Repr

/-- Reasons a step is refused. -/
inductive Refusal where
  /-- An instruction that has no meaning in the model; no arm of `exec` answers with it. Safe. -/
  | notModelled (mnemonic : String)
  /-- A host access that is not an aligned 32-bit word, or a register offset outside the register window: "the spec
  gives it no meaning and a model refuses it" (20_memory.md R64, 93 U2; log 7). Raised by the host port. Safe. -/
  | notAWordAccess
  deriving DecidableEq, Repr

end Sys2Proof.Machine
end

