-- ==== Sys2Proof/Machine/Ops.lean ====
section
/-! DEFINITION. The named operations over buffers and registers: one byte of a buffer space and everything built from
it (20_memory.md R62), acceptance and completion of a command (30_encoding.md R96), the soft reset of the registers
(47_control.md R211) and reset (70_reset_and_hazards.md R250). -/

namespace Sys2Proof.Machine

/-! ### The byte list -/

/-- The byte listed at an address, if one is. -/
def Memory.get? : Memory → Nat → Option Byte
  | [], _ => none
  | (k, b) :: m, a => if k = a then some b else Memory.get? m a

/-- List byte `b` at address `a`, keeping addresses rising. -/
def Memory.set : Memory → Nat → Byte → Memory
  | [], a, b => [(a, b)]
  | (k, c) :: m, a, b =>
    if a < k then (a, b) :: (k, c) :: m
    else if a = k then (a, b) :: m
    else (k, c) :: Memory.set m a b

/-- Which bits of the byte at offset `a` lie inside the space's capacity (R62). -/
def byteMask (sp : Space) (a : Nat) : Byte :=
  if 8 * (a + 1) ≤ capacityBits sp then 0xFF#8 else BitVec.ofNat 8 (2 ^ (capacityBits sp - 8 * a) - 1)

/-- The canonical form: addresses strictly rising, every address inside the space, no bit set beyond the capacity. A
byte nothing has written is not listed, and every byte written is listed (log 3). -/
abbrev Memory.wf (sp : Space) (m : Memory) : Prop :=
  m.Pairwise (fun c d => c.1 < d.1) ∧ ∀ c ∈ m, 8 * c.1 < capacityBits sp ∧ c.2 &&& byteMask sp c.1 = c.2

/-- The byte at offset `a` of a space after the `ep`-th reset: the byte written there, else the free byte (R49, 93 U1;
log 3); bits beyond the capacity read 0 (R62). -/
def Memory.byte (sp : Space) (ep : Nat) (m : Memory) (a : Nat) : Byte :=
  ((m.get? a).getD (Config.resetByte ep sp a)) &&& byteMask sp a

/-- Write a byte: bits beyond the capacity, and bytes beyond the space, ignore writes (R62). -/
def Memory.putByte (sp : Space) (m : Memory) (a : Nat) (b : Byte) : Memory :=
  if 8 * a < capacityBits sp then m.set a (b &&& byteMask sp a) else m

/-- Word `w` of a space, little-endian (R62, R63). -/
def Memory.word (sp : Space) (ep : Nat) (m : Memory) (w : Nat) : Word :=
  m.byte sp ep (4 * w + 3) ++ m.byte sp ep (4 * w + 2) ++ m.byte sp ep (4 * w + 1) ++ m.byte sp ep (4 * w)

/-- Store word `w` of a space, little-endian (R62, R63). -/
def Memory.putWord (sp : Space) (m : Memory) (w : Nat) (v : Word) : Memory :=
  (((m.putByte sp (4 * w) (v.extractLsb' 0 8)).putByte sp (4 * w + 1) (v.extractLsb' 8 8)).putByte sp (4 * w + 2)
    (v.extractLsb' 16 8)).putByte sp (4 * w + 3) (v.extractLsb' 24 8)

/-- Element `i` of a bit space: bit `i mod 32` of word `i / 32` (R62), hence bit `i mod 8` of byte `i / 8`. -/
def Memory.bit (sp : Space) (ep : Nat) (m : Memory) (i : Nat) : Bool := (m.byte sp ep (i / 8)).getLsbD (i % 8)

/-- A byte with one bit replaced. -/
def setBit (b : Byte) (k : Nat) (v : Bool) : Byte :=
  if v then b ||| (1#8 <<< k) else b &&& ~~~(1#8 <<< k)

/-- Write element `i` of a bit space. -/
def Memory.putBit (sp : Space) (ep : Nat) (m : Memory) (i : Nat) (v : Bool) : Memory :=
  m.putByte sp (i / 8) (setBit (m.byte sp ep (i / 8)) (i % 8) v)

/-- Write consecutive elements of a bit space from element `i` on, in index order. -/
def Memory.putBits (sp : Space) (ep : Nat) (m : Memory) (i : Nat) : List Bool → Memory
  | [] => m
  | v :: vs => Memory.putBits sp ep (m.putBit sp ep i v) (i + 1) vs

/-- Write consecutive bytes of a space from offset `a` on. -/
def Memory.putBytes (sp : Space) (m : Memory) (a : Nat) : List Byte → Memory
  | [] => m
  | b :: bs => Memory.putBytes sp (m.putByte sp a b) (a + 1) bs

/-- Write consecutive words of a space from word `w` on. -/
def Memory.putWords (sp : Space) (m : Memory) (w : Nat) : List Word → Memory
  | [] => m
  | v :: vs => Memory.putWords sp (m.putWord sp w v) (w + 1) vs

/-! ### The eight spaces of a state -/

/-- The contents of a space (10_state.md R41). -/
def State.mem (s : State) : Space → Memory
  | .cap => s.cap
  | .bur => s.bur
  | .sym => s.sym
  | .glen => s.glen
  | .raw => s.raw
  | .dem => s.dem
  | .dsc => s.dsc
  | .frm => s.frm

/-- Replace the contents of a space. -/
def State.setMem (s : State) (sp : Space) (m : Memory) : State :=
  match sp with
  | .cap => { s with cap := m }
  | .bur => { s with bur := m }
  | .sym => { s with sym := m }
  | .glen => { s with glen := m }
  | .raw => { s with raw := m }
  | .dem => { s with dem := m }
  | .dsc => { s with dsc := m }
  | .frm => { s with frm := m }

/-- Byte at an offset of a space. -/
def State.byte (s : State) (sp : Space) (a : Nat) : Byte := (s.mem sp).byte sp s.resets a

/-- `BufRead(sp, w)` of an idle block (R62). -/
def State.word (s : State) (sp : Space) (w : Nat) : Word := (s.mem sp).word sp s.resets w

/-- Element `i` of a bit space. -/
def State.bit (s : State) (sp : Space) (i : Nat) : Bool := (s.mem sp).bit sp s.resets i

/-- `BufWrite(sp, w, v)` of an idle block (R62). -/
def State.putWord (s : State) (sp : Space) (w : Nat) (v : Word) : State :=
  s.setMem sp ((s.mem sp).putWord sp w v)

/-- Write elements 0, 1, ... of a bit space. -/
def State.putBits (s : State) (sp : Space) (bits : List Bool) : State :=
  s.setMem sp ((s.mem sp).putBits sp s.resets 0 bits)

/-- Write bytes 0, 1, ... of a space. -/
def State.putBytes (s : State) (sp : Space) (bytes : List Byte) : State :=
  s.setMem sp ((s.mem sp).putBytes sp 0 bytes)

/-- Write words 0, 1, ... of a space. -/
def State.putWords (s : State) (sp : Space) (words : List Word) : State :=
  s.setMem sp ((s.mem sp).putWords sp 0 words)

/-! ### Acceptance, completion, acknowledgement -/

/-- How many host actions may come between acceptance and completion of the `n`-th drawn command word: free for a
command (93 U5; log 2), none for a word that selects no command, which "completes at once" (30_encoding.md R94). -/
def commandTime (n : Nat) (w : Word) : Nat :=
  match decode w with
  | .ok _ => Config.commandDelay n w
  | .error _ => 0

/-- Accept a command word (30_encoding.md R96): `CMD` holds it, `DONE` is cleared, `BUSY` is set, and the time to
completion is drawn. -/
def State.accept (s : State) (w : Word) : State :=
  { s with cmd := w, done := false, busy := true, delay := commandTime s.draws w, draws := s.draws + 1 }

/-- `complete(code)`, and `raise code` with it (00_scope.md R11, 60_exceptions.md R220): the block's one form of
"trap entry" (R225). `STATUS.RES` takes the code, `BUSY` falls, `DONE` rises. -/
def State.complete (s : State) (code : ResultCode) : State :=
  { s with res := code, busy := false, done := true }

/-- A host write to `STATUS` (10_state.md R24): bit 1 clears `DONE`, bit 2 clears `OVR`. Clearing `DONE` is the host's
acknowledgement, the block's one form of "trap return" (60_exceptions.md R226). -/
def State.writeStatus (s : State) (v : Word) : State :=
  { s with done := s.done && !v.getLsbD 1, ovr := s.ovr && !v.getLsbD 2 }

/-- A dropped write (20_memory.md R73): nothing changes but `OVR`. -/
def State.dropWrite (s : State) : State := { s with ovr := true }

/-- `STATUS.OVR <- 0` (47_control.md R211). -/
def State.clearOvr (s : State) : State := { s with ovr := false }

/-- Clear the three CRC registers (43_phase_decode.md R153: "a new frame invalidates the old check"). -/
def State.clearCrc (s : State) : State := { s with crcCalc := 0#16, crcRx := 0#16, crcValid := false }

/-- Every register other than `CMD` and `STATUS` takes its reset value (47_control.md R211). -/
def State.clearRegisters (s : State) : State :=
  { s with
    ie := false
    capLen := 0#32, capRate := 0#32, capFreqLo := 0#32, capFreqHi := 0#32, capTsLo := 0#32, capTsHi := 0#32
    bdNfound := 0#2, bdNcand := 0#2, bdLastoff := 0#32
    cfoStart := 0#32, cfoEnd := 0#32, cfoOffset := 0#32, cfoFound := false, cfoComputable := false
    cand0 := Cand.zero, cand1 := Cand.zero, cand2 := Cand.zero
    burLen := 0#32, sxNgrp := 0#32, symCount := 0#32, goldSeed := goldSeedReset
    rawLen := 0#32, demLen := 0#32, dscLen := 0#32, frmLen := 0#32
    pdHyp := 0#2, pdOk := false, pdLenx := false, pdAtt := 0#3
    crcCalc := 0#16, crcRx := 0#16, crcValid := false }

/-- Reset (70_reset_and_hazards.md R250, R251): every register takes its reset value, a command in flight is lost, and
the buffers' contents are drawn afresh (log 3). The host's own pending actions, its latest read and the draw counter
are not OQX's and stay (log 16). -/
def State.assertReset (s : State) : State :=
  { State.reset with host := s.host, busData := s.busData, draws := s.draws, resets := s.resets + 1 }

/-- The answer of a host read. -/
def State.respond (s : State) (v : Word) : State := { s with busData := v }

/-- The answer of a host read of anything but `STATUS` while `BUSY = 1`: a free word (93 U4; log 4). -/
def State.respondFree (s : State) : State :=
  { s with busData := Config.busyRead s.draws, draws := s.draws + 1 }

/-- The answer of a host read outside all nine windows: it does not reach OQX, and a free word comes back (20_memory.md
R66; log 6). -/
def State.respondOutside (s : State) : State :=
  { s with busData := Config.outsideRead s.draws, draws := s.draws + 1 }

end Sys2Proof.Machine
end

