-- ==== Sys2Proof/Machine/Flags.lean ====
section
/-! DEFINITION. Status flags (10_state.md R47): the words that hold them, the interrupt output, and the range checks of
30_encoding.md R97. -/

namespace Sys2Proof.Machine

/-- The 4-bit value of a result code (60_exceptions.md R221). -/
def ResultCode.bits : ResultCode → BitVec 4
  | .ok => 0#4
  | .illcmd => 1#4
  | .range => 2#4
  | .offset => 3#4
  | .symx => 4#4
  | .phase => 5#4
  | .crc => 6#4
  | .noburst => 7#4

/-- `STATUS` as read (R24): `RES` in 7:4, bit 3 zero, `OVR`, `DONE`, `BUSY`. -/
def statusWord (s : State) : Word :=
  0#24 ++ s.res.bits ++ 0#1 ++ BitVec.ofBool s.ovr ++ BitVec.ofBool s.done ++ BitVec.ofBool s.busy

/-- `CTRL` as read (R25). -/
def ctrlWord (s : State) : Word := 0#31 ++ BitVec.ofBool s.ie

/-- `CFO_STAT` as read (R31): `COMPUTABLE` in bit 1, `FOUND` in bit 0. -/
def cfoStatWord (s : State) : Word := 0#30 ++ BitVec.ofBool s.cfoComputable ++ BitVec.ofBool s.cfoFound

/-- `FLAGS` of a candidate-table entry as read (R32): `FORCED` in bit 1, `VALID` in bit 0. -/
def Cand.flagsWord (c : Cand) : Word := 0#30 ++ BitVec.ofBool c.forced ++ BitVec.ofBool c.valid

/-- `PD_STAT` as read (R37): `ATT` in 6:4, `LENX` in 3, `OK` in 2, `HYP` in 1:0. -/
def pdStatWord (s : State) : Word :=
  0#25 ++ s.pdAtt ++ BitVec.ofBool s.pdLenx ++ BitVec.ofBool s.pdOk ++ s.pdHyp

/-- `CRC_STAT` as read (R38). -/
def crcStatWord (s : State) : Word := 0#31 ++ BitVec.ofBool s.crcValid

/-- The interrupt output (60_exceptions.md R224): `irq = STATUS.DONE and CTRL.IE`. -/
def State.irq (s : State) : Bool := s.done && s.ie

/-! ### Range checks (R97): true when the command ends with `RANGE` -/

/-- `BDET` -/
def bdetOutOfRange (s : State) : Bool := decide (Config.capDepth < s.capLen.toNat) || s.capRate == 0#32

/-- `CFOE` -/
def cfoeOutOfRange (s : State) : Bool :=
  decide (Config.capDepth < s.capLen.toNat) || s.capRate == 0#32 || decide (s.cfoEnd.toNat < s.cfoStart.toNat)
    || decide (s.capLen.toNat < s.cfoEnd.toNat)

/-- `SXTR` -/
def sxtrOutOfRange (s : State) : Bool := decide (Config.burDepth < s.burLen.toNat)

/-- `QMAP`, `PDAT`, `PDEC` -/
def symOutOfRange (s : State) : Bool := decide (Config.symDepth < s.symCount.toNat)

/-- `RDM` -/
def rdmOutOfRange (s : State) : Bool := decide (bitDepth < s.rawLen.toNat)

/-- `DSCR` -/
def dscrOutOfRange (s : State) : Bool := decide (bitDepth < s.demLen.toNat)

/-- `PACK` -/
def packOutOfRange (s : State) : Bool := decide (bitDepth < s.dscLen.toNat)

/-- `CRCC` -/
def crccOutOfRange (s : State) : Bool :=
  decide (s.frmLen.toNat < frameLen) || decide (frmDepth < s.frmLen.toNat)

end Sys2Proof.Machine
end

