-- ==== Sys2Proof/Machine/Numerics.lean ====
section
/-! DEFINITION. The three numerics functions (00_scope.md R13; log 14): total, deterministic, of the stated result
shape, and otherwise unknown. The ideal definition the spec gives for the first (40_burst_detect.md R111) stands here
as a proposition a claim may take as a hypothesis; the machine does not use it. -/

namespace Sys2Proof.Machine

/-- What `NUM.cfo_est` returns (41_cfo_estimate.md R131). -/
structure CfoEstimate where
  /-- an offset can be computed -/
  computable : Bool
  /-- binary32, Hz -/
  offset : Word
  /-- the occupied bandwidth matches -/
  bwOk : Bool
  deriving DecidableEq, Repr

/-- `T = floor(n / 64)` (R111). -/
def timeSteps (n : Nat) : Nat := n / stftN

/-- `NUM.bd_mask`: exactly `floor(n / 64)` booleans (R111). -/
def bdMask (samples : List Sample) : List Bool :=
  (List.range (timeSteps samples.length)).map (Config.stepMarked Config.bdWindow samples)

/-- `NUM.cfo_est`; "this spec requires `offset = F32(+0.0)`" and "`bw_ok = false` when `computable` is false" (R131). -/
def cfoEst (slice : List Sample) (rate : Word) : CfoEstimate :=
  if Config.cfoComputable slice rate then
    ⟨true, Config.cfoBestOffset slice rate, Config.cfoBandwidthOk Config.cfoBwExpected Config.cfoBwTol slice rate⟩
  else ⟨false, 0#32, false⟩

/-- `NUM.sx_demod` (42_symbol_extract.md R142): `none` is `Fail`. The burst is taken to be at `CANON_RATE` exactly; "the
block has no register for this rate and assumes it" (10_state.md R43). -/
def sxDemod (burst : List Sample) (skipZc : Bool) : Option (List (List Sample)) :=
  Config.sxDemod canonRate burst skipZc

/-- The default of `BD_WINDOW`: all 1.0, rectangular (00_scope.md R8). -/
def bdWindowDefault : Fin 64 → ℝ := fun _ => 1

/-- The ideal mask of R111 over the reals, for an analysis window `window` (`BD_WINDOW`) and the complex values `x` of
`n` samples: `X` is the 64-point transform of each block, `P` its largest magnitude, `NF` the mean of `P`, and step `t`
is marked when `P[t] > 1.15 × NF`. -/
def IdealMark (window : Fin 64 → ℝ) (x : Nat → ℂ) (n t : Nat) : Prop :=
  ∃ (X : Nat → Nat → ℂ) (P : Nat → ℝ) (NF : ℝ),
    (∀ u k, X u k = ∑ m : Fin 64, (window m : ℂ) * x (64 * u + m)
      * Complex.exp (-Complex.I * (2 * Real.pi * k * m / 64))) ∧
    (∀ u, IsGreatest ((fun k => ‖X u k‖) '' {k : Nat | k < 64}) (P u)) ∧
    (timeSteps n : ℝ) * NF = ∑ u ∈ Finset.range (timeSteps n), P u ∧
    t < timeSteps n ∧ P t > (bdThresh : ℝ) * NF

end Sys2Proof.Machine
end

