-- ==== Sys2Proof/Machine/Operands.lean ====
section
/-! DEFINITION. What a command reads: the sequences `X[a..b)` of 00_scope.md R10 over the buffer spaces (20_memory.md
R74), and the sign pattern of a point (43_phase_decode.md R151). -/

namespace Sys2Proof.Machine

/-- The numbers `a, a + 1, ..., b - 1` (00_scope.md R10). -/
def indices (a b : Nat) : List Nat := List.range' a (b - a)

/-- Element `i` of `CAP`, `BUR` or `SYM`: real part in word `2i`, imaginary part in word `2i + 1` (20_memory.md R62). -/
def State.sample (s : State) (sp : Space) (i : Nat) : Sample := ⟨s.word sp (2 * i), s.word sp (2 * i + 1)⟩

/-- `X[a..b)` of a sample space. -/
def State.samples (s : State) (sp : Space) (a b : Nat) : List Sample := (indices a b).map (s.sample sp)

/-- `X[a..b)` of a bit space. -/
def State.bits (s : State) (sp : Space) (a b : Nat) : List Bool := (indices a b).map (s.bit sp)

/-- `X[a..b)` of `FRM`. -/
def State.bytes (s : State) (sp : Space) (a b : Nat) : List Byte := (indices a b).map (s.byte sp)

/-- `GLEN[g]` (10_state.md R41, 20_memory.md R62). -/
def State.groupLen (s : State) (g : Nat) : Nat := (s.word .glen g).toNat

/-- `o_g`, the index in `SYM` of group `g`'s first point (10_state.md R44). -/
def State.groupStart (s : State) : Nat → Nat
  | 0 => 0
  | g + 1 => s.groupStart g + s.groupLen g

/-- The points of group `g`: `SYM[o_g .. o_g + GLEN[g])` (R44). -/
def State.groupPoints (s : State) (g : Nat) : List Sample :=
  s.samples .sym (s.groupStart g) (s.groupStart g + s.groupLen g)

/-- The words two samples' components are stored in, in order (20_memory.md R62). -/
def sampleWords (points : List Sample) : List Word := points.flatMap (fun p => [p.re, p.im])

/-- `sign(w)`: bit 31 of a binary32 word (00_scope.md R11). -/
def signBit (w : Word) : Bool := w.getLsbD 31

/-- `Quadrant(p) = 2 × s_re + s_im` (43_phase_decode.md R151). -/
def quadrant (p : Sample) : BitVec 2 := BitVec.ofBool (signBit p.re) ++ BitVec.ofBool (signBit p.im)

end Sys2Proof.Machine
end

