-- ==== Sys2Proof/Machine/CfoEstimate.lean ====
section
/-! DEFINITION. The coarse CFO estimator: `CfoCall` and `CFOE` (41_cfo_estimate.md R130 to R132). -/

namespace Sys2Proof.Machine

/-- `CfoCall(slice, rate, S)` (R132): the offset and `found`. -/
def cfoCall (slice : List Sample) (rate : Word) (skipBw : Bool) : Word × Bool :=
  let e := cfoEst slice rate
  (if e.computable then e.offset else 0#32, skipBw || e.bwOk)

/-- The slice `CAP[CFO_START..CFO_END)`. -/
def cfoSlice (s : State) : List Sample := s.samples .cap s.cfoStart.toNat s.cfoEnd.toNat

/-- Store an estimate in `CFO_OFFSET` and `CFO_STAT` (R130). -/
def storeCfo (offset : Word) (found computable : Bool) (s : State) : State :=
  { s with cfoOffset := offset, cfoFound := found, cfoComputable := computable }

/-- The body of `CFOE` (R130): `CFO_OFFSET`, `CFO_STAT`, and `OK` or `OFFSET`. -/
def cfoeBody (skipBw : Bool) (s : State) : State :=
  let call := cfoCall (cfoSlice s) s.capRate skipBw
  (storeCfo call.1 call.2 (cfoEst (cfoSlice s) s.capRate).computable s).complete (if call.2 then .ok else .offset)

/-- `CFOE [skipbw]` (R130). -/
def execCfoe (skipBw : Bool) (s : State) : Host.Outcome State Fault Refusal :=
  .next (if cfoeOutOfRange s then s.complete .range else cfoeBody skipBw s)

end Sys2Proof.Machine
end

