-- ==== Sys2Proof/Machine/BurstDetect.lean ====
section
/-! DEFINITION. The burst detector, command `BDET` (40_burst_detect.md R110 to R118). -/

namespace Sys2Proof.Machine

/-- The maximal runs of marked steps in the rest of a mask whose first entry is step `t`; `open_` is the first step of
the run that reaches `t`, if one does. -/
def regionsFrom : List Bool → Nat → Option Nat → List (Nat × Nat)
  | [], t, some a => [(a, t - 1)]
  | [], _, none => []
  | true :: m, t, some a => regionsFrom m (t + 1) (some a)
  | true :: m, t, none => regionsFrom m (t + 1) (some t)
  | false :: m, t, some a => (a, t - 1) :: regionsFrom m (t + 1) none
  | false :: m, t, none => regionsFrom m (t + 1) none

/-- `Regions(mask)` (R112): the maximal runs `(a, b)` of true entries, in increasing `a`. -/
def regions (mask : List Bool) : List (Nat × Nat) := regionsFrom mask 0 none

/-- `DurWindow(A, L)` (R116), microseconds. -/
def durWindow : PacketType → Bool → Nat × Nat
  | .droneid, false => (630, 665)
  | .droneid, true => (565, 600)
  | .c2, _ => (500, 520)
  | .beacon, _ => (490, 540)
  | .video, _ => (630, 665)

/-- `Qualifies(w, rate, lo, hi)` (R113). -/
def qualifies (w rate lo hi : Nat) : Bool :=
  decide (lo * rate ≤ stftN * 1000000 * w) && decide (stftN * 1000000 * w ≤ hi * rate)

/-- The regions that qualify, the scan stopping at the third (R114). -/
def collect (rate lo hi : Nat) (runs : List (Nat × Nat)) : List (Nat × Nat) :=
  (runs.filter (fun r => qualifies (r.2 - r.1 + 1) rate lo hi)).take bdMaxCand

/-- The guard interval in samples (R115). -/
def guardSamples (rate : Nat) : Nat := bdGuardUs * rate / 1000000

/-- `Span(a, b, rate, n)` (R115): start inclusive, end exclusive. -/
def span (a b rate n : Nat) : Nat × Nat :=
  (stftN * a - guardSamples rate, min n (stftN * (b + 1) + guardSamples rate))

/-- One collected region: its span and what `CfoCall` says of its slice (R117). -/
structure Examined where
  /-- first sample -/
  start : Nat
  /-- one past the last sample -/
  stop : Nat
  /-- the offset the estimator returned -/
  offset : Word
  /-- `found` -/
  found : Bool
  deriving DecidableEq, Repr

/-- Validate one collected region (R115, R117). -/
def examine (s : State) (skipBw : Bool) (region : Nat × Nat) : Examined :=
  let sp := span region.1 region.2 s.capRate.toNat s.capLen.toNat
  let call := cfoCall (s.samples .cap sp.1 sp.2) s.capRate skipBw
  ⟨sp.1, sp.2, call.1, call.2⟩

/-- The candidate an examined region gives: its own offset when found, `+0.0` with `FORCED` under the legacy rule,
none otherwise (R117). -/
def candidate (legacy : Bool) (e : Examined) : Option Cand :=
  if e.found then
    some ⟨BitVec.ofNat 32 e.start, BitVec.ofNat 32 e.stop, BitVec.ofNat 32 (e.stop - e.start), e.offset, true, false⟩
  else if legacy then
    some ⟨BitVec.ofNat 32 e.start, BitVec.ofNat 32 e.stop, BitVec.ofNat 32 (e.stop - e.start), 0#32, true, true⟩
  else none

/-- The regions `BDET` collects from the capture (R110, R114). -/
def bdetFound (ptype : PacketType) (legacy : Bool) (s : State) : List (Nat × Nat) :=
  collect s.capRate.toNat (durWindow ptype legacy).1 (durWindow ptype legacy).2
    (regions (bdMask (s.samples .cap 0 s.capLen.toNat)))

/-- The collected regions, validated, in order (R110). -/
def bdetExamined (ptype : PacketType) (legacy skipBw : Bool) (s : State) : List Examined :=
  (bdetFound ptype legacy s).map (examine s skipBw)

/-- The emitted candidates, in order (R110, R118). -/
def bdetOut (ptype : PacketType) (legacy skipBw : Bool) (s : State) : List Cand :=
  (bdetExamined ptype legacy skipBw s).filterMap (candidate legacy)

/-- The offset of the last `CfoCall`, or `+0.0` if there was none (R118). -/
def lastOffset (examined : List Examined) : Word :=
  match examined.getLast? with
  | some e => e.offset
  | none => 0#32

/-- Entry `i` of the candidate table for a list of candidates: zero from the list's end on (R110, R32). -/
def candEntry (out : List Cand) (i : Nat) : Cand := (out[i]?).getD Cand.zero

/-- The result code of `BDET` (R110): `NOBURST` before `OFFSET` before `OK`. -/
def bdetCode (found : List (Nat × Nat)) (out : List Cand) : ResultCode :=
  if found.length = 0 then .noburst else if out.length = 0 then .offset else .ok

/-- Store what a detection found: the two counts, the last offset, the candidate table (R110). -/
def storeCandidates (nfound : Nat) (lastoff : Word) (out : List Cand) (s : State) : State :=
  { s with
    bdNfound := BitVec.ofNat 2 nfound
    bdNcand := BitVec.ofNat 2 out.length
    bdLastoff := lastoff
    cand0 := candEntry out 0
    cand1 := candEntry out 1
    cand2 := candEntry out 2 }

/-- The body of `BDET` (R110). -/
def bdetBody (ptype : PacketType) (legacy skipBw : Bool) (s : State) : State :=
  (storeCandidates (bdetFound ptype legacy s).length (lastOffset (bdetExamined ptype legacy skipBw s))
    (bdetOut ptype legacy skipBw s) s).complete (bdetCode (bdetFound ptype legacy s) (bdetOut ptype legacy skipBw s))

/-- `BDET ptype [, legacy] [, skipbw]` (R110). -/
def execBdet (ptype : PacketType) (legacy skipBw : Bool) (s : State) : Host.Outcome State Fault Refusal :=
  .next (if bdetOutOfRange s then s.complete .range else bdetBody ptype legacy skipBw s)

end Sys2Proof.Machine
end

