-- ==== Sys2Proof/Machine/Control.lean ====
section
/-! DEFINITION. `NOP` and `CLR` (47_control.md R210, R211). -/

namespace Sys2Proof.Machine

/-- `NOP` (R210): complete with `OK`. -/
def execNop (s : State) : Host.Outcome State Fault Refusal := .next (s.complete .ok)

/-- The effect of `CLR` (R211): registers to their reset values, `OVR` cleared, buffers kept. -/
def clr (s : State) : State := s.clearRegisters.clearOvr.complete .ok

/-- `CLR` (R211). -/
def execClr (s : State) : Host.Outcome State Fault Refusal := .next (clr s)

end Sys2Proof.Machine
end

