-- ==== Sys2Proof/Machine/CrcFrame.lean ====
section
/-! DEFINITION. The CRC-16 frame validator, command `CRCC` (46_crc_frame.md R190 to R193). -/

namespace Sys2Proof.Machine

/-- One shift of the CRC register (R191). -/
def crcShift (crc : BitVec 16) : BitVec 16 :=
  if crc.getLsbD 0 then (crc >>> 1) ^^^ crcPolyReversed else crc >>> 1

/-- `k` shifts of the CRC register. -/
def crcShifts (crc : BitVec 16) : Nat → BitVec 16
  | 0 => crc
  | k + 1 => crcShifts (crcShift crc) k

/-- Take in one byte: xor into bits 7:0, then eight shifts (R191). -/
def crcByte (crc : BitVec 16) (b : Byte) : BitVec 16 := crcShifts (crc ^^^ b.zeroExtend 16) 8

/-- `Crc16(bytes)` (R191). -/
def crc16 (bytes : List Byte) : BitVec 16 := bytes.foldl crcByte crcInit

/-- The CRC recomputed over the payload `FRM[0..89)` (R190). -/
def crcOfPayload (s : State) : BitVec 16 := crc16 (s.bytes .frm 0 payloadLen)

/-- The embedded CRC, `FRM[89] + 256 × FRM[90]` (R190, 20_memory.md R63). -/
def crcEmbedded (s : State) : BitVec 16 := s.byte .frm 90 ++ s.byte .frm 89

/-- What `CheckCrc()` stores (R190): the two values and whether they are equal. -/
def storeCrc (sum rx : BitVec 16) (s : State) : State := { s with crcCalc := sum, crcRx := rx, crcValid := sum == rx }

/-- `CheckCrc()` (R190): the three CRC registers. Its verdict is `crcValid` of the result. -/
def checkCrc (s : State) : State := storeCrc (crcOfPayload s) (crcEmbedded s) s

/-- Complete with `OK` or `CRC` by the verdict in `CRC_STAT.VALID` (R190, 43_phase_decode.md R156). -/
def completeByCrc (s : State) : State := s.complete (if s.crcValid then .ok else .crc)

/-- `CRCC` (R190). -/
def execCrcc (s : State) : Host.Outcome State Fault Refusal :=
  .next (if crccOutOfRange s then s.complete .range else completeByCrc (checkCrc s))

end Sys2Proof.Machine
end

