-- ==== Sys2Proof/Machine/GoldDescramble.lean ====
section
/-! DEFINITION. The Gold descrambler, command `DSCR` (45_gold_descramble.md R180 to R183). The polynomials are
an argument of every operation here; the command passes the implementation's. -/

namespace Sys2Proof.Machine

/-- The feedback bit: the xor of the tapped stages (R181). -/
def goldFeedback (taps : List Nat) (r : BitVec 31) : Bool := taps.foldl (fun b t => b ^^ r.getLsbD t) false

/-- One shift: every stage moves down by one and the feedback, taken before the shift, enters stage 30 (R181). -/
def goldShift (taps : List Nat) (r : BitVec 31) : BitVec 31 :=
  BitVec.ofBool (goldFeedback taps r) ++ r.extractLsb' 1 30

/-- A register after `k` shifts. -/
def goldShifts (taps : List Nat) (r : BitVec 31) : Nat → BitVec 31
  | 0 => r
  | k + 1 => goldShifts taps (goldShift taps r) k

/-- The next `n` sequence bits of two registers: the xor of their stages 0 before each shift (R181). -/
def goldBits (poly : GoldPoly) (r1 r2 : BitVec 31) : Nat → List Bool
  | 0 => []
  | n + 1 => (r1.getLsbD 0 ^^ r2.getLsbD 0) :: goldBits poly (goldShift poly.taps1 r1) (goldShift poly.taps2 r2) n

/-- `Gold(seed31, n)` (R181): the first `Nc = 1600` outputs are dropped. -/
def gold (poly : GoldPoly) (seed31 : BitVec 31) (n : Nat) : List Bool :=
  goldBits poly (goldShifts poly.taps1 poly.fill1 goldNc) (goldShifts poly.taps2 seed31 goldNc) n

/-- `GOLD_SEED[30:0]`: seed bit `i` is stage `i` of the second register; bit 31 is not used (R182). -/
def seedOf (seed : Word) : BitVec 31 := seed.extractLsb' 0 31

/-- The descrambled stream (R180): the first sequence bit meets the first stream bit. -/
def descrambledBits (poly : GoldPoly) (s : State) : List Bool :=
  List.zipWith xor (s.bits .dem 0 s.demLen.toNat) (gold poly (seedOf s.goldSeed) s.demLen.toNat)

/-- What `Descramble()` stores (R180): the stream in `DSC`, its length in `DSC_LEN`. -/
def storeDsc (bits : List Bool) (s : State) : State := { s.putBits .dsc bits with dscLen := s.demLen }

/-- `Descramble()` (R180). -/
def descramble (poly : GoldPoly) (s : State) : State := storeDsc (descrambledBits poly s) s

/-- `DSCR` under two polynomials (R180). -/
def dscrWith (poly : GoldPoly) (s : State) : State :=
  if dscrOutOfRange s then s.complete .range else (descramble poly s).complete .ok

/-- `DSCR` (R180). -/
def execDscr (s : State) : Host.Outcome State Fault Refusal := .next (dscrWith implParams.poly s)

end Sys2Proof.Machine
end

