-- ==== Sys2Proof/Machine/RateDematch.lean ====
section
/-! DEFINITION. The rate de-matcher, command `RDM` (44_rate_dematch.md R170 to R174). The dummy predicate is an
argument of every operation here; the command passes the implementation's. -/

namespace Sys2Proof.Machine

/-- Whether a cell is real (R171). -/
def realCell (dummy : Nat → Nat → Nat → Bool) (len : Nat) (cell : Nat × Nat) : Bool := !dummy len cell.1 cell.2

/-- The real cells in the order the stream fills them: the `k`-th holds `RAW[k]` (R170). -/
def filledCells (dummy : Nat → Nat → Nat → Bool) (len : Nat) : List (Nat × Nat) :=
  (cellsByColumn (rdmRows len)).filter (realCell dummy len)

/-- The real cells in the order they are read back (R170). -/
def readCells (dummy : Nat → Nat → Nat → Bool) (len : Nat) : List (Nat × Nat) :=
  (cellsByRow (rdmRows len)).filter (realCell dummy len)

/-- Which stream element each output element is: `DEM[i] = RAW[perm[i]]` (R170, R173). -/
def dematchPerm (dummy : Nat → Nat → Nat → Bool) (len : Nat) : List Nat :=
  (readCells dummy len).map (fun cell => (filledCells dummy len).idxOf cell)

/-- The de-matched stream (R170). -/
def dematchedBits (dummy : Nat → Nat → Nat → Bool) (s : State) : List Bool :=
  (dematchPerm dummy s.rawLen.toNat).map (s.bit .raw)

/-- What `Dematch()` stores (R170): the stream in `DEM`, its length in `DEM_LEN`, and `PD_STAT.LENX`. -/
def storeDem (bits : List Bool) (s : State) : State :=
  { s.putBits .dem bits with demLen := s.rawLen, pdLenx := s.rawLen.toNat != sysLenExpected }

/-- `Dematch()` (R170). -/
def dematch (dummy : Nat → Nat → Nat → Bool) (s : State) : State := storeDem (dematchedBits dummy s) s

/-- `RDM` under a dummy placement (R170). -/
def rdmWith (dummy : Nat → Nat → Nat → Bool) (s : State) : State :=
  if rdmOutOfRange s then s.complete .range else (dematch dummy s).complete .ok

/-- `RDM` (R170). -/
def execRdm (s : State) : Host.Outcome State Fault Refusal := .next (rdmWith implParams.dummy s)

end Sys2Proof.Machine
end

