-- ==== Sys2Proof/Machine/PhaseDecode.lean ====
section
/-! DEFINITION. The phase decoder, commands `QMAP`, `PACK`, `PDAT`, `PDEC` (43_phase_decode.md R150 to R158). The
parameters are arguments of every operation here; the commands pass the implementation's. -/

namespace Sys2Proof.Machine

/-- The two bits of one point, first bit first: `v[1]`, `v[0]` of `QPSK_LUT[h][Quadrant(p)]` (R150). -/
def pointBits (lut : BitVec 2 → BitVec 2 → BitVec 2) (h : BitVec 2) (p : Sample) : List Bool :=
  [(lut h (quadrant p)).getLsbD 1, (lut h (quadrant p)).getLsbD 0]

/-- The raw bit stream (R150): the pairs of all points in symbol order. -/
def mappedBits (lut : BitVec 2 → BitVec 2 → BitVec 2) (h : BitVec 2) (s : State) : List Bool :=
  (s.samples .sym 0 s.symCount.toNat).flatMap (pointBits lut h)

/-- What `MapBits(h)` stores (R150): the stream in `RAW`, its length in `RAW_LEN`, and `PD_STAT.HYP`. -/
def storeRaw (bits : List Bool) (h : BitVec 2) (s : State) : State :=
  { s.putBits .raw bits with rawLen := BitVec.ofNat 32 (2 * s.symCount.toNat), pdHyp := h }

/-- `MapBits(h)` (R150). -/
def mapBits (lut : BitVec 2 → BitVec 2 → BitVec 2) (h : BitVec 2) (s : State) : State :=
  storeRaw (mappedBits lut h s) h s

/-- `QMAP h` under four tables (R150). -/
def qmapWith (lut : BitVec 2 → BitVec 2 → BitVec 2) (h : BitVec 2) (s : State) : State :=
  if symOutOfRange s then s.complete .range else (mapBits lut h s).complete .ok

/-- `QMAP h` (R150). -/
def execQmap (h : BitVec 2) (s : State) : Host.Outcome State Fault Refusal := .next (qmapWith implParams.lut h s)

/-- `PackByte` (R154): the earliest of eight bits is bit 7 of the byte. -/
def packByte (b0 b1 b2 b3 b4 b5 b6 b7 : Bool) : Byte :=
  BitVec.ofBool b0 ++ BitVec.ofBool b1 ++ BitVec.ofBool b2 ++ BitVec.ofBool b3 ++ BitVec.ofBool b4 ++ BitVec.ofBool b5
    ++ BitVec.ofBool b6 ++ BitVec.ofBool b7

/-- Pack a bit stream into bytes; the last `len mod 8` bits are lost (R153). -/
def packBits : List Bool → List Byte
  | b0 :: b1 :: b2 :: b3 :: b4 :: b5 :: b6 :: b7 :: rest => packByte b0 b1 b2 b3 b4 b5 b6 b7 :: packBits rest
  | _ => []

/-- Structural validity (R157): at least 91 packed bytes and `STRUCT_OK(FRM[0..91))`. -/
def frameOk (struct : List Byte → Bool) (s : State) : Bool :=
  decide (frameLen ≤ s.frmLen.toNat) && struct (s.bytes .frm 0 frameLen)

/-- What `PackBytes()` stores of a frame (R153): the CRC registers cleared, the bytes in `FRM`, `FRM_LEN`. -/
def storeFrm (bytes : List Byte) (s : State) : State :=
  { s.clearCrc.putBytes .frm bytes with frmLen := BitVec.ofNat 32 (s.dscLen.toNat / 8) }

/-- The part of `PackBytes()` that writes the frame (R153). -/
def packFrame (s : State) : State := storeFrm (packBits (s.bits .dsc 0 s.dscLen.toNat)) s

/-- Record the structural verdict in `PD_STAT.OK` (R153, R157). -/
def storeVerdict (ok : Bool) (s : State) : State := { s with pdOk := ok }

/-- `PackBytes()` (R153): the frame, and its structural verdict. -/
def packBytes (struct : List Byte → Bool) (s : State) : State :=
  storeVerdict (frameOk struct (packFrame s)) (packFrame s)

/-- Complete with `OK` or `PHASE` by the structural verdict in `PD_STAT.OK` (R153, R155). -/
def completeByFrame (s : State) : State := s.complete (if s.pdOk then .ok else .phase)

/-- `PACK` under a structural test (R153). -/
def packWith (struct : List Byte → Bool) (s : State) : State :=
  if packOutOfRange s then s.complete .range else completeByFrame (packBytes struct s)

/-- `PACK` (R153). -/
def execPack (s : State) : Host.Outcome State Fault Refusal := .next (packWith implParams.struct s)

/-- `Attempt(h)` (R155): steps 1 to 4 in band0's order, each reading what the one before has written. Its verdict is
`pdOk` of the result. -/
def attempt (p : DecoderParams) (h : BitVec 2) (s : State) : State :=
  packBytes p.struct (descramble p.poly (dematch p.dummy (mapBits p.lut h s)))

/-- Record the number of attempts in `PD_STAT.ATT` (R155, R156). -/
def storeAttempts (n : Nat) (s : State) : State := { s with pdAtt := BitVec.ofNat 3 n }

/-- The body of `PDAT` (R155). -/
def pdatBody (p : DecoderParams) (h : BitVec 2) (s : State) : State :=
  completeByFrame (storeAttempts 1 (attempt p h s))

/-- `PDAT h` under given parameters (R155). -/
def pdatWith (p : DecoderParams) (h : BitVec 2) (s : State) : State :=
  if symOutOfRange s then s.complete .range else pdatBody p h s

/-- `PDAT h` (R155). -/
def execPdat (h : BitVec 2) (s : State) : Host.Outcome State Fault Refusal := .next (pdatWith implParams h s)

/-- The ordered attempt loop (R156) over the hypotheses still to try, `att` attempts made: it leaves at the first
structurally valid frame, and `PD_STAT.ATT` counts the attempts. -/
def attemptLoop (p : DecoderParams) : List (BitVec 2) → Nat → State → State
  | [], att, s => storeAttempts att s
  | h :: hs, att, s =>
    if (attempt p h s).pdOk then storeAttempts (att + 1) (attempt p h s)
    else attemptLoop p hs (att + 1) (attempt p h s)

/-- The `N_HYP` hypotheses in the order `PDEC` tries them (R156). -/
def hypotheses : List (BitVec 2) := [0#2, 1#2, 2#2, 3#2]

/-- The body of `PDEC` (R156): the loop, then `PHASE`, or the CRC check and `OK` or `CRC`. -/
def pdecBody (p : DecoderParams) (s : State) : State :=
  let t := attemptLoop p hypotheses 0 s
  if t.pdOk then completeByCrc (checkCrc t) else t.complete .phase

/-- `PDEC` under given parameters (R156). -/
def pdecWith (p : DecoderParams) (s : State) : State :=
  if symOutOfRange s then s.complete .range else pdecBody p s

/-- `PDEC` (R156). -/
def execPdec (s : State) : Host.Outcome State Fault Refusal := .next (pdecWith implParams s)

end Sys2Proof.Machine
end

