-- ==== Sys2Proof/Machine/SymbolExtract.lean ====
section
/-! DEFINITION. The symbol extractor, command `SXTR` (42_symbol_extract.md R140 to R143). -/

namespace Sys2Proof.Machine

/-- Number of points of a SymbolFrame: the sum of its groups' lengths (R140). -/
def pointCount (groups : List (List Sample)) : Nat := (groups.map List.length).sum

/-- Whether a result fits `GLEN` and `SYM` (R140). -/
def symbolsFit (groups : List (List Sample)) : Bool :=
  decide (groups.length ≤ Config.maxGroups) && decide (pointCount groups ≤ Config.symDepth)

/-- Store the counts of groups and of points (R140). -/
def storeCounts (groups points : Nat) (s : State) : State :=
  { s with sxNgrp := BitVec.ofNat 32 groups, symCount := BitVec.ofNat 32 points }

/-- Store a SymbolFrame (R140, R143): group lengths in `GLEN`, all points in group order in `SYM`, the two counts. -/
def storeSymbols (groups : List (List Sample)) (s : State) : State :=
  storeCounts groups.length (pointCount groups)
    ((s.putWords .glen (groups.map (fun g => BitVec.ofNat 32 g.length))).putWords .sym (sampleWords groups.flatten))

/-- What `SXTR` leaves when the demodulator fails or its result does not fit: both counts zero (R140). -/
def symbolsFailed (s : State) : State := storeCounts 0 0 s

/-- The body of `SXTR` (R140). -/
def sxtrBody (skipZc : Bool) (s : State) : State :=
  match sxDemod (s.samples .bur 0 s.burLen.toNat) skipZc with
  | some groups =>
    if symbolsFit groups then (storeSymbols groups s).complete .ok else (symbolsFailed s).complete .symx
  | none => (symbolsFailed s).complete .symx

/-- `SXTR [skipzc]` (R140). -/
def execSxtr (skipZc : Bool) (s : State) : Host.Outcome State Fault Refusal :=
  .next (if sxtrOutOfRange s then s.complete .range else sxtrBody skipZc s)

end Sys2Proof.Machine
end

