-- ==== Sys2Proof/Machine/Dispatch.lean ====
section
/-! DEFINITION. What each command does to the state it is accepted in (30_encoding.md R96): one arm per command. -/

namespace Sys2Proof.Machine

def exec (i : Instr) (s : State) : Host.Outcome State Fault Refusal :=
  match i with
  | .nop => Sys2Proof.Machine.execNop s
  | .clr => Sys2Proof.Machine.execClr s
  | .bdet ptype legacy skipBw => Sys2Proof.Machine.execBdet ptype legacy skipBw s
  | .cfoe skipBw => Sys2Proof.Machine.execCfoe skipBw s
  | .sxtr skipZc => Sys2Proof.Machine.execSxtr skipZc s
  | .qmap h => Sys2Proof.Machine.execQmap h s
  | .rdm => Sys2Proof.Machine.execRdm s
  | .dscr => Sys2Proof.Machine.execDscr s
  | .pack => Sys2Proof.Machine.execPack s
  | .pdat h => Sys2Proof.Machine.execPdat h s
  | .pdec => Sys2Proof.Machine.execPdec s
  | .crcc => Sys2Proof.Machine.execCrcc s

end Sys2Proof.Machine
end

