-- ==== Sys2Proof/Machine/Registers.lean ====
section
/-! DEFINITION. The register window (10_state.md R23 to R40): offsets, what a read returns, what a write stores. -/

namespace Sys2Proof.Machine

/-- The words of a candidate-table entry (R32). -/
inductive CandWord where
  | start | stop | dur | offset | flags
  deriving DecidableEq, Repr

/-- The registers of R40. -/
inductive Reg where
  | cmd | status | ctrl | capLen | capRate | capFreqLo | capFreqHi | capTsLo | capTsHi
  | bdNfound | bdNcand | bdLastoff | cfoStart | cfoEnd | cfoOffset | cfoStat
  | cand0 (f : CandWord) | cand1 (f : CandWord) | cand2 (f : CandWord)
  | burLen | sxNgrp | symCount | goldSeed | rawLen | demLen | dscLen | frmLen | pdStat | crcCalc | crcRx | crcStat
  deriving DecidableEq, Repr

/-- Byte offset in a candidate-table entry (R32). -/
def CandWord.byteOffset : CandWord → Nat
  | .start => 0x00
  | .stop => 0x04
  | .dur => 0x08
  | .offset => 0x0C
  | .flags => 0x10

/-- Byte offset in the register window (R40). -/
def Reg.offset : Reg → Nat
  | .cmd => 0x000
  | .status => 0x004
  | .ctrl => 0x008
  | .capLen => 0x00C
  | .capRate => 0x010
  | .capFreqLo => 0x014
  | .capFreqHi => 0x018
  | .capTsLo => 0x01C
  | .capTsHi => 0x020
  | .bdNfound => 0x024
  | .bdNcand => 0x028
  | .bdLastoff => 0x02C
  | .cfoStart => 0x030
  | .cfoEnd => 0x034
  | .cfoOffset => 0x038
  | .cfoStat => 0x03C
  | .cand0 f => 0x040 + f.byteOffset
  | .cand1 f => 0x060 + f.byteOffset
  | .cand2 f => 0x080 + f.byteOffset
  | .burLen => 0x0A0
  | .sxNgrp => 0x0A4
  | .symCount => 0x0A8
  | .goldSeed => 0x0AC
  | .rawLen => 0x0B0
  | .demLen => 0x0B4
  | .dscLen => 0x0B8
  | .frmLen => 0x0BC
  | .pdStat => 0x0C0
  | .crcCalc => 0x0C4
  | .crcRx => 0x0C8
  | .crcStat => 0x0CC

/-- The words of one candidate-table entry. -/
def candWords : List CandWord := [.start, .stop, .dur, .offset, .flags]

/-- Every register, in offset order. -/
def allRegs : List Reg :=
  [.cmd, .status, .ctrl, .capLen, .capRate, .capFreqLo, .capFreqHi, .capTsLo, .capTsHi, .bdNfound, .bdNcand,
   .bdLastoff, .cfoStart, .cfoEnd, .cfoOffset, .cfoStat] ++ candWords.map .cand0 ++ candWords.map .cand1
  ++ candWords.map .cand2 ++ [.burLen, .sxNgrp, .symCount, .goldSeed, .rawLen, .demLen, .dscLen, .frmLen, .pdStat,
   .crcCalc, .crcRx, .crcStat]

/-- The register at an offset; none for the reserved offsets (R39). -/
def regAt (off : Nat) : Option Reg := allRegs.find? (fun r => r.offset == off)

/-- A word of a candidate-table entry (R32). -/
def Cand.word (c : Cand) : CandWord → Word
  | .start => c.start
  | .stop => c.stop
  | .dur => c.dur
  | .offset => c.offset
  | .flags => c.flagsWord

/-- The stored word of a register (R23 to R38). -/
def State.reg (s : State) : Reg → Word
  | .cmd => s.cmd
  | .status => statusWord s
  | .ctrl => ctrlWord s
  | .capLen => s.capLen
  | .capRate => s.capRate
  | .capFreqLo => s.capFreqLo
  | .capFreqHi => s.capFreqHi
  | .capTsLo => s.capTsLo
  | .capTsHi => s.capTsHi
  | .bdNfound => s.bdNfound.zeroExtend 32
  | .bdNcand => s.bdNcand.zeroExtend 32
  | .bdLastoff => s.bdLastoff
  | .cfoStart => s.cfoStart
  | .cfoEnd => s.cfoEnd
  | .cfoOffset => s.cfoOffset
  | .cfoStat => cfoStatWord s
  | .cand0 f => s.cand0.word f
  | .cand1 f => s.cand1.word f
  | .cand2 f => s.cand2.word f
  | .burLen => s.burLen
  | .sxNgrp => s.sxNgrp
  | .symCount => s.symCount
  | .goldSeed => s.goldSeed
  | .rawLen => s.rawLen
  | .demLen => s.demLen
  | .dscLen => s.dscLen
  | .frmLen => s.frmLen
  | .pdStat => pdStatWord s
  | .crcCalc => s.crcCalc.zeroExtend 32
  | .crcRx => s.crcRx.zeroExtend 32
  | .crcStat => crcStatWord s

/-- `RegRead(off)` of an idle block: "An offset with no register reads 0" (20_memory.md R61). -/
def State.regRead (s : State) (off : Nat) : Word :=
  match regAt off with
  | some r => s.reg r
  | none => 0#32

/-- A host write to a register of an idle block, other than `CMD` and `STATUS`: an RW register stores the word less its
reserved bits, a read-only one ignores it (R50). No value is checked at the write. -/
def State.storeReg (s : State) (r : Reg) (v : Word) : State :=
  match r with
  | .ctrl => { s with ie := v.getLsbD 0 }
  | .capLen => { s with capLen := v }
  | .capRate => { s with capRate := v }
  | .capFreqLo => { s with capFreqLo := v }
  | .capFreqHi => { s with capFreqHi := v }
  | .capTsLo => { s with capTsLo := v }
  | .capTsHi => { s with capTsHi := v }
  | .cfoStart => { s with cfoStart := v }
  | .cfoEnd => { s with cfoEnd := v }
  | .burLen => { s with burLen := v }
  | .sxNgrp => { s with sxNgrp := v }
  | .symCount => { s with symCount := v }
  | .goldSeed => { s with goldSeed := v }
  | .rawLen => { s with rawLen := v }
  | .demLen => { s with demLen := v }
  | .dscLen => { s with dscLen := v }
  | .frmLen => { s with frmLen := v }
  | .cmd => s
  | .status => s
  | .bdNfound => s
  | .bdNcand => s
  | .bdLastoff => s
  | .cfoOffset => s
  | .cfoStat => s
  | .cand0 _ => s
  | .cand1 _ => s
  | .cand2 _ => s
  | .pdStat => s
  | .crcCalc => s
  | .crcRx => s
  | .crcStat => s

/-- A host write to a register of an idle block: `CMD` accepts a command (R23), `STATUS` clears flags (R24). -/
def State.writeReg (s : State) (r : Reg) (v : Word) : State :=
  match r with
  | .cmd => s.accept v
  | .status => s.writeStatus v
  | r => s.storeReg r v

/-- `RegWrite(off, v)` of an idle block: an offset with no register ignores writes (R39, 20_memory.md R61). -/
def State.regWrite (s : State) (off : Nat) (v : Word) : State :=
  match regAt off with
  | some r => s.writeReg r v
  | none => s

end Sys2Proof.Machine
end

