-- ==== Sys2Proof/Machine/HostPort.lean ====
section
/-! DEFINITION. The host port: what each host action does, idle and busy (70_reset_and_hazards.md R263; 20_memory.md
R61, R62, R64, R66, R73). -/

namespace Sys2Proof.Machine

/-- Where a bus address leads (20_memory.md R66). -/
inductive Target where
  | register (off : Nat)
  | word (sp : Space) (w : Nat)
  deriving DecidableEq, Repr

/-- Whether a bus address lies in a window (R66). -/
def inWindow (addr : Nat) (x : Window) : Bool :=
  decide (windowBase x ≤ addr) && decide (addr < windowBase x + windowBytes x)

/-- The register or buffer word at a bus address (R66), none outside the nine windows. -/
def busTarget (addr : Nat) : Option Target :=
  (windows.find? (inWindow addr)).map fun x =>
    match x with
    | .registers => .register (addr - windowBase .registers)
    | .buffer sp => .word sp ((addr - windowBase (.buffer sp)) / 4)

/-- `RegRead(off)` by the host (R61, R73): `STATUS` always answers; any other register answers a free word while
`BUSY = 1`. -/
def hostRegRead (off : Nat) (s : State) : State :=
  if off = Reg.status.offset then s.respond (statusWord s)
  else if s.busy then s.respondFree
  else s.respond (s.regRead off)

/-- `RegWrite(off, v)` by the host (R61, R73): a `STATUS` write is honoured always; any other write while `BUSY = 1` is
dropped and sets `OVR`. -/
def hostRegWrite (off : Nat) (v : Word) (s : State) : State :=
  if off = Reg.status.offset then s.writeStatus v
  else if s.busy then s.dropWrite
  else s.regWrite off v

/-- `BufRead(sp, w)` by the host (R62, R73). -/
def hostBufRead (sp : Space) (w : Nat) (s : State) : State :=
  if s.busy then s.respondFree else s.respond (s.word sp w)

/-- `BufWrite(sp, w, v)` by the host (R62, R73; log 5). -/
def hostBufWrite (sp : Space) (w : Nat) (v : Word) (s : State) : State :=
  if s.busy then s.dropWrite else s.putWord sp w v

/-- `MemRead(addr, 4)` (R66). Outside the nine windows it "does not reach OQX": the word is free (log 6). -/
def hostMemRead (addr : Nat) (s : State) : State :=
  match busTarget addr with
  | some (.register off) => hostRegRead off s
  | some (.word sp w) => hostBufRead sp w s
  | none => s.respondOutside

/-- `MemWrite(addr, 4, v)` (R66). Outside the nine windows it "does not reach OQX": nothing happens (log 6). -/
def hostMemWrite (addr : Nat) (v : Word) (s : State) : State :=
  match busTarget addr with
  | some (.register off) => hostRegWrite off v s
  | some (.word sp w) => hostBufWrite sp w v s
  | none => s

/-- One poll of `WAIT` (30_encoding.md R99): read `STATUS`; the wait is over when `DONE = 1` and `BUSY = 0`, and is
tried again otherwise (log 17). -/
def hostWait (s : State) : State :=
  if s.done && !s.busy then s.respond (statusWord s)
  else { s with busData := statusWord s, host := HostAction.wait :: s.host }

/-- The effect of a host action the interface gives a meaning (R263). -/
def hostEffect (a : HostAction) (s : State) : State :=
  match a with
  | .regRead off => hostRegRead off s
  | .regWrite off v => hostRegWrite off v s
  | .bufRead sp w => hostBufRead sp w s
  | .bufWrite sp w v => hostBufWrite sp w v s
  | .memRead addr _ => hostMemRead addr s
  | .memWrite addr _ v => hostMemWrite addr v s
  | .wait => hostWait s
  | .reset => s.assertReset

/-- A host action: refused where it is not an aligned 32-bit access (20_memory.md R64, 93 U2; log 7). -/
def hostAct (a : HostAction) (s : State) : Host.Outcome State Fault Refusal :=
  if a.wellFormed then .next (hostEffect a s) else .refused .notAWordAccess

/-- The state as a host action finds it: the action is taken from the pending ones, and the command in flight, if any,
is one action nearer its completion (log 2). -/
def State.takeAction (s : State) (rest : List HostAction) : State := { s with host := rest, delay := s.delay - 1 }

/-- Whether the block moves next: a command is in flight and its time is over, or the host has nothing more to do
(30_encoding.md R96, 93 U5; log 2). -/
def State.blockTurn (s : State) : Bool := s.busy && (s.host.isEmpty || s.delay == 0)

/-- The host action that issues a command. -/
def issue (i : Instr) : HostAction := .regWrite Reg.cmd.offset (encode i)

/-- The pseudo-command `PDSEQ h` (30_encoding.md R99). -/
def pdseq (h : BitVec 2) : List HostAction :=
  [issue (.qmap h), .wait, issue .rdm, .wait, issue .dscr, .wait, issue .pack, .wait]

end Sys2Proof.Machine
end

