-- ==== Sys2Proof/Machine/Step.lean ====
section
/-! DEFINITION. One step of the machine: the completion of the command in flight, or one host action
(70_reset_and_hazards.md R263, 30_encoding.md R96; log 1, log 2). -/

namespace Sys2Proof.Machine

/-- The block completes the command in `CMD`; a word that selects none completes with `ILLCMD` (30_encoding.md R94). -/
def blockStep (s : State) : Host.Outcome State Fault Refusal :=
  match decode s.cmd with
  | .ok i => exec i s
  | .error _ => .next (s.complete .illcmd)

/-- The host's next action; with none left an idle block holds its state (60_exceptions.md R230; log 18). -/
def hostStep (s : State) : Host.Outcome State Fault Refusal :=
  match s.host with
  | [] => .next s
  | a :: rest => hostAct a (s.takeAction rest)

/-- One step. -/
def step (s : State) : Host.Outcome State Fault Refusal :=
  if s.blockTurn then blockStep s else hostStep s

/-- The state in which the next step runs the command word whose `nbits` bits are `w`: it stands in `CMD`, accepted
and in flight, its time over (log 1). -/
def State.withFetchWord (s : State) (nbits w : Nat) : State :=
  { s with cmd := BitVec.ofNat 32 (w % 2 ^ nbits), busy := true, done := false, delay := 0 }

end Sys2Proof.Machine
end

