-- ==== Sys2Proof/Machine/FrameLayout.lean ====
section
/-! DEFINITION. The RawFrame's payload fields (46_crc_frame.md R193, R196). The block computes on none of them but
`crc`; "The layout is given so that a host-side model can state claims about decoded frames" (R196). -/

namespace Sys2Proof.Machine

/-- The fields of the table of R196, in its order. -/
inductive FrameField where
  | pktLen | unk | version | sequenceNumber | stateInfo | serialNumber | longitude | latitude | altitude | height
  | vNorth | vEast | vUp | d1Angle | gpsTime | appLat | appLon | longitudeHome | latitudeHome | deviceType | uuidLen
  | uuid | crc
  deriving DecidableEq, Repr

/-- Width in bytes (R196). -/
def FrameField.width : FrameField → Nat
  | .pktLen => 1
  | .unk => 1
  | .version => 1
  | .sequenceNumber => 2
  | .stateInfo => 2
  | .serialNumber => 16
  | .longitude => 4
  | .latitude => 4
  | .altitude => 2
  | .height => 2
  | .vNorth => 2
  | .vEast => 2
  | .vUp => 2
  | .d1Angle => 2
  | .gpsTime => 8
  | .appLat => 4
  | .appLon => 4
  | .longitudeHome => 4
  | .latitudeHome => 4
  | .deviceType => 1
  | .uuidLen => 1
  | .uuid => 20
  | .crc => 2

/-- Byte offset in the RawFrame (R196). -/
def FrameField.offset : FrameField → Nat
  | .pktLen => 0
  | .unk => 1
  | .version => 2
  | .sequenceNumber => 3
  | .stateInfo => 5
  | .serialNumber => 7
  | .longitude => 23
  | .latitude => 27
  | .altitude => 31
  | .height => 33
  | .vNorth => 35
  | .vEast => 37
  | .vUp => 39
  | .d1Angle => 41
  | .gpsTime => 43
  | .appLat => 51
  | .appLon => 55
  | .longitudeHome => 59
  | .latitudeHome => 63
  | .deviceType => 67
  | .uuidLen => 68
  | .uuid => 69
  | .crc => 89

/-- Whether the table gives the field a signed type (R196). -/
def FrameField.signed : FrameField → Bool
  | .longitude => true
  | .latitude => true
  | .altitude => true
  | .height => true
  | .vNorth => true
  | .vEast => true
  | .vUp => true
  | .d1Angle => true
  | .appLat => true
  | .appLon => true
  | .longitudeHome => true
  | .latitudeHome => true
  | .pktLen => false
  | .unk => false
  | .version => false
  | .sequenceNumber => false
  | .stateInfo => false
  | .serialNumber => false
  | .gpsTime => false
  | .deviceType => false
  | .uuidLen => false
  | .uuid => false
  | .crc => false

/-- The fields in the table's order. -/
def frameFields : List FrameField :=
  [.pktLen, .unk, .version, .sequenceNumber, .stateInfo, .serialNumber, .longitude, .latitude, .altitude, .height,
   .vNorth, .vEast, .vUp, .d1Angle, .gpsTime, .appLat, .appLon, .longitudeHome, .latitudeHome, .deviceType, .uuidLen,
   .uuid, .crc]

/-- The value of `n` bytes, the first the least significant (R196, 20_memory.md R63). -/
def littleEndian : List Byte → Nat
  | [] => 0
  | b :: bs => b.toNat + 256 * littleEndian bs

/-- The bytes of a field of a frame. -/
def FrameField.bytes (frame : List Byte) (f : FrameField) : List Byte := (frame.drop f.offset).take f.width

/-- The integer in a field, two's complement where the field is signed (R196). -/
def FrameField.value (frame : List Byte) (f : FrameField) : Int :=
  let v := littleEndian (f.bytes frame)
  if f.signed && decide (2 ^ (8 * f.width - 1) ≤ v) then (v : Int) - 2 ^ (8 * f.width) else v

end Sys2Proof.Machine
end

