-- ==== Sys2Proof/Safety.lean ====
section
/-! DEFINITION. The terms claims are stated in: what an operation leaves unchanged, the end of a run, the state
invariant, and a safe run. -/

namespace Sys2Proof.Machine

/-- Every register not listed reads as before. -/
def KeepsRegs (changed : List Reg) (s t : State) : Prop := ∀ r, r ∉ changed → t.reg r = s.reg r

/-- Every byte of every space not listed reads as before. -/
def KeepsBytes (changed : List Space) (s t : State) : Prop := ∀ sp a, sp ∉ changed → t.byte sp a = s.byte sp a

/-- The model's own fields are as before. -/
def KeepsPort (s t : State) : Prop :=
  t.host = s.host ∧ t.busData = s.busData ∧ t.delay = s.delay ∧ t.draws = s.draws ∧ t.resets = s.resets

/-- A command has completed with a code (30_encoding.md R96): `RES`, `BUSY`, `DONE`; `OVR` as before. -/
def CompletedWith (code : ResultCode) (s t : State) : Prop :=
  t.res = code ∧ t.busy = false ∧ t.done = true ∧ t.ovr = s.ovr

/-- What every command but `CLR` does beside its results: it completes with a code, and changes no register but
`STATUS` and those listed, no byte outside the spaces listed, and none of the model's own fields. -/
def CompletesKeeping (code : ResultCode) (regs : List Reg) (spaces : List Space) (s t : State) : Prop :=
  CompletedWith code s t ∧ KeepsRegs (.status :: regs) s t ∧ KeepsBytes spaces s t ∧ KeepsPort s t

/-- `t` holds a SymbolFrame in place of what `s` held (10_state.md R44): the counts, each group's length in `GLEN`, all
points in group order in `SYM`; every byte of `GLEN` and `SYM` beyond them reads as before. -/
def HoldsSymbols (groups : List (List Sample)) (s t : State) : Prop :=
  t.sxNgrp.toNat = groups.length ∧ t.symCount.toNat = groups.flatten.length ∧
  (∀ g points, groups[g]? = some points → t.groupLen g = points.length) ∧
  (∀ k p, groups.flatten[k]? = some p → t.sample .sym k = p) ∧
  (∀ a, 4 * groups.length ≤ a → t.byte .glen a = s.byte .glen a) ∧
  (∀ a, 8 * groups.flatten.length ≤ a → t.byte .sym a = s.byte .sym a)

/-- The end of a run (70_reset_and_hazards.md R264): no host action left and no command in flight. -/
def State.ended (s : State) : Bool := s.host.isEmpty && !s.busy

/-- A run of `n` steps that meets no fault and no refusal. -/
def SafeRun (n : Nat) (s : State) : Prop := ∃ t, Sys2Proof.core.run n s = .next t

/-- An emitted candidate-table entry (10_state.md R32, 40_burst_detect.md R115, R117): valid, not empty, `DUR` its
length, and offset `+0.0` where forced. -/
def Cand.emitted (c : Cand) : Prop :=
  c.valid = true ∧ c.start.toNat < c.stop.toNat ∧ c.dur.toNat = c.stop.toNat - c.start.toNat
    ∧ (c.forced = true → c.offset = 0#32)

/-- Entry `i` of the candidate table. -/
def State.cand (s : State) (i : Nat) : Cand :=
  if i = 0 then s.cand0 else if i = 1 then s.cand1 else s.cand2

/-- The state invariant every step keeps: the memories are canonical, and the read-only registers hold what only the
commands can have left in them. -/
structure Inv (s : State) : Prop where
  /-- every space's contents are in canonical form -/
  memories : ∀ sp, Memory.wf sp (s.mem sp)
  /-- `DONE` is clear while a command runs (10_state.md R24) -/
  handshake : s.busy = true → s.done = false
  /-- at most as many candidates as regions (R29) -/
  counts : s.bdNcand.toNat ≤ s.bdNfound.toNat
  /-- entries below `BD_NCAND` are emitted candidates (R32) -/
  entries : ∀ i, i < s.bdNcand.toNat → (s.cand i).emitted
  /-- the other entries are zero (R32) -/
  blanks : ∀ i, s.bdNcand.toNat ≤ i → i < 3 → s.cand i = Cand.zero
  /-- no offset without `COMPUTABLE` (41_cfo_estimate.md R131, R132) -/
  cfo : s.cfoComputable = false → s.cfoOffset = 0#32
  /-- `CRC_STAT.VALID` only where the two CRC registers agree (R38) -/
  crc : s.crcValid = true → s.crcCalc = s.crcRx
  /-- at most four attempts (R37) -/
  attempts : s.pdAtt.toNat ≤ 4

end Sys2Proof.Machine
end

