-- ==== Sys2Proof/Certificates/Slice0/Obligations.lean ====
section
/-! DEFINITION. The statements for the provers, spread over the command families and the kinds of state. -/

open Sys2Proof Sys2Proof.Machine

/-! ### Constants -/

/-- R7: the constants the spec fixes; the CRC step's constant is the low 16 coefficients of `CRC_POLY`, reversed. -/
def Obligations.ConstantsAreTheSpecs : Prop :=
  stftN = 64 ∧ bdThresh = 115 / 100 ∧ bdGuardUs = 45 ∧ bdMaxCand = 3 ∧
  durWindow .droneid false = (630, 665) ∧ durWindow .droneid true = (565, 600) ∧ durWindow .c2 false = (500, 520) ∧
  durWindow .beacon false = (490, 540) ∧ durWindow .video false = (630, 665) ∧
  canonRate = 15360000 ∧ nHyp = 4 ∧ hypotheses.map BitVec.toNat = List.range nHyp ∧ rdmCols = 32 ∧
  sysLenExpected = 1412 ∧ goldNc = 1600 ∧ goldSeedReset = 0x12345678#32 ∧ payloadLen = 89 ∧ frameLen = 91 ∧
  crcPoly = 0x11021#17 ∧ crcInit = 0x3692#16 ∧ (∀ i, i < 16 → crcPolyReversed.getLsbD i = crcPoly.getLsbD (15 - i))

/-! ### Encoding and decoding -/

/-- 30_encoding.md R98's example words and legal words of 95 V48 decode to the commands they stand for. -/
def Obligations.ExampleWordsDecode : Prop :=
  decode 0x00000010#32 = .ok (.bdet .droneid false false) ∧
  decode 0x00000410#32 = .ok (.bdet .droneid true false) ∧
  decode 0x00000B10#32 = .ok (.bdet .video false true) ∧
  decode 0x00000811#32 = .ok (.cfoe true) ∧
  decode 0x00001020#32 = .ok (.sxtr true) ∧
  decode 0x00000230#32 = .ok (.qmap 2#2) ∧
  decode 0x00000334#32 = .ok (.pdat 3#2) ∧
  decode 0x00000F10#32 = .ok (.bdet .video true true)

/-- Decoding the encoding of a command gives the command back, for every command and every operand value (R91, R98). -/
def Obligations.DecodeInvertsEncode : Prop :=
  ∀ i : Instr, i.wellFormed = true → decode (encode i) = .ok i

/-- A word that decodes is the encoding of what it decodes to: no bit of a legal word is dropped (R91, R94). -/
def Obligations.EncodeInvertsDecode : Prop :=
  ∀ (w : Word) (i : Instr), decode w = .ok i → encode i = w

/-- R93: the rows are the table's; a word decodes to a command of a row exactly when it selects the row (`w & mask =
match`), and it selects at most one row. -/
def Obligations.DecodeFollowsOpcodeTable : Prop :=
  opcodeRows.map (fun r => (r.mnemonic, r.pattern, r.mask)) =
    [("NOP", 0x00000000#32, 0xFFFFFFFF#32), ("CLR", 0x00000001#32, 0xFFFFFFFF#32),
     ("BDET", 0x00000010#32, 0xFFFFF0FF#32), ("CFOE", 0x00000011#32, 0xFFFFF7FF#32),
     ("SXTR", 0x00000020#32, 0xFFFFEFFF#32), ("QMAP", 0x00000030#32, 0xFFFFFCFF#32),
     ("RDM", 0x00000031#32, 0xFFFFFFFF#32), ("DSCR", 0x00000032#32, 0xFFFFFFFF#32),
     ("PACK", 0x00000033#32, 0xFFFFFFFF#32), ("PDAT", 0x00000034#32, 0xFFFFFCFF#32),
     ("PDEC", 0x00000035#32, 0xFFFFFFFF#32), ("CRCC", 0x00000040#32, 0xFFFFFFFF#32)] ∧
  (∀ (r : OpcodeRow) (w : Word), r.selects w = true ↔ w &&& r.mask = r.pattern) ∧
  (∀ (w : Word) (i : Instr), decode w = .ok i → opcodeRow i ∈ opcodeRows ∧ (opcodeRow i).selects w = true) ∧
  (∀ (w : Word) (r : OpcodeRow), r ∈ opcodeRows → r.selects w = true → ∃ i, decode w = .ok i ∧ opcodeRow i = r) ∧
  (∀ (w : Word) (r q : OpcodeRow), r ∈ opcodeRows → q ∈ opcodeRows → r.selects w = true → q.selects w = true → r = q)

/-! ### Acceptance, completion, the step -/

/-- When it is the block's turn and `CMD` holds a word that decodes, the step is that command's `exec` (R96). When it
is the block's turn (`delay = 0`, or no host action left) is the model's choice (log 2), and so is `withFetchWord`, the
model's way of placing a command (log 1). -/
def Obligations.StepRunsDecodedCommand : Prop :=
  (∀ (s : State) (i : Instr), s.busy = true → (s.delay = 0 ∨ s.host = []) → decode s.cmd = .ok i →
    step s = exec i s) ∧
  (∀ (s : State) (i : Instr),
    step (s.withFetchWord 32 (encode i).toNat) = exec i (s.withFetchWord 32 (encode i).toNat))

/-- A `CMD` write to an idle block accepts the word (R96): `CMD` holds it, `BUSY` rises, `DONE` falls, and nothing else
of OQX changes. -/
def Obligations.IdleCmdWriteIsAccepted : Prop :=
  ∀ (s : State) (w : Word) (rest : List HostAction), s.busy = false → s.host = .regWrite 0 w :: rest →
    ∃ t, step s = .next t ∧ t.cmd = w ∧ t.busy = true ∧ t.done = false ∧ t.ovr = s.ovr ∧ t.res = s.res ∧
      t.host = rest ∧ KeepsRegs [.cmd, .status] s t ∧ KeepsBytes [] s t

/-- R94: a word that matches no row of R93 does not decode; written to an idle block it is accepted and completes with
`ILLCMD` in the very next step, before any further host action, and only `CMD` and `STATUS` change. -/
def Obligations.IllegalWordCompletesIllcmd : Prop :=
  ∀ (s : State) (w : Word) (rest : List HostAction), s.busy = false → s.host = .regWrite 0 w :: rest →
    (∀ r ∈ opcodeRows, r.selects w = false) →
    ∃ t u, step s = .next t ∧ t.cmd = w ∧ t.busy = true ∧ t.done = false ∧ step t = .next u ∧ u.cmd = w ∧
      u.host = rest ∧ CompletedWith .illcmd s u ∧ KeepsRegs [.cmd, .status] s u ∧ KeepsBytes [] s u

/-- Every command in flight completes within its delay: as long as the host makes no access outside the interface and
does not assert reset, a state with `BUSY = 0` and `DONE = 1` is reached in at most `delay + 1` steps (R96, R262; the
delay is the model's, log 2). -/
def Obligations.CommandInFlightCompletes : Prop :=
  ∀ s : State, s.busy = true → (∀ a ∈ s.host, a.wellFormed = true ∧ a ≠ .reset) →
    ∃ n t, n ≤ s.delay + 1 ∧ Sys2Proof.core.run n s = .next t ∧ t.busy = false ∧ t.done = true

/-- No command traps or stops (60_exceptions.md R220): every command, from every state, completes; it leaves `CMD` and
the model's own fields alone, and `OVR` is unchanged but for `CLR`. -/
def Obligations.EveryCommandCompletes : Prop :=
  ∀ (i : Instr) (s : State), ∃ t, exec i s = .next t ∧ t.busy = false ∧ t.done = true ∧ t.cmd = s.cmd ∧
    t.ovr = (if i = .clr then false else s.ovr) ∧ KeepsPort s t

/-- R97's range checks: a command ends with `RANGE` exactly when a length or index register it reads is out of its
legal range, and then nothing but `STATUS` changes. `NOP` and `CLR` read none. -/
def Obligations.RangeExactlyWhenOutOfRange : Prop :=
  ∀ (i : Instr) (s : State), ∃ t, exec i s = .next t ∧
    (t.res = .range ↔
      (match i with
        | .nop => False
        | .clr => False
        | .bdet _ _ _ => Config.capDepth < s.capLen.toNat ∨ s.capRate = 0#32
        | .cfoe _ => Config.capDepth < s.capLen.toNat ∨ s.capRate = 0#32 ∨ s.cfoEnd.toNat < s.cfoStart.toNat ∨
            s.capLen.toNat < s.cfoEnd.toNat
        | .sxtr _ => Config.burDepth < s.burLen.toNat
        | .qmap _ => Config.symDepth < s.symCount.toNat
        | .rdm => 2 * Config.symDepth < s.rawLen.toNat
        | .dscr => 2 * Config.symDepth < s.demLen.toNat
        | .pack => 2 * Config.symDepth < s.dscLen.toNat
        | .pdat _ => Config.symDepth < s.symCount.toNat
        | .pdec => Config.symDepth < s.symCount.toNat
        | .crcc => s.frmLen.toNat < 91 ∨ 2 * Config.symDepth / 8 < s.frmLen.toNat)) ∧
    (t.res = .range → CompletesKeeping .range [] [] s t)

/-- Which registers each command writes (10_state.md R40): every other register but `STATUS` reads as before. -/
def Obligations.RegisterWritesFollowSummary : Prop :=
  ∀ (i : Instr) (s : State), ∃ t, exec i s = .next t ∧
    (match i with
      | .nop => KeepsRegs [.status] s t
      | .clr => t.cmd = s.cmd
      | .bdet _ _ _ => KeepsRegs ([.status, .bdNfound, .bdNcand, .bdLastoff] ++ candWords.map .cand0
          ++ candWords.map .cand1 ++ candWords.map .cand2) s t
      | .cfoe _ => KeepsRegs [.status, .cfoOffset, .cfoStat] s t
      | .sxtr _ => KeepsRegs [.status, .sxNgrp, .symCount] s t
      | .qmap _ => KeepsRegs [.status, .rawLen, .pdStat] s t
      | .rdm => KeepsRegs [.status, .demLen, .pdStat] s t
      | .dscr => KeepsRegs [.status, .dscLen] s t
      | .pack => KeepsRegs [.status, .frmLen, .pdStat, .crcCalc, .crcRx, .crcStat] s t
      | .pdat _ => KeepsRegs [.status, .rawLen, .demLen, .dscLen, .frmLen, .pdStat, .crcCalc, .crcRx, .crcStat] s t
      | .pdec => KeepsRegs [.status, .rawLen, .demLen, .dscLen, .frmLen, .pdStat, .crcCalc, .crcRx, .crcStat] s t
      | .crcc => KeepsRegs [.status, .crcCalc, .crcRx, .crcStat] s t)

/-- Which buffer spaces each command writes (10_state.md R41, 20_memory.md R74): every byte of every other space reads
as before; in particular no command writes `CAP` or `BUR`, and only `SXTR` writes `SYM` and `GLEN`. -/
def Obligations.BufferWritesFollowTable : Prop :=
  ∀ (i : Instr) (s : State), ∃ t, exec i s = .next t ∧
    KeepsBytes (match i with
      | .nop => []
      | .clr => []
      | .bdet _ _ _ => []
      | .cfoe _ => []
      | .sxtr _ => [.sym, .glen]
      | .qmap _ => [.raw]
      | .rdm => [.dem]
      | .dscr => [.dsc]
      | .pack => [.frm]
      | .pdat _ => [.raw, .dem, .dsc, .frm]
      | .pdec => [.raw, .dem, .dsc, .frm]
      | .crcc => []) s t

/-! ### Control -/

/-- R210: `NOP` is the word 0, completes with `OK` and changes nothing but `STATUS`; `irq` follows `CTRL.IE`. -/
def Obligations.NopCompletesOk : Prop :=
  encode .nop = 0x00000000#32 ∧
  ∀ s : State, ∃ t, exec .nop s = .next t ∧ CompletesKeeping .ok [] [] s t ∧ t.irq = s.ie

/-- R211: `CLR` gives every register but `CMD` and `STATUS` its reset value (0, and `GOLD_SEED` the protocol seed),
clears `OVR`, leaves `STATUS = 0x00000002`, keeps `CMD` and every buffer, and raises no interrupt. -/
def Obligations.ClrRestoresResetValues : Prop :=
  encode .clr = 0x00000001#32 ∧
  ∀ s : State, ∃ t, exec .clr s = .next t ∧ t.cmd = s.cmd ∧ t.reg .status = 0x00000002#32 ∧
    t.reg .goldSeed = 0x12345678#32 ∧
    (∀ r, r ≠ .cmd → r ≠ .status → r ≠ .goldSeed → t.reg r = 0#32) ∧
    KeepsBytes [] s t ∧ KeepsPort s t ∧ t.irq = false

/-! ### Burst detector and CFO estimator -/

/-- R112: the regions of a mask are exactly its maximal runs of true entries, in increasing order. -/
def Obligations.RegionsAreMaximalRuns : Prop :=
  ∀ mask : List Bool,
    (∀ a b, (a, b) ∈ regions mask ↔
      a ≤ b ∧ b < mask.length ∧ (∀ t, a ≤ t → t ≤ b → mask[t]? = some true) ∧
      (a = 0 ∨ mask[a - 1]? = some false) ∧ (b + 1 = mask.length ∨ mask[b + 1]? = some false)) ∧
    (regions mask).Pairwise (fun x y => x.1 < y.1)

/-- R113: a region of `w` steps qualifies exactly when its duration, `64 × w / rate` seconds, lies between the two
bounds in microseconds, both inclusive. -/
def Obligations.QualifiesIsDurationWindow : Prop :=
  (∀ w rate lo hi : Nat, 0 < rate →
    (qualifies w rate lo hi = true ↔
      (lo : ℚ) / 1000000 ≤ 64 * (w : ℚ) / rate ∧ 64 * (w : ℚ) / rate ≤ (hi : ℚ) / 1000000)) ∧
  (∀ w rate lo hi : Nat, qualifies w rate lo hi = true ↔
    lo * rate ≤ 64 * 1000000 * w ∧ 64 * 1000000 * w ≤ hi * rate) ∧
  (∀ w : Nat, qualifies w 6400000 630 665 = true ↔ 63 ≤ w ∧ w ≤ 66)

/-- R116: the duration window of each packet type, in microseconds; the legacy flag changes it for `droneid` alone. -/
def Obligations.DurWindowFollowsTable : Prop :=
  durWindow .droneid false = (630, 665) ∧ durWindow .droneid true = (565, 600) ∧
  (∀ l, durWindow .c2 l = (500, 520) ∧ durWindow .beacon l = (490, 540) ∧ durWindow .video l = (630, 665))

/-- R115: the span of a region is the region widened by `floor(45 × rate / 10^6)` samples on each side and clamped to
the capture; it is never empty. -/
def Obligations.SpanIsGuardedAndClamped : Prop :=
  (∀ a b rate n : Nat, a ≤ b → 64 * (b + 1) ≤ n →
    ((span a b rate n).1 : Int) = max 0 (64 * (a : Int) - ((45 * rate / 1000000 : Nat) : Int)) ∧
    (span a b rate n).2 = min n (64 * (b + 1) + 45 * rate / 1000000) ∧
    (span a b rate n).1 < (span a b rate n).2) ∧
  45 * 6400000 / 1000000 = 288 ∧ span 10 72 6400000 38417 = (352, 4960)

/-- R110 with R114, R117, R118: what `BDET` leaves, its range check passed. `found` are the first three qualifying
regions; each is spanned and given to `CfoCall`; it is emitted with its offset when found, with `+0.0` and `FORCED`
when not found and `L = 1`, and dropped otherwise. -/
def Obligations.BdetFillsCandidateTable : Prop :=
  ∀ (ptype : PacketType) (legacy skipBw : Bool) (s : State),
    s.capLen.toNat ≤ Config.capDepth → s.capRate ≠ 0#32 →
    ∃ t found out,
      exec (.bdet ptype legacy skipBw) s = .next t ∧
      found = ((regions (bdMask (s.samples .cap 0 s.capLen.toNat))).filter (fun r =>
        qualifies (r.2 - r.1 + 1) s.capRate.toNat (durWindow ptype legacy).1 (durWindow ptype legacy).2)).take 3 ∧
      out = found.filterMap (fun r =>
        let sp := span r.1 r.2 s.capRate.toNat s.capLen.toNat
        let call := cfoCall (s.samples .cap sp.1 sp.2) s.capRate skipBw
        if call.2 then some (sp, call.1, false) else if legacy then some (sp, 0#32, true) else none) ∧
      t.bdNfound.toNat = found.length ∧
      t.bdNcand.toNat = out.length ∧
      (found = [] → t.bdLastoff = 0#32) ∧
      (∀ r, found.getLast? = some r →
        t.bdLastoff = (cfoCall (s.samples .cap (span r.1 r.2 s.capRate.toNat s.capLen.toNat).1
          (span r.1 r.2 s.capRate.toNat s.capLen.toNat).2) s.capRate skipBw).1) ∧
      (∀ i e, i < 3 → out[i]? = some e →
        (t.cand i).start.toNat = e.1.1 ∧ (t.cand i).stop.toNat = e.1.2 ∧ (t.cand i).dur.toNat = e.1.2 - e.1.1 ∧
        (t.cand i).offset = e.2.1 ∧ (t.cand i).valid = true ∧ (t.cand i).forced = e.2.2) ∧
      (∀ i, i < 3 → out.length ≤ i → t.cand i = Cand.zero) ∧
      CompletesKeeping (if found.length = 0 then .noburst else if out.length = 0 then .offset else .ok)
        ([.bdNfound, .bdNcand, .bdLastoff] ++ candWords.map .cand0 ++ candWords.map .cand1 ++ candWords.map .cand2)
        [] s t

/-- With `S = 1` no region is dropped or forced: `BD_NCAND = BD_NFOUND`, and `BDET` never ends with `OFFSET` (R110's
corner case, R132). -/
def Obligations.BdetSkipBwDropsNothing : Prop :=
  ∀ (ptype : PacketType) (legacy : Bool) (s : State),
    s.capLen.toNat ≤ Config.capDepth → s.capRate ≠ 0#32 →
    ∃ t, exec (.bdet ptype legacy true) s = .next t ∧ t.bdNcand = t.bdNfound ∧ t.res ≠ .offset ∧
      ∀ i, i < 3 → (t.cand i).forced = false

/-- R130 and R132: what `CFOE` leaves, its range check passed. -/
def Obligations.CfoeReportsEstimate : Prop :=
  ∀ (skipBw : Bool) (s : State),
    s.capLen.toNat ≤ Config.capDepth → s.capRate ≠ 0#32 → s.cfoStart.toNat ≤ s.cfoEnd.toNat →
    s.cfoEnd.toNat ≤ s.capLen.toNat →
    ∃ t e, exec (.cfoe skipBw) s = .next t ∧
      e = cfoEst (s.samples .cap s.cfoStart.toNat s.cfoEnd.toNat) s.capRate ∧
      t.cfoOffset = (if e.computable then e.offset else 0#32) ∧
      t.cfoComputable = e.computable ∧
      t.cfoFound = (if skipBw then true else e.bwOk) ∧
      (e.computable = false → e.offset = 0#32 ∧ e.bwOk = false) ∧
      CompletesKeeping (if t.cfoFound then .ok else .offset) [.cfoOffset, .cfoStat] [] s t

/-! ### Symbol extractor -/

/-- R143 with R44: a SymbolFrame that fits, once stored, can be read back: the lengths from `GLEN`, the points in group
order from `SYM`, the counts; every byte beyond keeps its value. -/
def Obligations.SymbolFrameIsStored : Prop :=
  ∀ (s : State) (groups : List (List Sample)),
    groups.length ≤ Config.maxGroups → groups.flatten.length ≤ Config.symDepth →
    HoldsSymbols groups s (storeSymbols groups s) ∧
    (∀ g points, groups[g]? = some points → (storeSymbols groups s).groupPoints g = points)

/-- R140: `SXTR`, its range check passed. The demodulator's groups, when it answers and they fit, are stored and the
command completes with `OK`; when it fails or they do not fit, both counts are zeroed, every buffer is left alone, and
the command completes with `SYMX`. -/
def Obligations.SxtrStoresSymbolFrame : Prop :=
  ∀ (skipZc : Bool) (s : State), s.burLen.toNat ≤ Config.burDepth →
    ∃ t, exec (.sxtr skipZc) s = .next t ∧
      ((∃ groups, sxDemod (s.samples .bur 0 s.burLen.toNat) skipZc = some groups ∧
          groups.length ≤ Config.maxGroups ∧ groups.flatten.length ≤ Config.symDepth ∧
          HoldsSymbols groups s t ∧ CompletesKeeping .ok [.sxNgrp, .symCount] [.sym, .glen] s t) ∨
       ((∀ groups, sxDemod (s.samples .bur 0 s.burLen.toNat) skipZc = some groups →
            Config.maxGroups < groups.length ∨ Config.symDepth < groups.flatten.length) ∧
          t.sxNgrp = 0#32 ∧ t.symCount = 0#32 ∧ CompletesKeeping .symx [.sxNgrp, .symCount] [] s t))

/-! ### Phase decoder: mapping -/

/-- R150 with R151: each point gives the two bits its quadrant has in the implementation's table of `h`, whatever its
tables are (R8; log 10); `RAW` beyond keeps its value. -/
def Obligations.QmapMapsEveryPoint : Prop :=
  ∀ (h : BitVec 2) (s : State), s.symCount.toNat ≤ Config.symDepth →
    ∃ t, exec (.qmap h) s = .next t ∧
      t.rawLen.toNat = 2 * s.symCount.toNat ∧ t.pdHyp = h ∧ t.pdOk = s.pdOk ∧ t.pdLenx = s.pdLenx ∧
      t.pdAtt = s.pdAtt ∧
      (∀ k, k < s.symCount.toNat →
        t.bit .raw (2 * k) = (Config.qpskLut h (quadrant (s.sample .sym k))).getLsbD 1 ∧
        t.bit .raw (2 * k + 1) = (Config.qpskLut h (quadrant (s.sample .sym k))).getLsbD 0) ∧
      (∀ i, 2 * s.symCount.toNat ≤ i → t.bit .raw i = s.bit .raw i) ∧
      (∀ a, 2 * s.symCount.toNat ≤ 8 * a → t.byte .raw a = s.byte .raw a) ∧
      CompletesKeeping .ok [.rawLen, .pdStat] [.raw] s t

/-- R151 and R152: a point's quadrant is its two sign bits, and the default tables (the spec's own choice, log 10) in
closed form from them: each a bijection, the four pairwise different; table `h + 1` is table `h` after the quarter turn
that takes signs `(s_re, s_im)` to `(s_im, not s_re)`. -/
def Obligations.QpskTablesAreRotations : Prop :=
  (∀ p : Sample, quadrant p = BitVec.ofBool (p.re.getLsbD 31) ++ BitVec.ofBool (p.im.getLsbD 31)) ∧
  (∀ re im : Bool,
    qpskLutDefault 0#2 (BitVec.ofBool re ++ BitVec.ofBool im) = BitVec.ofBool re ++ BitVec.ofBool im ∧
    qpskLutDefault 1#2 (BitVec.ofBool re ++ BitVec.ofBool im) = BitVec.ofBool im ++ BitVec.ofBool (!re) ∧
    qpskLutDefault 2#2 (BitVec.ofBool re ++ BitVec.ofBool im) = BitVec.ofBool (!re) ++ BitVec.ofBool (!im) ∧
    qpskLutDefault 3#2 (BitVec.ofBool re ++ BitVec.ofBool im) = BitVec.ofBool (!im) ++ BitVec.ofBool re) ∧
  (∀ (h : BitVec 2) (re im : Bool),
    qpskLutDefault (h + 1#2) (BitVec.ofBool re ++ BitVec.ofBool im) =
      qpskLutDefault h (BitVec.ofBool im ++ BitVec.ofBool (!re))) ∧
  (∀ h p q, qpskLutDefault h p = qpskLutDefault h q → p = q) ∧
  (∀ h k, (∀ q, qpskLutDefault h q = qpskLutDefault k q) → h = k)

/-! ### Rate de-matcher -/

/-- R170 and R174: `RDM` reads `RAW` through a permutation of its positions that depends on the length alone, the one the
implementation's dummy placement gives (R8; log 11). -/
def Obligations.RdmReadsPermutedStream : Prop :=
  ∀ s : State, s.rawLen.toNat ≤ 2 * Config.symDepth →
    ∃ t, exec .rdm s = .next t ∧
      t.demLen = s.rawLen ∧ t.pdLenx = decide (s.rawLen.toNat ≠ 1412) ∧
      t.pdHyp = s.pdHyp ∧ t.pdOk = s.pdOk ∧ t.pdAtt = s.pdAtt ∧
      (dematchPerm implParams.dummy s.rawLen.toNat).Perm (List.range s.rawLen.toNat) ∧
      (∀ i j, (dematchPerm implParams.dummy s.rawLen.toNat)[i]? = some j → t.bit .dem i = s.bit .raw j) ∧
      (∀ i, s.rawLen.toNat ≤ i → t.bit .dem i = s.bit .dem i) ∧
      (∀ a, s.rawLen.toNat ≤ 8 * a → t.byte .dem a = s.byte .dem a) ∧
      CompletesKeeping .ok [.demLen, .pdStat] [.dem] s t

/-- R172 and R173: the default placement of the dummies (the spec's own choice, log 11) in closed form. `RDM` under it
reads `RAW` through the list that goes row by row, and within a row column by column, over the numbers `c × R + r` below
the length. -/
def Obligations.DefaultDematchReadsRowByRow : Prop :=
  (∀ len : Nat, dematchPerm rdmDummyDefault len =
    ((List.range ((len + 31) / 32)).flatMap (fun r => (List.range 32).map (fun c => c * ((len + 31) / 32) + r))).filter
      (fun k => decide (k < len))) ∧
  (∀ (s : State) (i j : Nat), s.rawLen.toNat ≤ 2 * Config.symDepth →
    (dematchPerm rdmDummyDefault s.rawLen.toNat)[i]? = some j →
    (rdmWith rdmDummyDefault s).bit .dem i = s.bit .raw j)

/-- R172 and R174: for every dummy predicate that marks exactly `32R - len` cells, de-matching is a permutation of the
`len` stream positions; the default predicate, the alternative, and the one the commands run with (log 11) are such. -/
def Obligations.DematchIsPermutation : Prop :=
  (∀ (dummy : Nat → Nat → Nat → Bool) (len : Nat),
    ((cellsByColumn (rdmRows len)).filter (fun cell => dummy len cell.1 cell.2)).length = 32 * rdmRows len - len →
    (dematchPerm dummy len).Perm (List.range len)) ∧
  (∀ len : Nat, ∀ dummy ∈ [rdmDummyDefault, rdmDummyAlt, implParams.dummy],
    ((cellsByColumn (rdmRows len)).filter (fun cell => dummy len cell.1 cell.2)).length = 32 * rdmRows len - len)

/-! ### Gold descrambler -/

/-- R180: `DSCR` xors the stream with the Gold sequence of `GOLD_SEED[30:0]`, element by element, whatever polynomials
the implementation's generator has (R8; log 12). -/
def Obligations.DscrXorsGoldSequence : Prop :=
  ∀ s : State, s.demLen.toNat ≤ 2 * Config.symDepth →
    ∃ t, exec .dscr s = .next t ∧ t.dscLen = s.demLen ∧
      (∀ i, i < s.demLen.toNat →
        (gold Config.goldPoly (s.goldSeed.extractLsb' 0 31) s.demLen.toNat)[i]? = some (t.bit .dsc i ^^ s.bit .dem i)) ∧
      (∀ i, s.demLen.toNat ≤ i → t.bit .dsc i = s.bit .dsc i) ∧
      (∀ a, s.demLen.toNat ≤ 8 * a → t.byte .dsc a = s.byte .dsc a) ∧
      CompletesKeeping .ok [.dscLen] [.dsc] s t

/-- R181 and R182, for the default generator and seed order (the spec's own choice, log 12): the shift registers compute
the recurrences. There are two sequences that start as the rule says and obey the two feedback polynomials, and
`Gold(seed31, n)` is `x1[i + 1600] xor x2[i + 1600]` for `i < n`. -/
def Obligations.GoldFollowsRecurrences : Prop :=
  ∀ seed31 : BitVec 31, ∃ x1 x2 : Nat → Bool,
    x1 0 = true ∧ (∀ i, 1 ≤ i → i ≤ 30 → x1 i = false) ∧ (∀ i, i ≤ 30 → x2 i = seed31.getLsbD i) ∧
    (∀ k, x1 (k + 31) = (x1 (k + 3) ^^ x1 k)) ∧
    (∀ k, x2 (k + 31) = (x2 (k + 3) ^^ x2 (k + 2) ^^ x2 (k + 1) ^^ x2 k)) ∧
    ∀ n, gold goldPolyDefault seed31 n = (List.range n).map (fun i => x1 (i + 1600) ^^ x2 (i + 1600))

/-- R183, for the default generator (the spec's own choice, log 12): the sequence has exactly `n` elements, a shorter one
is a prefix of a longer one, and two seeds that differ in bits 30:0 give sequences that differ somewhere in every window
of 31 consecutive bits. R182, for every generator: `DSCR` gives the same bytes whatever bit 31 of `GOLD_SEED` is. -/
def Obligations.GoldSeedsDifferInEveryWindow : Prop :=
  (∀ (seed : BitVec 31) (n : Nat), (gold goldPolyDefault seed n).length = n) ∧
  (∀ (seed : BitVec 31) (m n : Nat), m ≤ n → gold goldPolyDefault seed m = (gold goldPolyDefault seed n).take m) ∧
  (∀ (seed other : BitVec 31) (k n : Nat), seed ≠ other → k + 31 ≤ n →
    ∃ i, k ≤ i ∧ i < k + 31 ∧ (gold goldPolyDefault seed n)[i]? ≠ (gold goldPolyDefault other n)[i]?) ∧
  (∀ (s : State) (v : Bool), s.demLen.toNat ≤ 2 * Config.symDepth →
    ∃ t u, exec .dscr { s with goldSeed := BitVec.ofBool v ++ s.goldSeed.extractLsb' 0 31 } = .next t ∧
      exec .dscr s = .next u ∧ ∀ a, t.byte .dsc a = u.byte .dsc a)

/-- `DSCR` is its own inverse on the data (R180's corner case): fed its own output, it gives the original stream. -/
def Obligations.DscrTwiceRestores : Prop :=
  ∀ s t u : State, s.demLen.toNat ≤ 2 * Config.symDepth → exec .dscr s = .next t →
    u.goldSeed = s.goldSeed → u.demLen = s.demLen →
    (∀ i, i < s.demLen.toNat → u.bit .dem i = t.bit .dsc i) →
    ∃ v, exec .dscr u = .next v ∧ ∀ i, i < s.demLen.toNat → v.bit .dsc i = s.bit .dem i

/-! ### Phase decoder: packing, one attempt, the loop -/

/-- R153, R154 and R157: `PACK` packs whole groups of eight bits, the earliest bit into bit 7, clears the CRC registers
and reports whether at least 91 bytes came out and the first 91 pass the implementation's structural test, whatever it
is (R8; log 13). -/
def Obligations.PackMakesBytes : Prop :=
  ∀ s : State, s.dscLen.toNat ≤ 2 * Config.symDepth →
    ∃ t, exec .pack s = .next t ∧
      t.frmLen.toNat = s.dscLen.toNat / 8 ∧
      (∀ j, j < s.dscLen.toNat / 8 →
        (t.byte .frm j).toNat = (s.bit .dsc (8 * j)).toNat * 128 + (s.bit .dsc (8 * j + 1)).toNat * 64
          + (s.bit .dsc (8 * j + 2)).toNat * 32 + (s.bit .dsc (8 * j + 3)).toNat * 16
          + (s.bit .dsc (8 * j + 4)).toNat * 8 + (s.bit .dsc (8 * j + 5)).toNat * 4
          + (s.bit .dsc (8 * j + 6)).toNat * 2 + (s.bit .dsc (8 * j + 7)).toNat) ∧
      (∀ a, s.dscLen.toNat / 8 ≤ a → t.byte .frm a = s.byte .frm a) ∧
      t.crcCalc = 0#16 ∧ t.crcRx = 0#16 ∧ t.crcValid = false ∧
      (t.pdOk = true ↔ 91 ≤ s.dscLen.toNat / 8 ∧ Config.structOk ((List.range 91).map (t.byte .frm)) = true) ∧
      t.pdHyp = s.pdHyp ∧ t.pdLenx = s.pdLenx ∧ t.pdAtt = s.pdAtt ∧
      CompletesKeeping (if t.pdOk then .ok else .phase) [.frmLen, .pdStat, .crcCalc, .crcRx, .crcStat] [.frm] s t

/-- R155 and R99: `PDAT h` is `QMAP h; RDM; DSCR; PACK`, none of which ends with `RANGE`, but for `PD_STAT.ATT`, which
becomes 1. It ends with `OK` exactly when there are 364 points and the frame passes the implementation's structural test
(R157; log 13). -/
def Obligations.PdatIsTheMicroCommands : Prop :=
  ∀ (h : BitVec 2) (s : State), s.symCount.toNat ≤ Config.symDepth →
    ∃ a b c d t, exec (.qmap h) s = .next a ∧ exec .rdm a = .next b ∧ exec .dscr b = .next c ∧ exec .pack c = .next d ∧
      exec (.pdat h) s = .next t ∧ a.res = .ok ∧ b.res = .ok ∧ c.res = .ok ∧ d.res ≠ .range ∧
      t = { d with pdAtt := 1#3 } ∧
      t.res = (if 364 ≤ s.symCount.toNat ∧ Config.structOk ((List.range 91).map (t.byte .frm)) = true then .ok
        else .phase)

/-- R156, for every structural test: `PDEC` tries the hypotheses in order as `PDAT` does and stops at the first that ends
with `OK`; `ATT` counts the attempts, and then it is `CRCC`. If all four fail it ends as the last. -/
def Obligations.PdecTriesHypothesesInOrder : Prop :=
  ∀ s : State, s.symCount.toNat ≤ Config.symDepth →
    ∃ a b c d e, exec (.pdat 0#2) s = .next a ∧ exec (.pdat 1#2) a = .next b ∧ exec (.pdat 2#2) b = .next c ∧
      exec (.pdat 3#2) c = .next d ∧ exec .pdec s = .next e ∧
      (if a.res = .ok then exec .crcc (storeAttempts 1 a) = .next e
       else if b.res = .ok then exec .crcc (storeAttempts 2 b) = .next e
       else if c.res = .ok then exec .crcc (storeAttempts 3 c) = .next e
       else if d.res = .ok then exec .crcc (storeAttempts 4 d) = .next e
       else e = storeAttempts 4 d ∧ e.res = .phase)

/-- R158 for a SymbolFrame of at least 364 points, under a structural test that is always true (the spec's default,
log 13) and any other parameters: `PDEC` is `PDAT 0; CRCC`. Hypothesis 0 succeeds, one attempt is made, and the result is
`OK` or `CRC` by the check alone. The commands are these two under the implementation's parameters. -/
def Obligations.PdecStopsAtHypothesisZero : Prop :=
  (∀ s : State, exec .pdec s = .next (pdecWith implParams s)) ∧
  (∀ (h : BitVec 2) (s : State), exec (.pdat h) s = .next (pdatWith implParams h s)) ∧
  ∀ (p : DecoderParams) (s : State), (∀ frame, p.struct frame = true) → 364 ≤ s.symCount.toNat →
    s.symCount.toNat ≤ Config.symDepth →
    ∃ a t, pdatWith p 0#2 s = a ∧ a.res = .ok ∧ exec .crcc a = .next t ∧ pdecWith p s = t ∧
      t.pdHyp = 0#2 ∧ t.pdAtt = 1#3 ∧ t.pdOk = true ∧
      t.res = (if t.crcCalc = t.crcRx then .ok else .crc)

/-- R158 for a SymbolFrame of less than 364 points: all four hypotheses fail, the state is that of the last attempt,
`ATT = 4`, the CRC registers are 0 and the result is `PHASE`. The rule says so for the default `STRUCT_OK` (log 13); the
length test alone decides, so it holds for every structural test. -/
def Obligations.PdecFailsAfterFourAttempts : Prop :=
  ∀ s : State, s.symCount.toNat < 364 →
    ∃ a b c d t, exec (.pdat 0#2) s = .next a ∧ exec (.pdat 1#2) a = .next b ∧ exec (.pdat 2#2) b = .next c ∧
      exec (.pdat 3#2) c = .next d ∧ exec .pdec s = .next t ∧ t = { d with pdAtt := 4#3 } ∧
      t.pdHyp = 3#2 ∧ t.pdOk = false ∧ t.res = .phase ∧ t.crcCalc = 0#16 ∧ t.crcRx = 0#16 ∧ t.crcValid = false

/-- R156's reads: `SYM_COUNT` being in range (RangeExactlyWhenOutOfRange says what it does otherwise), the outcome of
`PDEC` depends on `SYM_COUNT`, the sign bits of `SYM[0..SYM_COUNT)` and `GOLD_SEED[30:0]` alone. -/
def Obligations.PdecReadsOnlySignBits : Prop :=
  ∀ s t : State, s.symCount.toNat ≤ Config.symDepth → t.symCount = s.symCount →
    t.goldSeed.extractLsb' 0 31 = s.goldSeed.extractLsb' 0 31 →
    (∀ k, k < s.symCount.toNat → (t.sample .sym k).re.getLsbD 31 = (s.sample .sym k).re.getLsbD 31 ∧
      (t.sample .sym k).im.getLsbD 31 = (s.sample .sym k).im.getLsbD 31) →
    ∃ a b, exec .pdec s = .next a ∧ exec .pdec t = .next b ∧ a.res = b.res ∧ a.reg .pdStat = b.reg .pdStat ∧
      a.rawLen = b.rawLen ∧ a.demLen = b.demLen ∧ a.dscLen = b.dscLen ∧ a.frmLen = b.frmLen ∧
      a.crcCalc = b.crcCalc ∧ a.crcRx = b.crcRx ∧ a.crcValid = b.crcValid ∧
      (∀ j, j < a.frmLen.toNat → a.byte .frm j = b.byte .frm j)

/-! ### CRC-16 frame validator -/

/-- R190: `CRCC` recomputes the CRC over `FRM[0..89)`, reads the embedded one little-endian, and compares. -/
def Obligations.CrccComparesChecksums : Prop :=
  ∀ s : State, 91 ≤ s.frmLen.toNat → s.frmLen.toNat ≤ 2 * Config.symDepth / 8 →
    ∃ t, exec .crcc s = .next t ∧
      t.crcCalc = crc16 ((List.range 89).map (s.byte .frm)) ∧
      t.crcRx.toNat = (s.byte .frm 89).toNat + 256 * (s.byte .frm 90).toNat ∧
      (t.crcValid = true ↔ t.crcCalc = t.crcRx) ∧
      CompletesKeeping (if t.crcCalc = t.crcRx then .ok else .crc) [.crcCalc, .crcRx, .crcStat] [] s t

/-- R191: the register starts at `0x3692`; each byte is xored into its low half, then it shifts right eight times, with
`0x8408` xored in after a one; there is no final xor. The three values are the rule's. -/
def Obligations.CrcFollowsRegister : Prop :=
  crc16 [] = 0x3692#16 ∧
  (∀ (bytes : List Byte) (b : Byte), crc16 (bytes ++ [b]) =
    (fun c : BitVec 16 => if c.getLsbD 0 then (c >>> 1) ^^^ 0x8408#16 else c >>> 1)^[8]
      (crc16 bytes ^^^ BitVec.setWidth 16 b)) ∧
  crc16 [0x00#8] = 0xB7AD#16 ∧
  crc16 [0x31#8, 0x32#8, 0x33#8, 0x34#8, 0x35#8, 0x36#8, 0x37#8, 0x38#8, 0x39#8] = 0x7109#16

/-- R192, first half: with the payload's CRC stored little-endian after it, `CRCC` completes with `OK`. -/
def Obligations.AppendedCrcVerifies : Prop :=
  ∀ s : State, 91 ≤ s.frmLen.toNat → s.frmLen.toNat ≤ 2 * Config.symDepth / 8 →
    s.byte .frm 89 = (crc16 ((List.range 89).map (s.byte .frm))).extractLsb' 0 8 →
    s.byte .frm 90 = (crc16 ((List.range 89).map (s.byte .frm))).extractLsb' 8 8 →
    ∃ t, exec .crcc s = .next t ∧ t.res = .ok ∧ t.crcValid = true

/-- R192, second half, for a message of any length: flipping any single bit of any byte of it changes its CRC. -/
def Obligations.CrcDetectsSingleBitFlip : Prop :=
  ∀ (before after : List Byte) (b : Byte) (k : Nat), k < 8 →
    crc16 (before ++ (b ^^^ (1#8 <<< k)) :: after) ≠ crc16 (before ++ b :: after)

/-- R196 and R193: each field's offset is the sum of the widths before it; the payload fields fill 89 bytes and the
frame 91. -/
def Obligations.FrameFieldsFillFrame : Prop :=
  (∀ i f, frameFields[i]? = some f → f.offset = ((frameFields.take i).map FrameField.width).sum) ∧
  (frameFields.map FrameField.width).sum = 91 ∧ FrameField.crc.offset = 89

/-! ### Host port -/

/-- R73: while a command runs, every write but one to `STATUS` is dropped and sets `OVR`; nothing else of OQX changes.
(That a write to a reserved offset or to a word outside a space sets `OVR` too is R39's and R65's; log 5.) -/
def Obligations.BusyWritesAreDropped : Prop :=
  ∀ (s : State) (a : HostAction), s.busy = true →
    ((∃ off v, a = .regWrite off v ∧ off % 4 = 0 ∧ off < 256 ∧ off ≠ 4) ∨ (∃ sp w v, a = .bufWrite sp w v)) →
    ∃ t, hostAct a s = .next t ∧ t = { s with ovr := true }

/-- R24: a `STATUS` write clears `DONE` where bit 1 is set and `OVR` where bit 2 is set, busy or idle, and changes
nothing else. -/
def Obligations.StatusWriteClearsFlags : Prop :=
  ∀ (s : State) (v : Word), ∃ t, hostAct (.regWrite 4 v) s = .next t ∧
    t.done = (s.done && !v.getLsbD 1) ∧ t.ovr = (s.ovr && !v.getLsbD 2) ∧ t.busy = s.busy ∧ t.res = s.res ∧
    KeepsRegs [.status] s t ∧ KeepsBytes [] s t ∧ KeepsPort s t

/-- R65 and R73: a read changes no register and no buffer byte; `STATUS` always answers its current value, and an idle
block answers the stored word. -/
def Obligations.ReadsHaveNoSideEffect : Prop :=
  (∀ (s : State) (off : Nat), off % 4 = 0 → off < 256 →
    ∃ t, hostAct (.regRead off) s = .next t ∧ KeepsRegs [] s t ∧ KeepsBytes [] s t ∧ t.host = s.host ∧
      (off = 4 → t.busData = s.reg .status) ∧
      (s.busy = false → (∀ r, r.offset = off → t.busData = s.reg r) ∧
        ((∀ r : Reg, r.offset ≠ off) → t.busData = 0#32))) ∧
  (∀ (s : State) (sp : Space) (w : Nat),
    ∃ t, hostAct (.bufRead sp w) s = .next t ∧ KeepsRegs [] s t ∧ KeepsBytes [] s t ∧ t.host = s.host ∧
      (s.busy = false → t.busData = s.word sp w))

/-- R24 and R221: the `STATUS` word as the host reads it, busy or idle: `BUSY` bit 0, `DONE` bit 1, `OVR` bit 2, bit 3
zero, the result code's number in 7:4, zero above. R25, R29, R31, R32, R37, R38: the fields of the other registers that
have some, every bit that is none of them reading 0. -/
def Obligations.RegisterWordsHoldFields : Prop :=
  (∀ s : State, ∃ t, hostAct (.regRead 4) s = .next t ∧
    t.busData.getLsbD 0 = s.busy ∧ t.busData.getLsbD 1 = s.done ∧ t.busData.getLsbD 2 = s.ovr ∧
    t.busData.getLsbD 3 = false ∧
    t.busData.extractLsb' 4 4 = (match s.res with
      | .ok => 0#4 | .illcmd => 1#4 | .range => 2#4 | .offset => 3#4 | .symx => 4#4 | .phase => 5#4 | .crc => 6#4
      | .noburst => 7#4) ∧
    t.busData.extractLsb' 8 24 = 0#24) ∧
  (∀ s : State,
    ((s.reg .ctrl).getLsbD 0 = s.ie ∧ (s.reg .ctrl).extractLsb' 1 31 = 0#31) ∧
    ((s.reg .bdNfound).extractLsb' 0 2 = s.bdNfound ∧ (s.reg .bdNfound).extractLsb' 2 30 = 0#30) ∧
    ((s.reg .bdNcand).extractLsb' 0 2 = s.bdNcand ∧ (s.reg .bdNcand).extractLsb' 2 30 = 0#30) ∧
    ((s.reg .cfoStat).getLsbD 0 = s.cfoFound ∧ (s.reg .cfoStat).getLsbD 1 = s.cfoComputable ∧
      (s.reg .cfoStat).extractLsb' 2 30 = 0#30) ∧
    (∀ x ∈ [(Reg.cand0, s.cand0), (Reg.cand1, s.cand1), (Reg.cand2, s.cand2)],
      s.reg (x.1 .start) = x.2.start ∧ s.reg (x.1 .stop) = x.2.stop ∧ s.reg (x.1 .dur) = x.2.dur ∧
      s.reg (x.1 .offset) = x.2.offset ∧ (s.reg (x.1 .flags)).getLsbD 0 = x.2.valid ∧
      (s.reg (x.1 .flags)).getLsbD 1 = x.2.forced ∧ (s.reg (x.1 .flags)).extractLsb' 2 30 = 0#30) ∧
    ((s.reg .pdStat).extractLsb' 0 2 = s.pdHyp ∧ (s.reg .pdStat).getLsbD 2 = s.pdOk ∧
      (s.reg .pdStat).getLsbD 3 = s.pdLenx ∧ (s.reg .pdStat).extractLsb' 4 3 = s.pdAtt ∧
      (s.reg .pdStat).extractLsb' 7 25 = 0#25) ∧
    ((s.reg .crcCalc).extractLsb' 0 16 = s.crcCalc ∧ (s.reg .crcCalc).extractLsb' 16 16 = 0#16) ∧
    ((s.reg .crcRx).extractLsb' 0 16 = s.crcRx ∧ (s.reg .crcRx).extractLsb' 16 16 = 0#16) ∧
    ((s.reg .crcStat).getLsbD 0 = s.crcValid ∧ (s.reg .crcStat).extractLsb' 1 31 = 0#31))

/-- R40's register map with R32's entries: every register's offset, and the word-aligned offsets of the window that no
register has (R39: the reserved ones). -/
def Obligations.RegisterMapFollowsSummary : Prop :=
  (∀ r : Reg, r ∈ allRegs) ∧
  allRegs.map (fun r => (r, r.offset)) =
    [(.cmd, 0x000), (.status, 0x004), (.ctrl, 0x008), (.capLen, 0x00C), (.capRate, 0x010), (.capFreqLo, 0x014),
     (.capFreqHi, 0x018), (.capTsLo, 0x01C), (.capTsHi, 0x020), (.bdNfound, 0x024), (.bdNcand, 0x028),
     (.bdLastoff, 0x02C), (.cfoStart, 0x030), (.cfoEnd, 0x034), (.cfoOffset, 0x038), (.cfoStat, 0x03C),
     (.cand0 .start, 0x040), (.cand0 .stop, 0x044), (.cand0 .dur, 0x048), (.cand0 .offset, 0x04C),
     (.cand0 .flags, 0x050), (.cand1 .start, 0x060), (.cand1 .stop, 0x064), (.cand1 .dur, 0x068),
     (.cand1 .offset, 0x06C), (.cand1 .flags, 0x070), (.cand2 .start, 0x080), (.cand2 .stop, 0x084),
     (.cand2 .dur, 0x088), (.cand2 .offset, 0x08C), (.cand2 .flags, 0x090), (.burLen, 0x0A0), (.sxNgrp, 0x0A4),
     (.symCount, 0x0A8), (.goldSeed, 0x0AC), (.rawLen, 0x0B0), (.demLen, 0x0B4), (.dscLen, 0x0B8), (.frmLen, 0x0BC),
     (.pdStat, 0x0C0), (.crcCalc, 0x0C4), (.crcRx, 0x0C8), (.crcStat, 0x0CC)] ∧
  (∀ off : Nat, off % 4 = 0 → off < 256 →
    ((∀ r : Reg, r.offset ≠ off) ↔
      off ∈ [0x054, 0x058, 0x05C, 0x074, 0x078, 0x07C, 0x094, 0x098, 0x09C] ∨ 0x0D0 ≤ off))

/-- R62: a buffer write to an idle block stores the whole word less the bits beyond the capacity, which read 0; every
other word of every space, and every register, reads as before. -/
def Obligations.BufferWriteThenRead : Prop :=
  ∀ (s : State) (sp : Space) (w : Nat) (v : Word), s.busy = false →
    ∃ t, hostAct (.bufWrite sp w v) s = .next t ∧
      (∀ j, j < 32 → (t.word sp w).getLsbD j = (v.getLsbD j && decide (32 * w + j < capacityBits sp))) ∧
      (∀ q u, (q, u) ≠ (sp, w) → t.word q u = s.word q u) ∧
      (∀ q a, (q ≠ sp ∨ a / 4 ≠ w) → t.byte q a = s.byte q a) ∧
      KeepsRegs [] s t ∧ KeepsPort s t

/-- R62's word-to-element map: bit `j` of word `w` of a bit space is element `32w + j`; byte `k` of word `w` of `FRM`
is `FRM[4w + k]`; the words of a sample space alternate real and imaginary parts; word `g` of `GLEN` is `GLEN[g]`; every
bit beyond the capacity reads 0. -/
def Obligations.WordsHoldElements : Prop :=
  (∀ (s : State) (g : Nat), BitVec.ofNat 32 (s.groupLen g) = s.word .glen g ∧ s.groupLen g < 2 ^ 32) ∧
  ∀ (s : State) (sp : Space) (w : Nat),
    (∀ j, j < 32 → (s.word sp w).getLsbD j = s.bit sp (32 * w + j)) ∧
    (∀ k, k < 4 → (s.word sp w).extractLsb' (8 * k) 8 = s.byte sp (4 * w + k)) ∧
    (∀ j, j < 32 → capacityBits sp ≤ 32 * w + j → (s.word sp w).getLsbD j = false) ∧
    (∀ i, (s.sample sp i).re = s.word sp (2 * i) ∧ (s.sample sp i).im = s.word sp (2 * i + 1))

/-- R50 and R263: a write to an idle block's register other than `CMD` and `STATUS`. A read-write register then reads
the written word (`CTRL` its bit 0), a read-only or reserved one as before, `OVR` is not set, and nothing else changes. -/
def Obligations.IdleRegisterWrite : Prop :=
  ∀ (s : State) (off : Nat) (v : Word), s.busy = false → off % 4 = 0 → off < 256 → off ≠ 0 → off ≠ 4 →
    ∃ t, hostAct (.regWrite off v) s = .next t ∧
      (∀ r, r.offset = off → t.reg r =
        (if r = .ctrl then v &&& 1#32
         else if r ∈ [.capLen, .capRate, .capFreqLo, .capFreqHi, .capTsLo, .capTsHi, .cfoStart, .cfoEnd, .burLen,
           .sxNgrp, .symCount, .goldSeed, .rawLen, .demLen, .dscLen, .frmLen] then v
         else s.reg r)) ∧
      (∀ r, r.offset ≠ off → t.reg r = s.reg r) ∧ KeepsBytes [] s t ∧ KeepsPort s t

/-- R250 with R49: reset, at any time. Every register reads 0 but `GOLD_SEED`, no command is in flight, `irq` is low.
That every buffer byte is then `Config.resetByte` of the new count of resets (bits beyond the capacity reading 0) is the
model's form of "unspecified" (log 3). -/
def Obligations.ResetFromAnyState : Prop :=
  ∀ s : State, ∃ t, hostAct .reset s = .next t ∧
    (∀ r, r ≠ .goldSeed → t.reg r = 0#32) ∧ t.reg .goldSeed = 0x12345678#32 ∧
    t.busy = false ∧ t.done = false ∧ t.irq = false ∧
    (∀ sp a, t.byte sp a = Config.resetByte (s.resets + 1) sp a &&& byteMask sp a)

/-- R224: `irq` is bit 1 of `STATUS` and bit 0 of `CTRL`; it is cleared by a `STATUS` write with bit 1 set, by the
acceptance of a command, and by a `CTRL` write with bit 0 clear to an idle block. -/
def Obligations.IrqFollowsDoneAndEnable : Prop :=
  (∀ s : State, s.irq = ((s.reg .status).getLsbD 1 && (s.reg .ctrl).getLsbD 0)) ∧
  (∀ (s : State) (v : Word), v.getLsbD 1 = true →
    ∃ t, hostAct (.regWrite 4 v) s = .next t ∧ t.irq = false) ∧
  (∀ (s : State) (w : Word), s.busy = false → ∃ t, hostAct (.regWrite 0 w) s = .next t ∧ t.irq = false) ∧
  (∀ (s : State) (v : Word), s.busy = false → v.getLsbD 0 = false →
    ∃ t, hostAct (.regWrite 8 v) s = .next t ∧ t.irq = false)

/-- R66: the nine windows are word aligned and pairwise disjoint, and a word access on the bus inside one is the
register or buffer access of its offset. -/
def Obligations.BusMapReachesEveryWindow : Prop :=
  (∀ x ∈ windows, windowBase x % 4 = 0) ∧
  (∀ x ∈ windows, ∀ y ∈ windows, x ≠ y → ∀ addr, inWindow addr x = true → inWindow addr y = false) ∧
  (∀ (s : State) (off : Nat) (v : Word), off % 4 = 0 → off < 256 →
    hostAct (.memRead (windowBase .registers + off) 4) s = hostAct (.regRead off) s ∧
    hostAct (.memWrite (windowBase .registers + off) 4 v) s = hostAct (.regWrite off v) s) ∧
  (∀ (s : State) (sp : Space) (w : Nat) (v : Word), w < (capacityBits sp + 31) / 32 →
    hostAct (.memRead (windowBase (.buffer sp) + 4 * w) 4) s = hostAct (.bufRead sp w) s ∧
    hostAct (.memWrite (windowBase (.buffer sp) + 4 * w) 4 v) s = hostAct (.bufWrite sp w v) s)

/-- An access that is not an aligned 32-bit word is refused: the spec gives it no meaning (R64, 93 U2; the refusal is the
model's form of that, log 7). An aligned word access outside the nine windows "does not reach OQX" (R66): a write changes
nothing, a read changes no register and no buffer byte, and what runs goes on; that the word read is a free one is the
model's choice (log 6). -/
def Obligations.AccessesOutsideTheInterface : Prop :=
  (∀ (s : State) (addr size : Nat) (v : Word), (size ≠ 4 ∨ addr % 4 ≠ 0) →
    hostAct (.memRead addr size) s = .refused .notAWordAccess ∧
    hostAct (.memWrite addr size v) s = .refused .notAWordAccess) ∧
  (∀ (s : State) (addr : Nat) (v : Word), addr % 4 = 0 → (∀ x ∈ windows, inWindow addr x = false) →
    hostAct (.memWrite addr 4 v) s = .next s ∧
    ∃ t, hostAct (.memRead addr 4) s = .next t ∧ KeepsRegs [] s t ∧ KeepsBytes [] s t ∧ t.host = s.host ∧
      t.delay = s.delay ∧ t.resets = s.resets)

/-- The model's choice where nothing is to be done (log 18, from R230: "an idle block holds its state indefinitely"):
an idle block with no host action pending steps to itself. -/
def Obligations.IdleBlockHoldsState : Prop :=
  ∀ s : State, s.busy = false → s.host = [] → step s = .next s

/-! ### The invariant -/

/-- The invariant holds right after reset. -/
def Obligations.ResetSatisfiesInv : Prop := Inv State.reset

/-- Every step keeps the invariant, from every state that has it. -/
def Obligations.StepKeepsInv : Prop := ∀ s t : State, Inv s → step s = .next t → Inv t
end

