-- ==== Sys2Proof/Laws/Encoding.lean ====
section
/-! SUPPORT. The bits of a command word, and the two directions between words and fields. -/

namespace Sys2Proof

/-- Bit `i` of a command word (R91). -/
theorem getLsbD_wordOf (f : CmdFields) (i : Nat) : (wordOf f).getLsbD i =
    if i < 8 then f.op.getLsbD i else if i < 10 then f.a.getLsbD (i - 8) else if i = 10 then f.l
    else if i = 11 then f.s else if i = 12 then f.z else f.zero.getLsbD (i - 13) := by
  show BitVec.getLsbD (w := 19 + 1 + 1 + 1 + 2 + 8) _ i = _
  unfold wordOf
  rw [BitVec.getLsbD_append, BitVec.getLsbD_append, BitVec.getLsbD_append, BitVec.getLsbD_append,
    BitVec.getLsbD_append]
  simp only [BitVec.getLsbD_ofBool, Nat.sub_sub]
  by_cases h8 : i < 8
  · simp [h8]
  · by_cases h10 : i < 10
    · simp [h8, h10, show i - 8 < 2 by omega]
    · by_cases e0 : i = 10
      · simp [e0]
      · by_cases e1 : i = 11
        · simp [e1]
        · by_cases e2 : i = 12
          · simp [e2]
          · simp [h8, h10, e0, e1, e2, show ¬ i - 8 < 2 by omega, show ¬ i - 10 < 1 by omega,
              show ¬ i - 11 < 1 by omega, show ¬ i - 12 < 1 by omega]

@[simp] theorem fieldsOf_wordOf (f : CmdFields) : fieldsOf (wordOf f) = f := by
  obtain ⟨op, a, l, s, z, zero⟩ := f
  simp only [fieldsOf, CmdFields.mk.injEq]
  refine ⟨?_, ?_, ?_, ?_, ?_, ?_⟩
  · ext i hi; simp only [BitVec.getElem_extractLsb', getLsbD_wordOf, Nat.zero_add, hi, if_true]
    exact BitVec.getLsbD_eq_getElem hi
  · ext i hi
    rw [BitVec.getElem_extractLsb', getLsbD_wordOf, if_neg (by omega), if_pos (by omega), Nat.add_sub_cancel_left]
    exact BitVec.getLsbD_eq_getElem hi
  · rw [getLsbD_wordOf]; simp
  · rw [getLsbD_wordOf]; simp
  · rw [getLsbD_wordOf]; simp
  · ext i hi
    rw [BitVec.getElem_extractLsb', getLsbD_wordOf, if_neg (by omega), if_neg (by omega), if_neg (by omega),
      if_neg (by omega), if_neg (by omega), Nat.add_sub_cancel_left]
    exact BitVec.getLsbD_eq_getElem hi

@[simp] theorem wordOf_fieldsOf (w : Word) : wordOf (fieldsOf w) = w := by
  apply BitVec.eq_of_getLsbD_eq
  intro i hi
  rw [getLsbD_wordOf]
  simp only [fieldsOf, BitVec.getLsbD_extractLsb']
  split_ifs with h1 h2 h3 h4 h5
  · simp [h1]
  · simp [show i - 8 < 2 by omega, show 8 + (i - 8) = i by omega]
  · rw [h3]
  · rw [h4]
  · rw [h5]
  · simp [show i - 13 < 19 by omega, show 13 + (i - 13) = i by omega]

@[simp] theorem packetTypeOf_packetTypeBits (p : PacketType) : packetTypeOf (packetTypeBits p) = p := by cases p <;> rfl

@[simp] theorem packetTypeBits_packetTypeOf (a : BitVec 2) : packetTypeBits (packetTypeOf a) = a := by revert a; decide

theorem ifUnusedZero_eq_ok {b : Bool} {j i : Instr} : ifUnusedZero b j = .ok i ↔ b = true ∧ j = i := by
  cases b <;> simp [ifUnusedZero]

/-- The two ways a choice can answer `z`; peels the opcode tests of the decoder one at a time. -/
theorem ite_eq_cases {α : Type} {c : Prop} [Decidable c] {x y z : α} (h : (if c then x else y) = z) :
    (c ∧ x = z) ∨ (¬ c ∧ y = z) := by
  by_cases hc : c
  · rw [if_pos hc] at h; exact .inl ⟨hc, h⟩
  · rw [if_neg hc] at h; exact .inr ⟨hc, h⟩

/-- Fields that select a command are the fields of that command's encoding. -/
theorem encodeFields_eq_of_decodeFields {f : CmdFields} {i : Instr} (hz : f.zero = 0#19)
    (h : decodeFields f = .ok i) : encodeFields i = f := by
  obtain ⟨op, a, l, s, z, zero⟩ := f
  replace hz : zero = 0#19 := hz
  subst hz
  unfold decodeFields at h
  dsimp only at h
  repeat
    replace h := ite_eq_cases h
    rcases h with ⟨ho, h⟩ | ⟨-, h⟩
    (obtain ⟨hu, rfl⟩ := ifUnusedZero_eq_ok.1 h
     simp only [Bool.and_eq_true, beq_iff_eq, Bool.not_eq_true'] at hu
     simp_all only [encodeFields, packetTypeBits_packetTypeOf])
  cases h

end Sys2Proof
end

