-- ==== Sys2Proof/Laws/Memory.lean ====
section
/-! SUPPORT. The laws of one buffer space: reading after writing, at every width, and the canonical form. -/

namespace Sys2Proof.Machine

/-! ### The byte list -/

@[simp] theorem Memory.get?_nil (a : Nat) : Memory.get? [] a = none := rfl

theorem Memory.get?_cons (k : Nat) (b : Byte) (m : Memory) (a : Nat) :
    Memory.get? ((k, b) :: m) a = if k = a then some b else m.get? a := rfl

theorem Memory.get?_set (m : Memory) (a x : Nat) (b : Byte) :
    (m.set a b).get? x = if a = x then some b else m.get? x := by
  induction m with
  | nil => rfl
  | cons c m ih =>
    obtain ⟨k, c⟩ := c
    simp only [Memory.set]
    split
    · rfl
    · split
      · next h => subst h; simp only [Memory.get?_cons]; split <;> rfl
      · next h => simp only [Memory.get?_cons, ih]; split <;> split <;> simp_all

theorem Memory.mem_set {m : Memory} {a : Nat} {b : Byte} {c : Host.Cell} (h : c ∈ m.set a b) :
    c = (a, b) ∨ c ∈ m := by
  induction m with
  | nil => simpa [Memory.set] using h
  | cons d m ih =>
    obtain ⟨k, d⟩ := d
    simp only [Memory.set] at h
    split at h
    · simpa using h
    · split at h
      · rcases List.mem_cons.1 h with h | h
        · exact .inl h
        · exact .inr (List.mem_cons_of_mem _ h)
      · rcases List.mem_cons.1 h with h | h
        · exact .inr (h ▸ List.mem_cons_self)
        · exact (ih h).imp_right (List.mem_cons_of_mem _)

theorem Memory.set_ascending {m : Memory} (hm : m.Pairwise (fun c d => c.1 < d.1)) (a : Nat) (b : Byte) :
    (m.set a b).Pairwise (fun c d => c.1 < d.1) := by
  induction m with
  | nil => simp [Memory.set]
  | cons d m ih =>
    obtain ⟨k, d⟩ := d
    obtain ⟨hk, hm'⟩ := List.pairwise_cons.1 hm
    simp only [Memory.set]
    split
    · next h =>
      refine List.pairwise_cons.2 ⟨fun x hx => ?_, hm⟩
      rcases List.mem_cons.1 hx with rfl | hx
      · exact h
      · exact Nat.lt_trans h (hk x hx)
    · split
      · next h => exact List.pairwise_cons.2 ⟨fun x hx => by have := hk x hx; simpa [h] using this, hm'⟩
      · next h1 h2 =>
        refine List.pairwise_cons.2 ⟨fun x hx => ?_, ih hm'⟩
        rcases Memory.mem_set hx with rfl | hx
        · show k < a; omega
        · exact hk x hx

/-! ### The capacity mask -/

theorem byteMask_full {sp : Space} {a : Nat} (h : 8 * (a + 1) ≤ capacityBits sp) : byteMask sp a = 0xFF#8 := by
  simp [byteMask, h]

theorem getLsbD_byteMask (sp : Space) (a j : Nat) (hj : j < 8) :
    (byteMask sp a).getLsbD j = decide (8 * a + j < capacityBits sp) := by
  unfold byteMask
  split
  · have h1 : (0xFF#8).getLsbD j = true := by
      have : ∀ i : Fin 8, (0xFF#8).getLsbD i.val = true := by decide
      exact this ⟨j, hj⟩
    rw [h1]; symm; simp; omega
  · rw [BitVec.getLsbD_ofNat, Nat.testBit_two_pow_sub_one]
    simp [hj]; omega

theorem byteMask_beyond {sp : Space} {a : Nat} (h : capacityBits sp ≤ 8 * a) : byteMask sp a = 0#8 := by
  apply BitVec.eq_of_getLsbD_eq
  intro i hi
  rw [getLsbD_byteMask sp a i hi]
  simp; omega

@[simp] theorem and_byteMask_self (b : Byte) (sp : Space) (a : Nat) :
    b &&& byteMask sp a &&& byteMask sp a = b &&& byteMask sp a := by
  rw [BitVec.and_assoc, BitVec.and_self]

/-! ### Bytes -/

/-- A byte reads 0 beyond the capacity. -/
theorem Memory.byte_beyond {sp : Space} {a : Nat} (h : capacityBits sp ≤ 8 * a) (ep : Nat) (m : Memory) :
    m.byte sp ep a = 0#8 := by
  simp [Memory.byte, byteMask_beyond h]

@[simp] theorem Memory.byte_masked (sp : Space) (ep : Nat) (m : Memory) (a : Nat) :
    m.byte sp ep a &&& byteMask sp a = m.byte sp ep a := by
  simp [Memory.byte]

/-- Reading after writing a byte. -/
theorem Memory.byte_putByte (sp : Space) (ep : Nat) (m : Memory) (a x : Nat) (b : Byte) :
    (m.putByte sp a b).byte sp ep x = if a = x then b &&& byteMask sp a else m.byte sp ep x := by
  unfold Memory.putByte
  split
  · simp only [Memory.byte, Memory.get?_set]
    split
    · next h => subst h; simp
    · rfl
  · next h =>
    split
    · next e =>
      subst e
      rw [Memory.byte_beyond (by omega), byteMask_beyond (by omega), BitVec.and_zero]
    · rfl

/-- Writing a byte keeps the canonical form. -/
theorem Memory.wf_putByte {sp : Space} {m : Memory} (h : m.wf sp) (a : Nat) (b : Byte) : (m.putByte sp a b).wf sp := by
  unfold Memory.putByte
  split
  · next ha =>
    refine ⟨Memory.set_ascending h.1 _ _, fun c hc => ?_⟩
    rcases Memory.mem_set hc with rfl | hc
    · exact ⟨ha, by simp⟩
    · exact h.2 c hc
  · exact h

theorem Memory.wf_nil (sp : Space) : Memory.wf sp [] := ⟨List.Pairwise.nil, fun _ h => by cases h⟩

/-! ### Words -/

theorem Memory.wf_putWord {sp : Space} {m : Memory} (h : m.wf sp) (w : Nat) (v : Word) : (m.putWord sp w v).wf sp :=
  Memory.wf_putByte (Memory.wf_putByte (Memory.wf_putByte (Memory.wf_putByte h _ _) _ _) _ _) _ _

/-- What a byte reads after a word write. -/
theorem Memory.byte_putWord (sp : Space) (ep : Nat) (m : Memory) (w x : Nat) (v : Word) :
    (m.putWord sp w v).byte sp ep x =
      if x / 4 = w then v.extractLsb' (8 * (x % 4)) 8 &&& byteMask sp x else m.byte sp ep x := by
  simp only [Memory.putWord, Memory.byte_putByte]
  by_cases h3 : 4 * w + 3 = x
  · subst h3
    rw [if_pos rfl, if_pos (by omega), show (4 * w + 3) % 4 = 3 by omega]
  · rw [if_neg h3]
    by_cases h2 : 4 * w + 2 = x
    · subst h2
      rw [if_pos rfl, if_pos (by omega), show (4 * w + 2) % 4 = 2 by omega]
    · rw [if_neg h2]
      by_cases h1 : 4 * w + 1 = x
      · subst h1
        rw [if_pos rfl, if_pos (by omega), show (4 * w + 1) % 4 = 1 by omega]
      · rw [if_neg h1]
        by_cases h0 : 4 * w = x
        · subst h0
          rw [if_pos rfl, if_pos (by omega), show (4 * w) % 4 = 0 by omega]
        · rw [if_neg h0, if_neg (by omega)]

/-- The bits of a word are the bits of its four bytes. -/
theorem Memory.getLsbD_word (sp : Space) (ep : Nat) (m : Memory) (w j : Nat) (hj : j < 32) :
    (m.word sp ep w).getLsbD j = (m.byte sp ep (4 * w + j / 8)).getLsbD (j % 8) := by
  unfold Memory.word
  simp only [BitVec.getLsbD_append]
  by_cases h0 : j < 8
  · rw [if_pos h0, show j / 8 = 0 by omega, show j % 8 = j by omega]; rfl
  · rw [if_neg h0]
    by_cases h1 : j - 8 < 8
    · rw [if_pos h1, show j / 8 = 1 by omega, show j % 8 = j - 8 by omega]
    · rw [if_neg h1]
      by_cases h2 : j - 8 - 8 < 8
      · rw [if_pos h2, show j / 8 = 2 by omega, show j % 8 = j - 8 - 8 by omega]
      · rw [if_neg h2, show j / 8 = 3 by omega, show j % 8 = j - 8 - 8 - 8 by omega]

/-- A word read depends on its four bytes only. -/
theorem Memory.word_congr {sp : Space} {ep ep' : Nat} {m m' : Memory} {w : Nat}
    (h : ∀ k, k < 4 → m'.byte sp ep' (4 * w + k) = m.byte sp ep (4 * w + k)) :
    m'.word sp ep' w = m.word sp ep w := by
  unfold Memory.word
  have h0 := h 0 (by omega)
  rw [Nat.add_zero] at h0
  rw [h 3 (by omega), h 2 (by omega), h 1 (by omega), h0]

/-- Reading another word after a word write. -/
theorem Memory.word_putWord_ne {sp : Space} {m : Memory} {w u : Nat} (h : w ≠ u) (ep : Nat) (v : Word) :
    (m.putWord sp w v).word sp ep u = m.word sp ep u :=
  Memory.word_congr fun k hk => by
    rw [Memory.byte_putWord, if_neg (by omega)]

/-- Reading the same word after a word write: the bits inside the capacity. -/
theorem Memory.getLsbD_word_putWord (sp : Space) (ep : Nat) (m : Memory) (w j : Nat) (v : Word) (hj : j < 32) :
    ((m.putWord sp w v).word sp ep w).getLsbD j = (v.getLsbD j && decide (32 * w + j < capacityBits sp)) := by
  rw [Memory.getLsbD_word _ _ _ _ _ hj, Memory.byte_putWord, if_pos (by omega), BitVec.getLsbD_and,
    getLsbD_byteMask _ _ _ (by omega), BitVec.getLsbD_extractLsb', show (4 * w + j / 8) % 4 = j / 8 by omega,
    show 8 * (j / 8) + j % 8 = j by omega, show 8 * (4 * w + j / 8) + j % 8 = 32 * w + j by omega]
  simp [show j % 8 < 8 by omega]

/-- Reading the same word after a word write inside the capacity. -/
theorem Memory.word_putWord_same {sp : Space} {m : Memory} {w : Nat} (h : 32 * (w + 1) ≤ capacityBits sp) (ep : Nat)
    (v : Word) : (m.putWord sp w v).word sp ep w = v := by
  apply BitVec.eq_of_getLsbD_eq
  intro j hj
  rw [Memory.getLsbD_word_putWord _ _ _ _ _ _ hj]
  simp; intro _; omega

theorem Memory.wf_putWords {sp : Space} {vs : List Word} {m : Memory} {w : Nat} (h : m.wf sp) :
    (m.putWords sp w vs).wf sp := by
  induction vs generalizing m w with
  | nil => exact h
  | cons v vs ih => exact ih (Memory.wf_putWord h _ _)

/-- Bytes outside the words written read as before. -/
theorem Memory.byte_putWords_outside {sp : Space} {vs : List Word} {m : Memory} {w x : Nat} (ep : Nat)
    (h : x / 4 < w ∨ w + vs.length ≤ x / 4) : (m.putWords sp w vs).byte sp ep x = m.byte sp ep x := by
  induction vs generalizing m w with
  | nil => rfl
  | cons v vs ih =>
    simp only [List.length_cons] at h
    rw [Memory.putWords, ih (by omega), Memory.byte_putWord, if_neg (by omega)]

/-- Words outside those written read as before. -/
theorem Memory.word_putWords_outside {sp : Space} {vs : List Word} {m : Memory} {w u : Nat} (ep : Nat)
    (h : u < w ∨ w + vs.length ≤ u) : (m.putWords sp w vs).word sp ep u = m.word sp ep u :=
  Memory.word_congr fun k hk => Memory.byte_putWords_outside ep (by omega)

/-- The words written read back, where they lie inside the capacity. -/
theorem Memory.word_putWords_inside {sp : Space} {vs : List Word} {m : Memory} {w k : Nat} {v : Word} (ep : Nat)
    (hk : vs[k]? = some v) (hc : 32 * (w + k + 1) ≤ capacityBits sp) :
    (m.putWords sp w vs).word sp ep (w + k) = v := by
  induction vs generalizing m w k with
  | nil => simp at hk
  | cons u us ih =>
    cases k with
    | zero =>
      simp at hk; subst hk
      rw [Memory.putWords, Memory.word_putWords_outside ep (by omega), Nat.add_zero]
      exact Memory.word_putWord_same hc ep u
    | succ k =>
      rw [Memory.putWords, show w + (k + 1) = w + 1 + k by omega]
      exact ih (by simpa using hk) (by omega)

/-! ### Bits -/

theorem getLsbD_setBit (b : Byte) (k j : Nat) (v : Bool) (hk : k < 8) :
    (setBit b k v).getLsbD j = if j = k then v else b.getLsbD j := by
  unfold setBit
  by_cases hj : j < 8
  · cases v
    · rw [if_neg (by simp), BitVec.getLsbD_and, BitVec.getLsbD_not, BitVec.getLsbD_shiftLeft]
      by_cases h : j = k
      · subst h; simp [hk]
      · simp only [h, if_false, hj, decide_true, Bool.true_and, BitVec.getLsbD_one]
        by_cases hl : j < k
        · simp [hl]
        · simp [hl, show j - k ≠ 0 by omega]
    · rw [if_pos rfl, BitVec.getLsbD_or, BitVec.getLsbD_shiftLeft]
      by_cases h : j = k
      · subst h; simp [hk]
      · simp only [h, if_false, hj, decide_true, Bool.true_and, BitVec.getLsbD_one]
        by_cases hl : j < k
        · simp [hl]
        · simp [hl, show j - k ≠ 0 by omega]
  · rw [BitVec.getLsbD_of_ge _ _ (by omega), if_neg (by omega), BitVec.getLsbD_of_ge _ _ (by omega)]

/-- What a byte reads after a bit write. -/
theorem Memory.byte_putBit (sp : Space) (ep : Nat) (m : Memory) (i x : Nat) (v : Bool) :
    (m.putBit sp ep i v).byte sp ep x =
      if i / 8 = x then setBit (m.byte sp ep (i / 8)) (i % 8) v &&& byteMask sp (i / 8) else m.byte sp ep x :=
  Memory.byte_putByte sp ep m (i / 8) x _

/-- Reading a bit after a bit write inside the capacity. -/
theorem Memory.bit_putBit {sp : Space} {i : Nat} (hi : i < capacityBits sp) (ep : Nat) (m : Memory) (x : Nat)
    (v : Bool) : (m.putBit sp ep i v).bit sp ep x = if i = x then v else m.bit sp ep x := by
  simp only [Memory.bit, Memory.byte_putBit]
  by_cases hb : i / 8 = x / 8
  · rw [if_pos hb, hb, BitVec.getLsbD_and, getLsbD_byteMask _ _ _ (by omega), getLsbD_setBit _ _ _ _ (by omega)]
    by_cases he : x % 8 = i % 8
    · rw [if_pos he, if_pos (by omega), decide_eq_true (by omega), Bool.and_true]
    · rw [if_neg he, if_neg (by omega), ← getLsbD_byteMask sp _ _ (by omega), ← BitVec.getLsbD_and,
        Memory.byte_masked]
  · rw [if_neg hb, if_neg (by omega)]

theorem Memory.wf_putBit {sp : Space} {m : Memory} (h : m.wf sp) (ep i : Nat) (v : Bool) :
    (m.putBit sp ep i v).wf sp := Memory.wf_putByte h _ _

theorem Memory.wf_putBits {sp : Space} {ep : Nat} {vs : List Bool} {m : Memory} {i : Nat} (h : m.wf sp) :
    (m.putBits sp ep i vs).wf sp := by
  induction vs generalizing m i with
  | nil => exact h
  | cons v vs ih => exact ih (Memory.wf_putBit h _ _ _)

/-- Bytes that hold none of the bits written read as before. -/
theorem Memory.byte_putBits_outside {sp : Space} {ep : Nat} {vs : List Bool} {m : Memory} {i x : Nat}
    (h : 8 * x + 8 ≤ i ∨ i + vs.length ≤ 8 * x) : (m.putBits sp ep i vs).byte sp ep x = m.byte sp ep x := by
  induction vs generalizing m i with
  | nil => rfl
  | cons v vs ih =>
    simp only [List.length_cons] at h
    rw [Memory.putBits, ih (by omega), Memory.byte_putBit, if_neg (by omega)]

/-- Bits outside those written, inside the capacity, read as before. -/
theorem Memory.bit_putBits_outside {sp : Space} {ep : Nat} {vs : List Bool} {m : Memory} {i x : Nat}
    (hc : i + vs.length ≤ capacityBits sp) (h : x < i ∨ i + vs.length ≤ x) :
    (m.putBits sp ep i vs).bit sp ep x = m.bit sp ep x := by
  induction vs generalizing m i with
  | nil => rfl
  | cons v vs ih =>
    simp only [List.length_cons] at h hc
    rw [Memory.putBits, ih (by omega) (by omega), Memory.bit_putBit (by omega), if_neg (by omega)]

/-- The bits written, inside the capacity, read back. -/
theorem Memory.bit_putBits_inside {sp : Space} {ep : Nat} {vs : List Bool} {m : Memory} {i k : Nat} {v : Bool}
    (hc : i + vs.length ≤ capacityBits sp) (hk : vs[k]? = some v) : (m.putBits sp ep i vs).bit sp ep (i + k) = v := by
  induction vs generalizing m i k with
  | nil => simp at hk
  | cons u us ih =>
    simp only [List.length_cons] at hc
    cases k with
    | zero =>
      simp at hk; subst hk
      rw [Memory.putBits, Memory.bit_putBits_outside (by omega) (by omega), Memory.bit_putBit (by omega),
        if_pos (by omega)]
    | succ k =>
      rw [Memory.putBits, show i + (k + 1) = i + 1 + k by omega]
      exact ih (by omega) (by simpa using hk)

/-! ### Runs of bytes -/

theorem Memory.wf_putBytes {sp : Space} {bs : List Byte} {m : Memory} {a : Nat} (h : m.wf sp) :
    (m.putBytes sp a bs).wf sp := by
  induction bs generalizing m a with
  | nil => exact h
  | cons b bs ih => exact ih (Memory.wf_putByte h _ _)

/-- Bytes outside those written read as before. -/
theorem Memory.byte_putBytes_outside {sp : Space} {bs : List Byte} {m : Memory} {a x : Nat} (ep : Nat)
    (h : x < a ∨ a + bs.length ≤ x) : (m.putBytes sp a bs).byte sp ep x = m.byte sp ep x := by
  induction bs generalizing m a with
  | nil => rfl
  | cons b bs ih =>
    simp only [List.length_cons] at h
    rw [Memory.putBytes, ih (by omega), Memory.byte_putByte, if_neg (by omega)]

/-- The bytes written, inside the capacity, read back. -/
theorem Memory.byte_putBytes_inside {sp : Space} {bs : List Byte} {m : Memory} {a k : Nat} {b : Byte} (ep : Nat)
    (hc : 8 * (a + bs.length) ≤ capacityBits sp) (hk : bs[k]? = some b) :
    (m.putBytes sp a bs).byte sp ep (a + k) = b := by
  induction bs generalizing m a k with
  | nil => simp at hk
  | cons c cs ih =>
    simp only [List.length_cons] at hc
    cases k with
    | zero =>
      simp at hk; subst hk
      have hf : byteMask sp a = BitVec.allOnes 8 := by rw [byteMask_full (by omega)]; rfl
      rw [Memory.putBytes, Memory.byte_putBytes_outside ep (by omega), Memory.byte_putByte, if_pos (by omega), hf,
        BitVec.and_allOnes]
    | succ k =>
      rw [Memory.putBytes, show a + (k + 1) = a + 1 + k by omega]
      exact ih (by omega) (by simpa using hk)

end Sys2Proof.Machine
end

