-- ==== Sys2Proof/Laws/State.lean ====
section
/-! SUPPORT. One lemma per field per named update of the state, so that no later proof unfolds a record update.
The proofs are `(rfl)`, not `rfl`, so that `simp` rewrites with them and leaves no definitional comparison of two whole
states to the kernel. -/

namespace Sys2Proof.Machine

/-! ### `State.complete` -/

@[simp] theorem State.complete_cmd (s : State) (c : ResultCode) : (s.complete c).cmd = s.cmd := (rfl)
@[simp] theorem State.complete_busy (s : State) (c : ResultCode) : (s.complete c).busy = false := (rfl)
@[simp] theorem State.complete_done (s : State) (c : ResultCode) : (s.complete c).done = true := (rfl)
@[simp] theorem State.complete_ovr (s : State) (c : ResultCode) : (s.complete c).ovr = s.ovr := (rfl)
@[simp] theorem State.complete_res (s : State) (c : ResultCode) : (s.complete c).res = c := (rfl)
@[simp] theorem State.complete_ie (s : State) (c : ResultCode) : (s.complete c).ie = s.ie := (rfl)
@[simp] theorem State.complete_capLen (s : State) (c : ResultCode) : (s.complete c).capLen = s.capLen := (rfl)
@[simp] theorem State.complete_capRate (s : State) (c : ResultCode) : (s.complete c).capRate = s.capRate := (rfl)
@[simp] theorem State.complete_capFreqLo (s : State) (c : ResultCode) : (s.complete c).capFreqLo = s.capFreqLo := (rfl)
@[simp] theorem State.complete_capFreqHi (s : State) (c : ResultCode) : (s.complete c).capFreqHi = s.capFreqHi := (rfl)
@[simp] theorem State.complete_capTsLo (s : State) (c : ResultCode) : (s.complete c).capTsLo = s.capTsLo := (rfl)
@[simp] theorem State.complete_capTsHi (s : State) (c : ResultCode) : (s.complete c).capTsHi = s.capTsHi := (rfl)
@[simp] theorem State.complete_bdNfound (s : State) (c : ResultCode) : (s.complete c).bdNfound = s.bdNfound := (rfl)
@[simp] theorem State.complete_bdNcand (s : State) (c : ResultCode) : (s.complete c).bdNcand = s.bdNcand := (rfl)
@[simp] theorem State.complete_bdLastoff (s : State) (c : ResultCode) : (s.complete c).bdLastoff = s.bdLastoff := (rfl)
@[simp] theorem State.complete_cfoStart (s : State) (c : ResultCode) : (s.complete c).cfoStart = s.cfoStart := (rfl)
@[simp] theorem State.complete_cfoEnd (s : State) (c : ResultCode) : (s.complete c).cfoEnd = s.cfoEnd := (rfl)
@[simp] theorem State.complete_cfoOffset (s : State) (c : ResultCode) : (s.complete c).cfoOffset = s.cfoOffset := (rfl)
@[simp] theorem State.complete_cfoFound (s : State) (c : ResultCode) : (s.complete c).cfoFound = s.cfoFound := (rfl)
@[simp] theorem State.complete_cfoComputable (s : State) (c : ResultCode) : (s.complete c).cfoComputable = s.cfoComputable := (rfl)
@[simp] theorem State.complete_cand0 (s : State) (c : ResultCode) : (s.complete c).cand0 = s.cand0 := (rfl)
@[simp] theorem State.complete_cand1 (s : State) (c : ResultCode) : (s.complete c).cand1 = s.cand1 := (rfl)
@[simp] theorem State.complete_cand2 (s : State) (c : ResultCode) : (s.complete c).cand2 = s.cand2 := (rfl)
@[simp] theorem State.complete_burLen (s : State) (c : ResultCode) : (s.complete c).burLen = s.burLen := (rfl)
@[simp] theorem State.complete_sxNgrp (s : State) (c : ResultCode) : (s.complete c).sxNgrp = s.sxNgrp := (rfl)
@[simp] theorem State.complete_symCount (s : State) (c : ResultCode) : (s.complete c).symCount = s.symCount := (rfl)
@[simp] theorem State.complete_goldSeed (s : State) (c : ResultCode) : (s.complete c).goldSeed = s.goldSeed := (rfl)
@[simp] theorem State.complete_rawLen (s : State) (c : ResultCode) : (s.complete c).rawLen = s.rawLen := (rfl)
@[simp] theorem State.complete_demLen (s : State) (c : ResultCode) : (s.complete c).demLen = s.demLen := (rfl)
@[simp] theorem State.complete_dscLen (s : State) (c : ResultCode) : (s.complete c).dscLen = s.dscLen := (rfl)
@[simp] theorem State.complete_frmLen (s : State) (c : ResultCode) : (s.complete c).frmLen = s.frmLen := (rfl)
@[simp] theorem State.complete_pdHyp (s : State) (c : ResultCode) : (s.complete c).pdHyp = s.pdHyp := (rfl)
@[simp] theorem State.complete_pdOk (s : State) (c : ResultCode) : (s.complete c).pdOk = s.pdOk := (rfl)
@[simp] theorem State.complete_pdLenx (s : State) (c : ResultCode) : (s.complete c).pdLenx = s.pdLenx := (rfl)
@[simp] theorem State.complete_pdAtt (s : State) (c : ResultCode) : (s.complete c).pdAtt = s.pdAtt := (rfl)
@[simp] theorem State.complete_crcCalc (s : State) (c : ResultCode) : (s.complete c).crcCalc = s.crcCalc := (rfl)
@[simp] theorem State.complete_crcRx (s : State) (c : ResultCode) : (s.complete c).crcRx = s.crcRx := (rfl)
@[simp] theorem State.complete_crcValid (s : State) (c : ResultCode) : (s.complete c).crcValid = s.crcValid := (rfl)
@[simp] theorem State.complete_cap (s : State) (c : ResultCode) : (s.complete c).cap = s.cap := (rfl)
@[simp] theorem State.complete_bur (s : State) (c : ResultCode) : (s.complete c).bur = s.bur := (rfl)
@[simp] theorem State.complete_sym (s : State) (c : ResultCode) : (s.complete c).sym = s.sym := (rfl)
@[simp] theorem State.complete_glen (s : State) (c : ResultCode) : (s.complete c).glen = s.glen := (rfl)
@[simp] theorem State.complete_raw (s : State) (c : ResultCode) : (s.complete c).raw = s.raw := (rfl)
@[simp] theorem State.complete_dem (s : State) (c : ResultCode) : (s.complete c).dem = s.dem := (rfl)
@[simp] theorem State.complete_dsc (s : State) (c : ResultCode) : (s.complete c).dsc = s.dsc := (rfl)
@[simp] theorem State.complete_frm (s : State) (c : ResultCode) : (s.complete c).frm = s.frm := (rfl)
@[simp] theorem State.complete_host (s : State) (c : ResultCode) : (s.complete c).host = s.host := (rfl)
@[simp] theorem State.complete_busData (s : State) (c : ResultCode) : (s.complete c).busData = s.busData := (rfl)
@[simp] theorem State.complete_delay (s : State) (c : ResultCode) : (s.complete c).delay = s.delay := (rfl)
@[simp] theorem State.complete_draws (s : State) (c : ResultCode) : (s.complete c).draws = s.draws := (rfl)
@[simp] theorem State.complete_resets (s : State) (c : ResultCode) : (s.complete c).resets = s.resets := (rfl)

/-! ### `State.accept` -/

@[simp] theorem State.accept_cmd (s : State) (w : Word) : (s.accept w).cmd = w := (rfl)
@[simp] theorem State.accept_busy (s : State) (w : Word) : (s.accept w).busy = true := (rfl)
@[simp] theorem State.accept_done (s : State) (w : Word) : (s.accept w).done = false := (rfl)
@[simp] theorem State.accept_ovr (s : State) (w : Word) : (s.accept w).ovr = s.ovr := (rfl)
@[simp] theorem State.accept_res (s : State) (w : Word) : (s.accept w).res = s.res := (rfl)
@[simp] theorem State.accept_ie (s : State) (w : Word) : (s.accept w).ie = s.ie := (rfl)
@[simp] theorem State.accept_capLen (s : State) (w : Word) : (s.accept w).capLen = s.capLen := (rfl)
@[simp] theorem State.accept_capRate (s : State) (w : Word) : (s.accept w).capRate = s.capRate := (rfl)
@[simp] theorem State.accept_capFreqLo (s : State) (w : Word) : (s.accept w).capFreqLo = s.capFreqLo := (rfl)
@[simp] theorem State.accept_capFreqHi (s : State) (w : Word) : (s.accept w).capFreqHi = s.capFreqHi := (rfl)
@[simp] theorem State.accept_capTsLo (s : State) (w : Word) : (s.accept w).capTsLo = s.capTsLo := (rfl)
@[simp] theorem State.accept_capTsHi (s : State) (w : Word) : (s.accept w).capTsHi = s.capTsHi := (rfl)
@[simp] theorem State.accept_bdNfound (s : State) (w : Word) : (s.accept w).bdNfound = s.bdNfound := (rfl)
@[simp] theorem State.accept_bdNcand (s : State) (w : Word) : (s.accept w).bdNcand = s.bdNcand := (rfl)
@[simp] theorem State.accept_bdLastoff (s : State) (w : Word) : (s.accept w).bdLastoff = s.bdLastoff := (rfl)
@[simp] theorem State.accept_cfoStart (s : State) (w : Word) : (s.accept w).cfoStart = s.cfoStart := (rfl)
@[simp] theorem State.accept_cfoEnd (s : State) (w : Word) : (s.accept w).cfoEnd = s.cfoEnd := (rfl)
@[simp] theorem State.accept_cfoOffset (s : State) (w : Word) : (s.accept w).cfoOffset = s.cfoOffset := (rfl)
@[simp] theorem State.accept_cfoFound (s : State) (w : Word) : (s.accept w).cfoFound = s.cfoFound := (rfl)
@[simp] theorem State.accept_cfoComputable (s : State) (w : Word) : (s.accept w).cfoComputable = s.cfoComputable := (rfl)
@[simp] theorem State.accept_cand0 (s : State) (w : Word) : (s.accept w).cand0 = s.cand0 := (rfl)
@[simp] theorem State.accept_cand1 (s : State) (w : Word) : (s.accept w).cand1 = s.cand1 := (rfl)
@[simp] theorem State.accept_cand2 (s : State) (w : Word) : (s.accept w).cand2 = s.cand2 := (rfl)
@[simp] theorem State.accept_burLen (s : State) (w : Word) : (s.accept w).burLen = s.burLen := (rfl)
@[simp] theorem State.accept_sxNgrp (s : State) (w : Word) : (s.accept w).sxNgrp = s.sxNgrp := (rfl)
@[simp] theorem State.accept_symCount (s : State) (w : Word) : (s.accept w).symCount = s.symCount := (rfl)
@[simp] theorem State.accept_goldSeed (s : State) (w : Word) : (s.accept w).goldSeed = s.goldSeed := (rfl)
@[simp] theorem State.accept_rawLen (s : State) (w : Word) : (s.accept w).rawLen = s.rawLen := (rfl)
@[simp] theorem State.accept_demLen (s : State) (w : Word) : (s.accept w).demLen = s.demLen := (rfl)
@[simp] theorem State.accept_dscLen (s : State) (w : Word) : (s.accept w).dscLen = s.dscLen := (rfl)
@[simp] theorem State.accept_frmLen (s : State) (w : Word) : (s.accept w).frmLen = s.frmLen := (rfl)
@[simp] theorem State.accept_pdHyp (s : State) (w : Word) : (s.accept w).pdHyp = s.pdHyp := (rfl)
@[simp] theorem State.accept_pdOk (s : State) (w : Word) : (s.accept w).pdOk = s.pdOk := (rfl)
@[simp] theorem State.accept_pdLenx (s : State) (w : Word) : (s.accept w).pdLenx = s.pdLenx := (rfl)
@[simp] theorem State.accept_pdAtt (s : State) (w : Word) : (s.accept w).pdAtt = s.pdAtt := (rfl)
@[simp] theorem State.accept_crcCalc (s : State) (w : Word) : (s.accept w).crcCalc = s.crcCalc := (rfl)
@[simp] theorem State.accept_crcRx (s : State) (w : Word) : (s.accept w).crcRx = s.crcRx := (rfl)
@[simp] theorem State.accept_crcValid (s : State) (w : Word) : (s.accept w).crcValid = s.crcValid := (rfl)
@[simp] theorem State.accept_cap (s : State) (w : Word) : (s.accept w).cap = s.cap := (rfl)
@[simp] theorem State.accept_bur (s : State) (w : Word) : (s.accept w).bur = s.bur := (rfl)
@[simp] theorem State.accept_sym (s : State) (w : Word) : (s.accept w).sym = s.sym := (rfl)
@[simp] theorem State.accept_glen (s : State) (w : Word) : (s.accept w).glen = s.glen := (rfl)
@[simp] theorem State.accept_raw (s : State) (w : Word) : (s.accept w).raw = s.raw := (rfl)
@[simp] theorem State.accept_dem (s : State) (w : Word) : (s.accept w).dem = s.dem := (rfl)
@[simp] theorem State.accept_dsc (s : State) (w : Word) : (s.accept w).dsc = s.dsc := (rfl)
@[simp] theorem State.accept_frm (s : State) (w : Word) : (s.accept w).frm = s.frm := (rfl)
@[simp] theorem State.accept_host (s : State) (w : Word) : (s.accept w).host = s.host := (rfl)
@[simp] theorem State.accept_busData (s : State) (w : Word) : (s.accept w).busData = s.busData := (rfl)
@[simp] theorem State.accept_delay (s : State) (w : Word) : (s.accept w).delay = commandTime s.draws w := (rfl)
@[simp] theorem State.accept_draws (s : State) (w : Word) : (s.accept w).draws = s.draws + 1 := (rfl)
@[simp] theorem State.accept_resets (s : State) (w : Word) : (s.accept w).resets = s.resets := (rfl)

/-! ### `State.writeStatus` -/

@[simp] theorem State.writeStatus_cmd (s : State) (v : Word) : (s.writeStatus v).cmd = s.cmd := (rfl)
@[simp] theorem State.writeStatus_busy (s : State) (v : Word) : (s.writeStatus v).busy = s.busy := (rfl)
@[simp] theorem State.writeStatus_done (s : State) (v : Word) : (s.writeStatus v).done = (s.done && !v.getLsbD 1) := (rfl)
@[simp] theorem State.writeStatus_ovr (s : State) (v : Word) : (s.writeStatus v).ovr = (s.ovr && !v.getLsbD 2) := (rfl)
@[simp] theorem State.writeStatus_res (s : State) (v : Word) : (s.writeStatus v).res = s.res := (rfl)
@[simp] theorem State.writeStatus_ie (s : State) (v : Word) : (s.writeStatus v).ie = s.ie := (rfl)
@[simp] theorem State.writeStatus_capLen (s : State) (v : Word) : (s.writeStatus v).capLen = s.capLen := (rfl)
@[simp] theorem State.writeStatus_capRate (s : State) (v : Word) : (s.writeStatus v).capRate = s.capRate := (rfl)
@[simp] theorem State.writeStatus_capFreqLo (s : State) (v : Word) : (s.writeStatus v).capFreqLo = s.capFreqLo := (rfl)
@[simp] theorem State.writeStatus_capFreqHi (s : State) (v : Word) : (s.writeStatus v).capFreqHi = s.capFreqHi := (rfl)
@[simp] theorem State.writeStatus_capTsLo (s : State) (v : Word) : (s.writeStatus v).capTsLo = s.capTsLo := (rfl)
@[simp] theorem State.writeStatus_capTsHi (s : State) (v : Word) : (s.writeStatus v).capTsHi = s.capTsHi := (rfl)
@[simp] theorem State.writeStatus_bdNfound (s : State) (v : Word) : (s.writeStatus v).bdNfound = s.bdNfound := (rfl)
@[simp] theorem State.writeStatus_bdNcand (s : State) (v : Word) : (s.writeStatus v).bdNcand = s.bdNcand := (rfl)
@[simp] theorem State.writeStatus_bdLastoff (s : State) (v : Word) : (s.writeStatus v).bdLastoff = s.bdLastoff := (rfl)
@[simp] theorem State.writeStatus_cfoStart (s : State) (v : Word) : (s.writeStatus v).cfoStart = s.cfoStart := (rfl)
@[simp] theorem State.writeStatus_cfoEnd (s : State) (v : Word) : (s.writeStatus v).cfoEnd = s.cfoEnd := (rfl)
@[simp] theorem State.writeStatus_cfoOffset (s : State) (v : Word) : (s.writeStatus v).cfoOffset = s.cfoOffset := (rfl)
@[simp] theorem State.writeStatus_cfoFound (s : State) (v : Word) : (s.writeStatus v).cfoFound = s.cfoFound := (rfl)
@[simp] theorem State.writeStatus_cfoComputable (s : State) (v : Word) : (s.writeStatus v).cfoComputable = s.cfoComputable := (rfl)
@[simp] theorem State.writeStatus_cand0 (s : State) (v : Word) : (s.writeStatus v).cand0 = s.cand0 := (rfl)
@[simp] theorem State.writeStatus_cand1 (s : State) (v : Word) : (s.writeStatus v).cand1 = s.cand1 := (rfl)
@[simp] theorem State.writeStatus_cand2 (s : State) (v : Word) : (s.writeStatus v).cand2 = s.cand2 := (rfl)
@[simp] theorem State.writeStatus_burLen (s : State) (v : Word) : (s.writeStatus v).burLen = s.burLen := (rfl)
@[simp] theorem State.writeStatus_sxNgrp (s : State) (v : Word) : (s.writeStatus v).sxNgrp = s.sxNgrp := (rfl)
@[simp] theorem State.writeStatus_symCount (s : State) (v : Word) : (s.writeStatus v).symCount = s.symCount := (rfl)
@[simp] theorem State.writeStatus_goldSeed (s : State) (v : Word) : (s.writeStatus v).goldSeed = s.goldSeed := (rfl)
@[simp] theorem State.writeStatus_rawLen (s : State) (v : Word) : (s.writeStatus v).rawLen = s.rawLen := (rfl)
@[simp] theorem State.writeStatus_demLen (s : State) (v : Word) : (s.writeStatus v).demLen = s.demLen := (rfl)
@[simp] theorem State.writeStatus_dscLen (s : State) (v : Word) : (s.writeStatus v).dscLen = s.dscLen := (rfl)
@[simp] theorem State.writeStatus_frmLen (s : State) (v : Word) : (s.writeStatus v).frmLen = s.frmLen := (rfl)
@[simp] theorem State.writeStatus_pdHyp (s : State) (v : Word) : (s.writeStatus v).pdHyp = s.pdHyp := (rfl)
@[simp] theorem State.writeStatus_pdOk (s : State) (v : Word) : (s.writeStatus v).pdOk = s.pdOk := (rfl)
@[simp] theorem State.writeStatus_pdLenx (s : State) (v : Word) : (s.writeStatus v).pdLenx = s.pdLenx := (rfl)
@[simp] theorem State.writeStatus_pdAtt (s : State) (v : Word) : (s.writeStatus v).pdAtt = s.pdAtt := (rfl)
@[simp] theorem State.writeStatus_crcCalc (s : State) (v : Word) : (s.writeStatus v).crcCalc = s.crcCalc := (rfl)
@[simp] theorem State.writeStatus_crcRx (s : State) (v : Word) : (s.writeStatus v).crcRx = s.crcRx := (rfl)
@[simp] theorem State.writeStatus_crcValid (s : State) (v : Word) : (s.writeStatus v).crcValid = s.crcValid := (rfl)
@[simp] theorem State.writeStatus_cap (s : State) (v : Word) : (s.writeStatus v).cap = s.cap := (rfl)
@[simp] theorem State.writeStatus_bur (s : State) (v : Word) : (s.writeStatus v).bur = s.bur := (rfl)
@[simp] theorem State.writeStatus_sym (s : State) (v : Word) : (s.writeStatus v).sym = s.sym := (rfl)
@[simp] theorem State.writeStatus_glen (s : State) (v : Word) : (s.writeStatus v).glen = s.glen := (rfl)
@[simp] theorem State.writeStatus_raw (s : State) (v : Word) : (s.writeStatus v).raw = s.raw := (rfl)
@[simp] theorem State.writeStatus_dem (s : State) (v : Word) : (s.writeStatus v).dem = s.dem := (rfl)
@[simp] theorem State.writeStatus_dsc (s : State) (v : Word) : (s.writeStatus v).dsc = s.dsc := (rfl)
@[simp] theorem State.writeStatus_frm (s : State) (v : Word) : (s.writeStatus v).frm = s.frm := (rfl)
@[simp] theorem State.writeStatus_host (s : State) (v : Word) : (s.writeStatus v).host = s.host := (rfl)
@[simp] theorem State.writeStatus_busData (s : State) (v : Word) : (s.writeStatus v).busData = s.busData := (rfl)
@[simp] theorem State.writeStatus_delay (s : State) (v : Word) : (s.writeStatus v).delay = s.delay := (rfl)
@[simp] theorem State.writeStatus_draws (s : State) (v : Word) : (s.writeStatus v).draws = s.draws := (rfl)
@[simp] theorem State.writeStatus_resets (s : State) (v : Word) : (s.writeStatus v).resets = s.resets := (rfl)

/-! ### `State.clearCrc` -/

@[simp] theorem State.clearCrc_cmd (s : State) : (s.clearCrc).cmd = s.cmd := (rfl)
@[simp] theorem State.clearCrc_busy (s : State) : (s.clearCrc).busy = s.busy := (rfl)
@[simp] theorem State.clearCrc_done (s : State) : (s.clearCrc).done = s.done := (rfl)
@[simp] theorem State.clearCrc_ovr (s : State) : (s.clearCrc).ovr = s.ovr := (rfl)
@[simp] theorem State.clearCrc_res (s : State) : (s.clearCrc).res = s.res := (rfl)
@[simp] theorem State.clearCrc_ie (s : State) : (s.clearCrc).ie = s.ie := (rfl)
@[simp] theorem State.clearCrc_capLen (s : State) : (s.clearCrc).capLen = s.capLen := (rfl)
@[simp] theorem State.clearCrc_capRate (s : State) : (s.clearCrc).capRate = s.capRate := (rfl)
@[simp] theorem State.clearCrc_capFreqLo (s : State) : (s.clearCrc).capFreqLo = s.capFreqLo := (rfl)
@[simp] theorem State.clearCrc_capFreqHi (s : State) : (s.clearCrc).capFreqHi = s.capFreqHi := (rfl)
@[simp] theorem State.clearCrc_capTsLo (s : State) : (s.clearCrc).capTsLo = s.capTsLo := (rfl)
@[simp] theorem State.clearCrc_capTsHi (s : State) : (s.clearCrc).capTsHi = s.capTsHi := (rfl)
@[simp] theorem State.clearCrc_bdNfound (s : State) : (s.clearCrc).bdNfound = s.bdNfound := (rfl)
@[simp] theorem State.clearCrc_bdNcand (s : State) : (s.clearCrc).bdNcand = s.bdNcand := (rfl)
@[simp] theorem State.clearCrc_bdLastoff (s : State) : (s.clearCrc).bdLastoff = s.bdLastoff := (rfl)
@[simp] theorem State.clearCrc_cfoStart (s : State) : (s.clearCrc).cfoStart = s.cfoStart := (rfl)
@[simp] theorem State.clearCrc_cfoEnd (s : State) : (s.clearCrc).cfoEnd = s.cfoEnd := (rfl)
@[simp] theorem State.clearCrc_cfoOffset (s : State) : (s.clearCrc).cfoOffset = s.cfoOffset := (rfl)
@[simp] theorem State.clearCrc_cfoFound (s : State) : (s.clearCrc).cfoFound = s.cfoFound := (rfl)
@[simp] theorem State.clearCrc_cfoComputable (s : State) : (s.clearCrc).cfoComputable = s.cfoComputable := (rfl)
@[simp] theorem State.clearCrc_cand0 (s : State) : (s.clearCrc).cand0 = s.cand0 := (rfl)
@[simp] theorem State.clearCrc_cand1 (s : State) : (s.clearCrc).cand1 = s.cand1 := (rfl)
@[simp] theorem State.clearCrc_cand2 (s : State) : (s.clearCrc).cand2 = s.cand2 := (rfl)
@[simp] theorem State.clearCrc_burLen (s : State) : (s.clearCrc).burLen = s.burLen := (rfl)
@[simp] theorem State.clearCrc_sxNgrp (s : State) : (s.clearCrc).sxNgrp = s.sxNgrp := (rfl)
@[simp] theorem State.clearCrc_symCount (s : State) : (s.clearCrc).symCount = s.symCount := (rfl)
@[simp] theorem State.clearCrc_goldSeed (s : State) : (s.clearCrc).goldSeed = s.goldSeed := (rfl)
@[simp] theorem State.clearCrc_rawLen (s : State) : (s.clearCrc).rawLen = s.rawLen := (rfl)
@[simp] theorem State.clearCrc_demLen (s : State) : (s.clearCrc).demLen = s.demLen := (rfl)
@[simp] theorem State.clearCrc_dscLen (s : State) : (s.clearCrc).dscLen = s.dscLen := (rfl)
@[simp] theorem State.clearCrc_frmLen (s : State) : (s.clearCrc).frmLen = s.frmLen := (rfl)
@[simp] theorem State.clearCrc_pdHyp (s : State) : (s.clearCrc).pdHyp = s.pdHyp := (rfl)
@[simp] theorem State.clearCrc_pdOk (s : State) : (s.clearCrc).pdOk = s.pdOk := (rfl)
@[simp] theorem State.clearCrc_pdLenx (s : State) : (s.clearCrc).pdLenx = s.pdLenx := (rfl)
@[simp] theorem State.clearCrc_pdAtt (s : State) : (s.clearCrc).pdAtt = s.pdAtt := (rfl)
@[simp] theorem State.clearCrc_crcCalc (s : State) : (s.clearCrc).crcCalc = 0#16 := (rfl)
@[simp] theorem State.clearCrc_crcRx (s : State) : (s.clearCrc).crcRx = 0#16 := (rfl)
@[simp] theorem State.clearCrc_crcValid (s : State) : (s.clearCrc).crcValid = false := (rfl)
@[simp] theorem State.clearCrc_cap (s : State) : (s.clearCrc).cap = s.cap := (rfl)
@[simp] theorem State.clearCrc_bur (s : State) : (s.clearCrc).bur = s.bur := (rfl)
@[simp] theorem State.clearCrc_sym (s : State) : (s.clearCrc).sym = s.sym := (rfl)
@[simp] theorem State.clearCrc_glen (s : State) : (s.clearCrc).glen = s.glen := (rfl)
@[simp] theorem State.clearCrc_raw (s : State) : (s.clearCrc).raw = s.raw := (rfl)
@[simp] theorem State.clearCrc_dem (s : State) : (s.clearCrc).dem = s.dem := (rfl)
@[simp] theorem State.clearCrc_dsc (s : State) : (s.clearCrc).dsc = s.dsc := (rfl)
@[simp] theorem State.clearCrc_frm (s : State) : (s.clearCrc).frm = s.frm := (rfl)
@[simp] theorem State.clearCrc_host (s : State) : (s.clearCrc).host = s.host := (rfl)
@[simp] theorem State.clearCrc_busData (s : State) : (s.clearCrc).busData = s.busData := (rfl)
@[simp] theorem State.clearCrc_delay (s : State) : (s.clearCrc).delay = s.delay := (rfl)
@[simp] theorem State.clearCrc_draws (s : State) : (s.clearCrc).draws = s.draws := (rfl)
@[simp] theorem State.clearCrc_resets (s : State) : (s.clearCrc).resets = s.resets := (rfl)

/-! ### `State.takeAction` -/

@[simp] theorem State.takeAction_cmd (s : State) (rest : List HostAction) : (s.takeAction rest).cmd = s.cmd := (rfl)
@[simp] theorem State.takeAction_busy (s : State) (rest : List HostAction) : (s.takeAction rest).busy = s.busy := (rfl)
@[simp] theorem State.takeAction_done (s : State) (rest : List HostAction) : (s.takeAction rest).done = s.done := (rfl)
@[simp] theorem State.takeAction_ovr (s : State) (rest : List HostAction) : (s.takeAction rest).ovr = s.ovr := (rfl)
@[simp] theorem State.takeAction_res (s : State) (rest : List HostAction) : (s.takeAction rest).res = s.res := (rfl)
@[simp] theorem State.takeAction_ie (s : State) (rest : List HostAction) : (s.takeAction rest).ie = s.ie := (rfl)
@[simp] theorem State.takeAction_capLen (s : State) (rest : List HostAction) : (s.takeAction rest).capLen = s.capLen := (rfl)
@[simp] theorem State.takeAction_capRate (s : State) (rest : List HostAction) : (s.takeAction rest).capRate = s.capRate := (rfl)
@[simp] theorem State.takeAction_capFreqLo (s : State) (rest : List HostAction) : (s.takeAction rest).capFreqLo = s.capFreqLo := (rfl)
@[simp] theorem State.takeAction_capFreqHi (s : State) (rest : List HostAction) : (s.takeAction rest).capFreqHi = s.capFreqHi := (rfl)
@[simp] theorem State.takeAction_capTsLo (s : State) (rest : List HostAction) : (s.takeAction rest).capTsLo = s.capTsLo := (rfl)
@[simp] theorem State.takeAction_capTsHi (s : State) (rest : List HostAction) : (s.takeAction rest).capTsHi = s.capTsHi := (rfl)
@[simp] theorem State.takeAction_bdNfound (s : State) (rest : List HostAction) : (s.takeAction rest).bdNfound = s.bdNfound := (rfl)
@[simp] theorem State.takeAction_bdNcand (s : State) (rest : List HostAction) : (s.takeAction rest).bdNcand = s.bdNcand := (rfl)
@[simp] theorem State.takeAction_bdLastoff (s : State) (rest : List HostAction) : (s.takeAction rest).bdLastoff = s.bdLastoff := (rfl)
@[simp] theorem State.takeAction_cfoStart (s : State) (rest : List HostAction) : (s.takeAction rest).cfoStart = s.cfoStart := (rfl)
@[simp] theorem State.takeAction_cfoEnd (s : State) (rest : List HostAction) : (s.takeAction rest).cfoEnd = s.cfoEnd := (rfl)
@[simp] theorem State.takeAction_cfoOffset (s : State) (rest : List HostAction) : (s.takeAction rest).cfoOffset = s.cfoOffset := (rfl)
@[simp] theorem State.takeAction_cfoFound (s : State) (rest : List HostAction) : (s.takeAction rest).cfoFound = s.cfoFound := (rfl)
@[simp] theorem State.takeAction_cfoComputable (s : State) (rest : List HostAction) : (s.takeAction rest).cfoComputable = s.cfoComputable := (rfl)
@[simp] theorem State.takeAction_cand0 (s : State) (rest : List HostAction) : (s.takeAction rest).cand0 = s.cand0 := (rfl)
@[simp] theorem State.takeAction_cand1 (s : State) (rest : List HostAction) : (s.takeAction rest).cand1 = s.cand1 := (rfl)
@[simp] theorem State.takeAction_cand2 (s : State) (rest : List HostAction) : (s.takeAction rest).cand2 = s.cand2 := (rfl)
@[simp] theorem State.takeAction_burLen (s : State) (rest : List HostAction) : (s.takeAction rest).burLen = s.burLen := (rfl)
@[simp] theorem State.takeAction_sxNgrp (s : State) (rest : List HostAction) : (s.takeAction rest).sxNgrp = s.sxNgrp := (rfl)
@[simp] theorem State.takeAction_symCount (s : State) (rest : List HostAction) : (s.takeAction rest).symCount = s.symCount := (rfl)
@[simp] theorem State.takeAction_goldSeed (s : State) (rest : List HostAction) : (s.takeAction rest).goldSeed = s.goldSeed := (rfl)
@[simp] theorem State.takeAction_rawLen (s : State) (rest : List HostAction) : (s.takeAction rest).rawLen = s.rawLen := (rfl)
@[simp] theorem State.takeAction_demLen (s : State) (rest : List HostAction) : (s.takeAction rest).demLen = s.demLen := (rfl)
@[simp] theorem State.takeAction_dscLen (s : State) (rest : List HostAction) : (s.takeAction rest).dscLen = s.dscLen := (rfl)
@[simp] theorem State.takeAction_frmLen (s : State) (rest : List HostAction) : (s.takeAction rest).frmLen = s.frmLen := (rfl)
@[simp] theorem State.takeAction_pdHyp (s : State) (rest : List HostAction) : (s.takeAction rest).pdHyp = s.pdHyp := (rfl)
@[simp] theorem State.takeAction_pdOk (s : State) (rest : List HostAction) : (s.takeAction rest).pdOk = s.pdOk := (rfl)
@[simp] theorem State.takeAction_pdLenx (s : State) (rest : List HostAction) : (s.takeAction rest).pdLenx = s.pdLenx := (rfl)
@[simp] theorem State.takeAction_pdAtt (s : State) (rest : List HostAction) : (s.takeAction rest).pdAtt = s.pdAtt := (rfl)
@[simp] theorem State.takeAction_crcCalc (s : State) (rest : List HostAction) : (s.takeAction rest).crcCalc = s.crcCalc := (rfl)
@[simp] theorem State.takeAction_crcRx (s : State) (rest : List HostAction) : (s.takeAction rest).crcRx = s.crcRx := (rfl)
@[simp] theorem State.takeAction_crcValid (s : State) (rest : List HostAction) : (s.takeAction rest).crcValid = s.crcValid := (rfl)
@[simp] theorem State.takeAction_cap (s : State) (rest : List HostAction) : (s.takeAction rest).cap = s.cap := (rfl)
@[simp] theorem State.takeAction_bur (s : State) (rest : List HostAction) : (s.takeAction rest).bur = s.bur := (rfl)
@[simp] theorem State.takeAction_sym (s : State) (rest : List HostAction) : (s.takeAction rest).sym = s.sym := (rfl)
@[simp] theorem State.takeAction_glen (s : State) (rest : List HostAction) : (s.takeAction rest).glen = s.glen := (rfl)
@[simp] theorem State.takeAction_raw (s : State) (rest : List HostAction) : (s.takeAction rest).raw = s.raw := (rfl)
@[simp] theorem State.takeAction_dem (s : State) (rest : List HostAction) : (s.takeAction rest).dem = s.dem := (rfl)
@[simp] theorem State.takeAction_dsc (s : State) (rest : List HostAction) : (s.takeAction rest).dsc = s.dsc := (rfl)
@[simp] theorem State.takeAction_frm (s : State) (rest : List HostAction) : (s.takeAction rest).frm = s.frm := (rfl)
@[simp] theorem State.takeAction_host (s : State) (rest : List HostAction) : (s.takeAction rest).host = rest := (rfl)
@[simp] theorem State.takeAction_busData (s : State) (rest : List HostAction) : (s.takeAction rest).busData = s.busData := (rfl)
@[simp] theorem State.takeAction_delay (s : State) (rest : List HostAction) : (s.takeAction rest).delay = s.delay - 1 := (rfl)
@[simp] theorem State.takeAction_draws (s : State) (rest : List HostAction) : (s.takeAction rest).draws = s.draws := (rfl)
@[simp] theorem State.takeAction_resets (s : State) (rest : List HostAction) : (s.takeAction rest).resets = s.resets := (rfl)

/-! ### `State.clearRegisters` -/

@[simp] theorem State.clearRegisters_cmd (s : State) : (s.clearRegisters).cmd = s.cmd := (rfl)
@[simp] theorem State.clearRegisters_busy (s : State) : (s.clearRegisters).busy = s.busy := (rfl)
@[simp] theorem State.clearRegisters_done (s : State) : (s.clearRegisters).done = s.done := (rfl)
@[simp] theorem State.clearRegisters_ovr (s : State) : (s.clearRegisters).ovr = s.ovr := (rfl)
@[simp] theorem State.clearRegisters_res (s : State) : (s.clearRegisters).res = s.res := (rfl)
@[simp] theorem State.clearRegisters_ie (s : State) : (s.clearRegisters).ie = false := (rfl)
@[simp] theorem State.clearRegisters_capLen (s : State) : (s.clearRegisters).capLen = 0#32 := (rfl)
@[simp] theorem State.clearRegisters_capRate (s : State) : (s.clearRegisters).capRate = 0#32 := (rfl)
@[simp] theorem State.clearRegisters_capFreqLo (s : State) : (s.clearRegisters).capFreqLo = 0#32 := (rfl)
@[simp] theorem State.clearRegisters_capFreqHi (s : State) : (s.clearRegisters).capFreqHi = 0#32 := (rfl)
@[simp] theorem State.clearRegisters_capTsLo (s : State) : (s.clearRegisters).capTsLo = 0#32 := (rfl)
@[simp] theorem State.clearRegisters_capTsHi (s : State) : (s.clearRegisters).capTsHi = 0#32 := (rfl)
@[simp] theorem State.clearRegisters_bdNfound (s : State) : (s.clearRegisters).bdNfound = 0#2 := (rfl)
@[simp] theorem State.clearRegisters_bdNcand (s : State) : (s.clearRegisters).bdNcand = 0#2 := (rfl)
@[simp] theorem State.clearRegisters_bdLastoff (s : State) : (s.clearRegisters).bdLastoff = 0#32 := (rfl)
@[simp] theorem State.clearRegisters_cfoStart (s : State) : (s.clearRegisters).cfoStart = 0#32 := (rfl)
@[simp] theorem State.clearRegisters_cfoEnd (s : State) : (s.clearRegisters).cfoEnd = 0#32 := (rfl)
@[simp] theorem State.clearRegisters_cfoOffset (s : State) : (s.clearRegisters).cfoOffset = 0#32 := (rfl)
@[simp] theorem State.clearRegisters_cfoFound (s : State) : (s.clearRegisters).cfoFound = false := (rfl)
@[simp] theorem State.clearRegisters_cfoComputable (s : State) : (s.clearRegisters).cfoComputable = false := (rfl)
@[simp] theorem State.clearRegisters_cand0 (s : State) : (s.clearRegisters).cand0 = Cand.zero := (rfl)
@[simp] theorem State.clearRegisters_cand1 (s : State) : (s.clearRegisters).cand1 = Cand.zero := (rfl)
@[simp] theorem State.clearRegisters_cand2 (s : State) : (s.clearRegisters).cand2 = Cand.zero := (rfl)
@[simp] theorem State.clearRegisters_burLen (s : State) : (s.clearRegisters).burLen = 0#32 := (rfl)
@[simp] theorem State.clearRegisters_sxNgrp (s : State) : (s.clearRegisters).sxNgrp = 0#32 := (rfl)
@[simp] theorem State.clearRegisters_symCount (s : State) : (s.clearRegisters).symCount = 0#32 := (rfl)
@[simp] theorem State.clearRegisters_goldSeed (s : State) : (s.clearRegisters).goldSeed = goldSeedReset := (rfl)
@[simp] theorem State.clearRegisters_rawLen (s : State) : (s.clearRegisters).rawLen = 0#32 := (rfl)
@[simp] theorem State.clearRegisters_demLen (s : State) : (s.clearRegisters).demLen = 0#32 := (rfl)
@[simp] theorem State.clearRegisters_dscLen (s : State) : (s.clearRegisters).dscLen = 0#32 := (rfl)
@[simp] theorem State.clearRegisters_frmLen (s : State) : (s.clearRegisters).frmLen = 0#32 := (rfl)
@[simp] theorem State.clearRegisters_pdHyp (s : State) : (s.clearRegisters).pdHyp = 0#2 := (rfl)
@[simp] theorem State.clearRegisters_pdOk (s : State) : (s.clearRegisters).pdOk = false := (rfl)
@[simp] theorem State.clearRegisters_pdLenx (s : State) : (s.clearRegisters).pdLenx = false := (rfl)
@[simp] theorem State.clearRegisters_pdAtt (s : State) : (s.clearRegisters).pdAtt = 0#3 := (rfl)
@[simp] theorem State.clearRegisters_crcCalc (s : State) : (s.clearRegisters).crcCalc = 0#16 := (rfl)
@[simp] theorem State.clearRegisters_crcRx (s : State) : (s.clearRegisters).crcRx = 0#16 := (rfl)
@[simp] theorem State.clearRegisters_crcValid (s : State) : (s.clearRegisters).crcValid = false := (rfl)
@[simp] theorem State.clearRegisters_cap (s : State) : (s.clearRegisters).cap = s.cap := (rfl)
@[simp] theorem State.clearRegisters_bur (s : State) : (s.clearRegisters).bur = s.bur := (rfl)
@[simp] theorem State.clearRegisters_sym (s : State) : (s.clearRegisters).sym = s.sym := (rfl)
@[simp] theorem State.clearRegisters_glen (s : State) : (s.clearRegisters).glen = s.glen := (rfl)
@[simp] theorem State.clearRegisters_raw (s : State) : (s.clearRegisters).raw = s.raw := (rfl)
@[simp] theorem State.clearRegisters_dem (s : State) : (s.clearRegisters).dem = s.dem := (rfl)
@[simp] theorem State.clearRegisters_dsc (s : State) : (s.clearRegisters).dsc = s.dsc := (rfl)
@[simp] theorem State.clearRegisters_frm (s : State) : (s.clearRegisters).frm = s.frm := (rfl)
@[simp] theorem State.clearRegisters_host (s : State) : (s.clearRegisters).host = s.host := (rfl)
@[simp] theorem State.clearRegisters_busData (s : State) : (s.clearRegisters).busData = s.busData := (rfl)
@[simp] theorem State.clearRegisters_delay (s : State) : (s.clearRegisters).delay = s.delay := (rfl)
@[simp] theorem State.clearRegisters_draws (s : State) : (s.clearRegisters).draws = s.draws := (rfl)
@[simp] theorem State.clearRegisters_resets (s : State) : (s.clearRegisters).resets = s.resets := (rfl)

/-! ### `State.setMem` -/

@[simp] theorem State.setMem_cmd (s : State) (sp : Space) (m : Memory) : (s.setMem sp m).cmd = s.cmd := by cases sp <;> rfl
@[simp] theorem State.setMem_busy (s : State) (sp : Space) (m : Memory) : (s.setMem sp m).busy = s.busy := by cases sp <;> rfl
@[simp] theorem State.setMem_done (s : State) (sp : Space) (m : Memory) : (s.setMem sp m).done = s.done := by cases sp <;> rfl
@[simp] theorem State.setMem_ovr (s : State) (sp : Space) (m : Memory) : (s.setMem sp m).ovr = s.ovr := by cases sp <;> rfl
@[simp] theorem State.setMem_res (s : State) (sp : Space) (m : Memory) : (s.setMem sp m).res = s.res := by cases sp <;> rfl
@[simp] theorem State.setMem_ie (s : State) (sp : Space) (m : Memory) : (s.setMem sp m).ie = s.ie := by cases sp <;> rfl
@[simp] theorem State.setMem_capLen (s : State) (sp : Space) (m : Memory) : (s.setMem sp m).capLen = s.capLen := by cases sp <;> rfl
@[simp] theorem State.setMem_capRate (s : State) (sp : Space) (m : Memory) : (s.setMem sp m).capRate = s.capRate := by cases sp <;> rfl
@[simp] theorem State.setMem_capFreqLo (s : State) (sp : Space) (m : Memory) : (s.setMem sp m).capFreqLo = s.capFreqLo := by cases sp <;> rfl
@[simp] theorem State.setMem_capFreqHi (s : State) (sp : Space) (m : Memory) : (s.setMem sp m).capFreqHi = s.capFreqHi := by cases sp <;> rfl
@[simp] theorem State.setMem_capTsLo (s : State) (sp : Space) (m : Memory) : (s.setMem sp m).capTsLo = s.capTsLo := by cases sp <;> rfl
@[simp] theorem State.setMem_capTsHi (s : State) (sp : Space) (m : Memory) : (s.setMem sp m).capTsHi = s.capTsHi := by cases sp <;> rfl
@[simp] theorem State.setMem_bdNfound (s : State) (sp : Space) (m : Memory) : (s.setMem sp m).bdNfound = s.bdNfound := by cases sp <;> rfl
@[simp] theorem State.setMem_bdNcand (s : State) (sp : Space) (m : Memory) : (s.setMem sp m).bdNcand = s.bdNcand := by cases sp <;> rfl
@[simp] theorem State.setMem_bdLastoff (s : State) (sp : Space) (m : Memory) : (s.setMem sp m).bdLastoff = s.bdLastoff := by cases sp <;> rfl
@[simp] theorem State.setMem_cfoStart (s : State) (sp : Space) (m : Memory) : (s.setMem sp m).cfoStart = s.cfoStart := by cases sp <;> rfl
@[simp] theorem State.setMem_cfoEnd (s : State) (sp : Space) (m : Memory) : (s.setMem sp m).cfoEnd = s.cfoEnd := by cases sp <;> rfl
@[simp] theorem State.setMem_cfoOffset (s : State) (sp : Space) (m : Memory) : (s.setMem sp m).cfoOffset = s.cfoOffset := by cases sp <;> rfl
@[simp] theorem State.setMem_cfoFound (s : State) (sp : Space) (m : Memory) : (s.setMem sp m).cfoFound = s.cfoFound := by cases sp <;> rfl
@[simp] theorem State.setMem_cfoComputable (s : State) (sp : Space) (m : Memory) : (s.setMem sp m).cfoComputable = s.cfoComputable := by cases sp <;> rfl
@[simp] theorem State.setMem_cand0 (s : State) (sp : Space) (m : Memory) : (s.setMem sp m).cand0 = s.cand0 := by cases sp <;> rfl
@[simp] theorem State.setMem_cand1 (s : State) (sp : Space) (m : Memory) : (s.setMem sp m).cand1 = s.cand1 := by cases sp <;> rfl
@[simp] theorem State.setMem_cand2 (s : State) (sp : Space) (m : Memory) : (s.setMem sp m).cand2 = s.cand2 := by cases sp <;> rfl
@[simp] theorem State.setMem_burLen (s : State) (sp : Space) (m : Memory) : (s.setMem sp m).burLen = s.burLen := by cases sp <;> rfl
@[simp] theorem State.setMem_sxNgrp (s : State) (sp : Space) (m : Memory) : (s.setMem sp m).sxNgrp = s.sxNgrp := by cases sp <;> rfl
@[simp] theorem State.setMem_symCount (s : State) (sp : Space) (m : Memory) : (s.setMem sp m).symCount = s.symCount := by cases sp <;> rfl
@[simp] theorem State.setMem_goldSeed (s : State) (sp : Space) (m : Memory) : (s.setMem sp m).goldSeed = s.goldSeed := by cases sp <;> rfl
@[simp] theorem State.setMem_rawLen (s : State) (sp : Space) (m : Memory) : (s.setMem sp m).rawLen = s.rawLen := by cases sp <;> rfl
@[simp] theorem State.setMem_demLen (s : State) (sp : Space) (m : Memory) : (s.setMem sp m).demLen = s.demLen := by cases sp <;> rfl
@[simp] theorem State.setMem_dscLen (s : State) (sp : Space) (m : Memory) : (s.setMem sp m).dscLen = s.dscLen := by cases sp <;> rfl
@[simp] theorem State.setMem_frmLen (s : State) (sp : Space) (m : Memory) : (s.setMem sp m).frmLen = s.frmLen := by cases sp <;> rfl
@[simp] theorem State.setMem_pdHyp (s : State) (sp : Space) (m : Memory) : (s.setMem sp m).pdHyp = s.pdHyp := by cases sp <;> rfl
@[simp] theorem State.setMem_pdOk (s : State) (sp : Space) (m : Memory) : (s.setMem sp m).pdOk = s.pdOk := by cases sp <;> rfl
@[simp] theorem State.setMem_pdLenx (s : State) (sp : Space) (m : Memory) : (s.setMem sp m).pdLenx = s.pdLenx := by cases sp <;> rfl
@[simp] theorem State.setMem_pdAtt (s : State) (sp : Space) (m : Memory) : (s.setMem sp m).pdAtt = s.pdAtt := by cases sp <;> rfl
@[simp] theorem State.setMem_crcCalc (s : State) (sp : Space) (m : Memory) : (s.setMem sp m).crcCalc = s.crcCalc := by cases sp <;> rfl
@[simp] theorem State.setMem_crcRx (s : State) (sp : Space) (m : Memory) : (s.setMem sp m).crcRx = s.crcRx := by cases sp <;> rfl
@[simp] theorem State.setMem_crcValid (s : State) (sp : Space) (m : Memory) : (s.setMem sp m).crcValid = s.crcValid := by cases sp <;> rfl
@[simp] theorem State.setMem_host (s : State) (sp : Space) (m : Memory) : (s.setMem sp m).host = s.host := by cases sp <;> rfl
@[simp] theorem State.setMem_busData (s : State) (sp : Space) (m : Memory) : (s.setMem sp m).busData = s.busData := by cases sp <;> rfl
@[simp] theorem State.setMem_delay (s : State) (sp : Space) (m : Memory) : (s.setMem sp m).delay = s.delay := by cases sp <;> rfl
@[simp] theorem State.setMem_draws (s : State) (sp : Space) (m : Memory) : (s.setMem sp m).draws = s.draws := by cases sp <;> rfl
@[simp] theorem State.setMem_resets (s : State) (sp : Space) (m : Memory) : (s.setMem sp m).resets = s.resets := by cases sp <;> rfl

/-! ### `State.putBits` -/

@[simp] theorem State.putBits_cmd (s : State) (sp : Space) (bits : List Bool) : (s.putBits sp bits).cmd = s.cmd := State.setMem_cmd s sp _
@[simp] theorem State.putBits_busy (s : State) (sp : Space) (bits : List Bool) : (s.putBits sp bits).busy = s.busy := State.setMem_busy s sp _
@[simp] theorem State.putBits_done (s : State) (sp : Space) (bits : List Bool) : (s.putBits sp bits).done = s.done := State.setMem_done s sp _
@[simp] theorem State.putBits_ovr (s : State) (sp : Space) (bits : List Bool) : (s.putBits sp bits).ovr = s.ovr := State.setMem_ovr s sp _
@[simp] theorem State.putBits_res (s : State) (sp : Space) (bits : List Bool) : (s.putBits sp bits).res = s.res := State.setMem_res s sp _
@[simp] theorem State.putBits_ie (s : State) (sp : Space) (bits : List Bool) : (s.putBits sp bits).ie = s.ie := State.setMem_ie s sp _
@[simp] theorem State.putBits_capLen (s : State) (sp : Space) (bits : List Bool) : (s.putBits sp bits).capLen = s.capLen := State.setMem_capLen s sp _
@[simp] theorem State.putBits_capRate (s : State) (sp : Space) (bits : List Bool) : (s.putBits sp bits).capRate = s.capRate := State.setMem_capRate s sp _
@[simp] theorem State.putBits_capFreqLo (s : State) (sp : Space) (bits : List Bool) : (s.putBits sp bits).capFreqLo = s.capFreqLo := State.setMem_capFreqLo s sp _
@[simp] theorem State.putBits_capFreqHi (s : State) (sp : Space) (bits : List Bool) : (s.putBits sp bits).capFreqHi = s.capFreqHi := State.setMem_capFreqHi s sp _
@[simp] theorem State.putBits_capTsLo (s : State) (sp : Space) (bits : List Bool) : (s.putBits sp bits).capTsLo = s.capTsLo := State.setMem_capTsLo s sp _
@[simp] theorem State.putBits_capTsHi (s : State) (sp : Space) (bits : List Bool) : (s.putBits sp bits).capTsHi = s.capTsHi := State.setMem_capTsHi s sp _
@[simp] theorem State.putBits_bdNfound (s : State) (sp : Space) (bits : List Bool) : (s.putBits sp bits).bdNfound = s.bdNfound := State.setMem_bdNfound s sp _
@[simp] theorem State.putBits_bdNcand (s : State) (sp : Space) (bits : List Bool) : (s.putBits sp bits).bdNcand = s.bdNcand := State.setMem_bdNcand s sp _
@[simp] theorem State.putBits_bdLastoff (s : State) (sp : Space) (bits : List Bool) : (s.putBits sp bits).bdLastoff = s.bdLastoff := State.setMem_bdLastoff s sp _
@[simp] theorem State.putBits_cfoStart (s : State) (sp : Space) (bits : List Bool) : (s.putBits sp bits).cfoStart = s.cfoStart := State.setMem_cfoStart s sp _
@[simp] theorem State.putBits_cfoEnd (s : State) (sp : Space) (bits : List Bool) : (s.putBits sp bits).cfoEnd = s.cfoEnd := State.setMem_cfoEnd s sp _
@[simp] theorem State.putBits_cfoOffset (s : State) (sp : Space) (bits : List Bool) : (s.putBits sp bits).cfoOffset = s.cfoOffset := State.setMem_cfoOffset s sp _
@[simp] theorem State.putBits_cfoFound (s : State) (sp : Space) (bits : List Bool) : (s.putBits sp bits).cfoFound = s.cfoFound := State.setMem_cfoFound s sp _
@[simp] theorem State.putBits_cfoComputable (s : State) (sp : Space) (bits : List Bool) : (s.putBits sp bits).cfoComputable = s.cfoComputable := State.setMem_cfoComputable s sp _
@[simp] theorem State.putBits_cand0 (s : State) (sp : Space) (bits : List Bool) : (s.putBits sp bits).cand0 = s.cand0 := State.setMem_cand0 s sp _
@[simp] theorem State.putBits_cand1 (s : State) (sp : Space) (bits : List Bool) : (s.putBits sp bits).cand1 = s.cand1 := State.setMem_cand1 s sp _
@[simp] theorem State.putBits_cand2 (s : State) (sp : Space) (bits : List Bool) : (s.putBits sp bits).cand2 = s.cand2 := State.setMem_cand2 s sp _
@[simp] theorem State.putBits_burLen (s : State) (sp : Space) (bits : List Bool) : (s.putBits sp bits).burLen = s.burLen := State.setMem_burLen s sp _
@[simp] theorem State.putBits_sxNgrp (s : State) (sp : Space) (bits : List Bool) : (s.putBits sp bits).sxNgrp = s.sxNgrp := State.setMem_sxNgrp s sp _
@[simp] theorem State.putBits_symCount (s : State) (sp : Space) (bits : List Bool) : (s.putBits sp bits).symCount = s.symCount := State.setMem_symCount s sp _
@[simp] theorem State.putBits_goldSeed (s : State) (sp : Space) (bits : List Bool) : (s.putBits sp bits).goldSeed = s.goldSeed := State.setMem_goldSeed s sp _
@[simp] theorem State.putBits_rawLen (s : State) (sp : Space) (bits : List Bool) : (s.putBits sp bits).rawLen = s.rawLen := State.setMem_rawLen s sp _
@[simp] theorem State.putBits_demLen (s : State) (sp : Space) (bits : List Bool) : (s.putBits sp bits).demLen = s.demLen := State.setMem_demLen s sp _
@[simp] theorem State.putBits_dscLen (s : State) (sp : Space) (bits : List Bool) : (s.putBits sp bits).dscLen = s.dscLen := State.setMem_dscLen s sp _
@[simp] theorem State.putBits_frmLen (s : State) (sp : Space) (bits : List Bool) : (s.putBits sp bits).frmLen = s.frmLen := State.setMem_frmLen s sp _
@[simp] theorem State.putBits_pdHyp (s : State) (sp : Space) (bits : List Bool) : (s.putBits sp bits).pdHyp = s.pdHyp := State.setMem_pdHyp s sp _
@[simp] theorem State.putBits_pdOk (s : State) (sp : Space) (bits : List Bool) : (s.putBits sp bits).pdOk = s.pdOk := State.setMem_pdOk s sp _
@[simp] theorem State.putBits_pdLenx (s : State) (sp : Space) (bits : List Bool) : (s.putBits sp bits).pdLenx = s.pdLenx := State.setMem_pdLenx s sp _
@[simp] theorem State.putBits_pdAtt (s : State) (sp : Space) (bits : List Bool) : (s.putBits sp bits).pdAtt = s.pdAtt := State.setMem_pdAtt s sp _
@[simp] theorem State.putBits_crcCalc (s : State) (sp : Space) (bits : List Bool) : (s.putBits sp bits).crcCalc = s.crcCalc := State.setMem_crcCalc s sp _
@[simp] theorem State.putBits_crcRx (s : State) (sp : Space) (bits : List Bool) : (s.putBits sp bits).crcRx = s.crcRx := State.setMem_crcRx s sp _
@[simp] theorem State.putBits_crcValid (s : State) (sp : Space) (bits : List Bool) : (s.putBits sp bits).crcValid = s.crcValid := State.setMem_crcValid s sp _
@[simp] theorem State.putBits_host (s : State) (sp : Space) (bits : List Bool) : (s.putBits sp bits).host = s.host := State.setMem_host s sp _
@[simp] theorem State.putBits_busData (s : State) (sp : Space) (bits : List Bool) : (s.putBits sp bits).busData = s.busData := State.setMem_busData s sp _
@[simp] theorem State.putBits_delay (s : State) (sp : Space) (bits : List Bool) : (s.putBits sp bits).delay = s.delay := State.setMem_delay s sp _
@[simp] theorem State.putBits_draws (s : State) (sp : Space) (bits : List Bool) : (s.putBits sp bits).draws = s.draws := State.setMem_draws s sp _
@[simp] theorem State.putBits_resets (s : State) (sp : Space) (bits : List Bool) : (s.putBits sp bits).resets = s.resets := State.setMem_resets s sp _

/-! ### `State.putBytes` -/

@[simp] theorem State.putBytes_cmd (s : State) (sp : Space) (bytes : List Byte) : (s.putBytes sp bytes).cmd = s.cmd := State.setMem_cmd s sp _
@[simp] theorem State.putBytes_busy (s : State) (sp : Space) (bytes : List Byte) : (s.putBytes sp bytes).busy = s.busy := State.setMem_busy s sp _
@[simp] theorem State.putBytes_done (s : State) (sp : Space) (bytes : List Byte) : (s.putBytes sp bytes).done = s.done := State.setMem_done s sp _
@[simp] theorem State.putBytes_ovr (s : State) (sp : Space) (bytes : List Byte) : (s.putBytes sp bytes).ovr = s.ovr := State.setMem_ovr s sp _
@[simp] theorem State.putBytes_res (s : State) (sp : Space) (bytes : List Byte) : (s.putBytes sp bytes).res = s.res := State.setMem_res s sp _
@[simp] theorem State.putBytes_ie (s : State) (sp : Space) (bytes : List Byte) : (s.putBytes sp bytes).ie = s.ie := State.setMem_ie s sp _
@[simp] theorem State.putBytes_capLen (s : State) (sp : Space) (bytes : List Byte) : (s.putBytes sp bytes).capLen = s.capLen := State.setMem_capLen s sp _
@[simp] theorem State.putBytes_capRate (s : State) (sp : Space) (bytes : List Byte) : (s.putBytes sp bytes).capRate = s.capRate := State.setMem_capRate s sp _
@[simp] theorem State.putBytes_capFreqLo (s : State) (sp : Space) (bytes : List Byte) : (s.putBytes sp bytes).capFreqLo = s.capFreqLo := State.setMem_capFreqLo s sp _
@[simp] theorem State.putBytes_capFreqHi (s : State) (sp : Space) (bytes : List Byte) : (s.putBytes sp bytes).capFreqHi = s.capFreqHi := State.setMem_capFreqHi s sp _
@[simp] theorem State.putBytes_capTsLo (s : State) (sp : Space) (bytes : List Byte) : (s.putBytes sp bytes).capTsLo = s.capTsLo := State.setMem_capTsLo s sp _
@[simp] theorem State.putBytes_capTsHi (s : State) (sp : Space) (bytes : List Byte) : (s.putBytes sp bytes).capTsHi = s.capTsHi := State.setMem_capTsHi s sp _
@[simp] theorem State.putBytes_bdNfound (s : State) (sp : Space) (bytes : List Byte) : (s.putBytes sp bytes).bdNfound = s.bdNfound := State.setMem_bdNfound s sp _
@[simp] theorem State.putBytes_bdNcand (s : State) (sp : Space) (bytes : List Byte) : (s.putBytes sp bytes).bdNcand = s.bdNcand := State.setMem_bdNcand s sp _
@[simp] theorem State.putBytes_bdLastoff (s : State) (sp : Space) (bytes : List Byte) : (s.putBytes sp bytes).bdLastoff = s.bdLastoff := State.setMem_bdLastoff s sp _
@[simp] theorem State.putBytes_cfoStart (s : State) (sp : Space) (bytes : List Byte) : (s.putBytes sp bytes).cfoStart = s.cfoStart := State.setMem_cfoStart s sp _
@[simp] theorem State.putBytes_cfoEnd (s : State) (sp : Space) (bytes : List Byte) : (s.putBytes sp bytes).cfoEnd = s.cfoEnd := State.setMem_cfoEnd s sp _
@[simp] theorem State.putBytes_cfoOffset (s : State) (sp : Space) (bytes : List Byte) : (s.putBytes sp bytes).cfoOffset = s.cfoOffset := State.setMem_cfoOffset s sp _
@[simp] theorem State.putBytes_cfoFound (s : State) (sp : Space) (bytes : List Byte) : (s.putBytes sp bytes).cfoFound = s.cfoFound := State.setMem_cfoFound s sp _
@[simp] theorem State.putBytes_cfoComputable (s : State) (sp : Space) (bytes : List Byte) : (s.putBytes sp bytes).cfoComputable = s.cfoComputable := State.setMem_cfoComputable s sp _
@[simp] theorem State.putBytes_cand0 (s : State) (sp : Space) (bytes : List Byte) : (s.putBytes sp bytes).cand0 = s.cand0 := State.setMem_cand0 s sp _
@[simp] theorem State.putBytes_cand1 (s : State) (sp : Space) (bytes : List Byte) : (s.putBytes sp bytes).cand1 = s.cand1 := State.setMem_cand1 s sp _
@[simp] theorem State.putBytes_cand2 (s : State) (sp : Space) (bytes : List Byte) : (s.putBytes sp bytes).cand2 = s.cand2 := State.setMem_cand2 s sp _
@[simp] theorem State.putBytes_burLen (s : State) (sp : Space) (bytes : List Byte) : (s.putBytes sp bytes).burLen = s.burLen := State.setMem_burLen s sp _
@[simp] theorem State.putBytes_sxNgrp (s : State) (sp : Space) (bytes : List Byte) : (s.putBytes sp bytes).sxNgrp = s.sxNgrp := State.setMem_sxNgrp s sp _
@[simp] theorem State.putBytes_symCount (s : State) (sp : Space) (bytes : List Byte) : (s.putBytes sp bytes).symCount = s.symCount := State.setMem_symCount s sp _
@[simp] theorem State.putBytes_goldSeed (s : State) (sp : Space) (bytes : List Byte) : (s.putBytes sp bytes).goldSeed = s.goldSeed := State.setMem_goldSeed s sp _
@[simp] theorem State.putBytes_rawLen (s : State) (sp : Space) (bytes : List Byte) : (s.putBytes sp bytes).rawLen = s.rawLen := State.setMem_rawLen s sp _
@[simp] theorem State.putBytes_demLen (s : State) (sp : Space) (bytes : List Byte) : (s.putBytes sp bytes).demLen = s.demLen := State.setMem_demLen s sp _
@[simp] theorem State.putBytes_dscLen (s : State) (sp : Space) (bytes : List Byte) : (s.putBytes sp bytes).dscLen = s.dscLen := State.setMem_dscLen s sp _
@[simp] theorem State.putBytes_frmLen (s : State) (sp : Space) (bytes : List Byte) : (s.putBytes sp bytes).frmLen = s.frmLen := State.setMem_frmLen s sp _
@[simp] theorem State.putBytes_pdHyp (s : State) (sp : Space) (bytes : List Byte) : (s.putBytes sp bytes).pdHyp = s.pdHyp := State.setMem_pdHyp s sp _
@[simp] theorem State.putBytes_pdOk (s : State) (sp : Space) (bytes : List Byte) : (s.putBytes sp bytes).pdOk = s.pdOk := State.setMem_pdOk s sp _
@[simp] theorem State.putBytes_pdLenx (s : State) (sp : Space) (bytes : List Byte) : (s.putBytes sp bytes).pdLenx = s.pdLenx := State.setMem_pdLenx s sp _
@[simp] theorem State.putBytes_pdAtt (s : State) (sp : Space) (bytes : List Byte) : (s.putBytes sp bytes).pdAtt = s.pdAtt := State.setMem_pdAtt s sp _
@[simp] theorem State.putBytes_crcCalc (s : State) (sp : Space) (bytes : List Byte) : (s.putBytes sp bytes).crcCalc = s.crcCalc := State.setMem_crcCalc s sp _
@[simp] theorem State.putBytes_crcRx (s : State) (sp : Space) (bytes : List Byte) : (s.putBytes sp bytes).crcRx = s.crcRx := State.setMem_crcRx s sp _
@[simp] theorem State.putBytes_crcValid (s : State) (sp : Space) (bytes : List Byte) : (s.putBytes sp bytes).crcValid = s.crcValid := State.setMem_crcValid s sp _
@[simp] theorem State.putBytes_host (s : State) (sp : Space) (bytes : List Byte) : (s.putBytes sp bytes).host = s.host := State.setMem_host s sp _
@[simp] theorem State.putBytes_busData (s : State) (sp : Space) (bytes : List Byte) : (s.putBytes sp bytes).busData = s.busData := State.setMem_busData s sp _
@[simp] theorem State.putBytes_delay (s : State) (sp : Space) (bytes : List Byte) : (s.putBytes sp bytes).delay = s.delay := State.setMem_delay s sp _
@[simp] theorem State.putBytes_draws (s : State) (sp : Space) (bytes : List Byte) : (s.putBytes sp bytes).draws = s.draws := State.setMem_draws s sp _
@[simp] theorem State.putBytes_resets (s : State) (sp : Space) (bytes : List Byte) : (s.putBytes sp bytes).resets = s.resets := State.setMem_resets s sp _

/-! ### `State.putWords` -/

@[simp] theorem State.putWords_cmd (s : State) (sp : Space) (words : List Word) : (s.putWords sp words).cmd = s.cmd := State.setMem_cmd s sp _
@[simp] theorem State.putWords_busy (s : State) (sp : Space) (words : List Word) : (s.putWords sp words).busy = s.busy := State.setMem_busy s sp _
@[simp] theorem State.putWords_done (s : State) (sp : Space) (words : List Word) : (s.putWords sp words).done = s.done := State.setMem_done s sp _
@[simp] theorem State.putWords_ovr (s : State) (sp : Space) (words : List Word) : (s.putWords sp words).ovr = s.ovr := State.setMem_ovr s sp _
@[simp] theorem State.putWords_res (s : State) (sp : Space) (words : List Word) : (s.putWords sp words).res = s.res := State.setMem_res s sp _
@[simp] theorem State.putWords_ie (s : State) (sp : Space) (words : List Word) : (s.putWords sp words).ie = s.ie := State.setMem_ie s sp _
@[simp] theorem State.putWords_capLen (s : State) (sp : Space) (words : List Word) : (s.putWords sp words).capLen = s.capLen := State.setMem_capLen s sp _
@[simp] theorem State.putWords_capRate (s : State) (sp : Space) (words : List Word) : (s.putWords sp words).capRate = s.capRate := State.setMem_capRate s sp _
@[simp] theorem State.putWords_capFreqLo (s : State) (sp : Space) (words : List Word) : (s.putWords sp words).capFreqLo = s.capFreqLo := State.setMem_capFreqLo s sp _
@[simp] theorem State.putWords_capFreqHi (s : State) (sp : Space) (words : List Word) : (s.putWords sp words).capFreqHi = s.capFreqHi := State.setMem_capFreqHi s sp _
@[simp] theorem State.putWords_capTsLo (s : State) (sp : Space) (words : List Word) : (s.putWords sp words).capTsLo = s.capTsLo := State.setMem_capTsLo s sp _
@[simp] theorem State.putWords_capTsHi (s : State) (sp : Space) (words : List Word) : (s.putWords sp words).capTsHi = s.capTsHi := State.setMem_capTsHi s sp _
@[simp] theorem State.putWords_bdNfound (s : State) (sp : Space) (words : List Word) : (s.putWords sp words).bdNfound = s.bdNfound := State.setMem_bdNfound s sp _
@[simp] theorem State.putWords_bdNcand (s : State) (sp : Space) (words : List Word) : (s.putWords sp words).bdNcand = s.bdNcand := State.setMem_bdNcand s sp _
@[simp] theorem State.putWords_bdLastoff (s : State) (sp : Space) (words : List Word) : (s.putWords sp words).bdLastoff = s.bdLastoff := State.setMem_bdLastoff s sp _
@[simp] theorem State.putWords_cfoStart (s : State) (sp : Space) (words : List Word) : (s.putWords sp words).cfoStart = s.cfoStart := State.setMem_cfoStart s sp _
@[simp] theorem State.putWords_cfoEnd (s : State) (sp : Space) (words : List Word) : (s.putWords sp words).cfoEnd = s.cfoEnd := State.setMem_cfoEnd s sp _
@[simp] theorem State.putWords_cfoOffset (s : State) (sp : Space) (words : List Word) : (s.putWords sp words).cfoOffset = s.cfoOffset := State.setMem_cfoOffset s sp _
@[simp] theorem State.putWords_cfoFound (s : State) (sp : Space) (words : List Word) : (s.putWords sp words).cfoFound = s.cfoFound := State.setMem_cfoFound s sp _
@[simp] theorem State.putWords_cfoComputable (s : State) (sp : Space) (words : List Word) : (s.putWords sp words).cfoComputable = s.cfoComputable := State.setMem_cfoComputable s sp _
@[simp] theorem State.putWords_cand0 (s : State) (sp : Space) (words : List Word) : (s.putWords sp words).cand0 = s.cand0 := State.setMem_cand0 s sp _
@[simp] theorem State.putWords_cand1 (s : State) (sp : Space) (words : List Word) : (s.putWords sp words).cand1 = s.cand1 := State.setMem_cand1 s sp _
@[simp] theorem State.putWords_cand2 (s : State) (sp : Space) (words : List Word) : (s.putWords sp words).cand2 = s.cand2 := State.setMem_cand2 s sp _
@[simp] theorem State.putWords_burLen (s : State) (sp : Space) (words : List Word) : (s.putWords sp words).burLen = s.burLen := State.setMem_burLen s sp _
@[simp] theorem State.putWords_sxNgrp (s : State) (sp : Space) (words : List Word) : (s.putWords sp words).sxNgrp = s.sxNgrp := State.setMem_sxNgrp s sp _
@[simp] theorem State.putWords_symCount (s : State) (sp : Space) (words : List Word) : (s.putWords sp words).symCount = s.symCount := State.setMem_symCount s sp _
@[simp] theorem State.putWords_goldSeed (s : State) (sp : Space) (words : List Word) : (s.putWords sp words).goldSeed = s.goldSeed := State.setMem_goldSeed s sp _
@[simp] theorem State.putWords_rawLen (s : State) (sp : Space) (words : List Word) : (s.putWords sp words).rawLen = s.rawLen := State.setMem_rawLen s sp _
@[simp] theorem State.putWords_demLen (s : State) (sp : Space) (words : List Word) : (s.putWords sp words).demLen = s.demLen := State.setMem_demLen s sp _
@[simp] theorem State.putWords_dscLen (s : State) (sp : Space) (words : List Word) : (s.putWords sp words).dscLen = s.dscLen := State.setMem_dscLen s sp _
@[simp] theorem State.putWords_frmLen (s : State) (sp : Space) (words : List Word) : (s.putWords sp words).frmLen = s.frmLen := State.setMem_frmLen s sp _
@[simp] theorem State.putWords_pdHyp (s : State) (sp : Space) (words : List Word) : (s.putWords sp words).pdHyp = s.pdHyp := State.setMem_pdHyp s sp _
@[simp] theorem State.putWords_pdOk (s : State) (sp : Space) (words : List Word) : (s.putWords sp words).pdOk = s.pdOk := State.setMem_pdOk s sp _
@[simp] theorem State.putWords_pdLenx (s : State) (sp : Space) (words : List Word) : (s.putWords sp words).pdLenx = s.pdLenx := State.setMem_pdLenx s sp _
@[simp] theorem State.putWords_pdAtt (s : State) (sp : Space) (words : List Word) : (s.putWords sp words).pdAtt = s.pdAtt := State.setMem_pdAtt s sp _
@[simp] theorem State.putWords_crcCalc (s : State) (sp : Space) (words : List Word) : (s.putWords sp words).crcCalc = s.crcCalc := State.setMem_crcCalc s sp _
@[simp] theorem State.putWords_crcRx (s : State) (sp : Space) (words : List Word) : (s.putWords sp words).crcRx = s.crcRx := State.setMem_crcRx s sp _
@[simp] theorem State.putWords_crcValid (s : State) (sp : Space) (words : List Word) : (s.putWords sp words).crcValid = s.crcValid := State.setMem_crcValid s sp _
@[simp] theorem State.putWords_host (s : State) (sp : Space) (words : List Word) : (s.putWords sp words).host = s.host := State.setMem_host s sp _
@[simp] theorem State.putWords_busData (s : State) (sp : Space) (words : List Word) : (s.putWords sp words).busData = s.busData := State.setMem_busData s sp _
@[simp] theorem State.putWords_delay (s : State) (sp : Space) (words : List Word) : (s.putWords sp words).delay = s.delay := State.setMem_delay s sp _
@[simp] theorem State.putWords_draws (s : State) (sp : Space) (words : List Word) : (s.putWords sp words).draws = s.draws := State.setMem_draws s sp _
@[simp] theorem State.putWords_resets (s : State) (sp : Space) (words : List Word) : (s.putWords sp words).resets = s.resets := State.setMem_resets s sp _

/-! ### `State.putWord` -/

@[simp] theorem State.putWord_cmd (s : State) (sp : Space) (w : Nat) (v : Word) : (s.putWord sp w v).cmd = s.cmd := State.setMem_cmd s sp _
@[simp] theorem State.putWord_busy (s : State) (sp : Space) (w : Nat) (v : Word) : (s.putWord sp w v).busy = s.busy := State.setMem_busy s sp _
@[simp] theorem State.putWord_done (s : State) (sp : Space) (w : Nat) (v : Word) : (s.putWord sp w v).done = s.done := State.setMem_done s sp _
@[simp] theorem State.putWord_ovr (s : State) (sp : Space) (w : Nat) (v : Word) : (s.putWord sp w v).ovr = s.ovr := State.setMem_ovr s sp _
@[simp] theorem State.putWord_res (s : State) (sp : Space) (w : Nat) (v : Word) : (s.putWord sp w v).res = s.res := State.setMem_res s sp _
@[simp] theorem State.putWord_ie (s : State) (sp : Space) (w : Nat) (v : Word) : (s.putWord sp w v).ie = s.ie := State.setMem_ie s sp _
@[simp] theorem State.putWord_capLen (s : State) (sp : Space) (w : Nat) (v : Word) : (s.putWord sp w v).capLen = s.capLen := State.setMem_capLen s sp _
@[simp] theorem State.putWord_capRate (s : State) (sp : Space) (w : Nat) (v : Word) : (s.putWord sp w v).capRate = s.capRate := State.setMem_capRate s sp _
@[simp] theorem State.putWord_capFreqLo (s : State) (sp : Space) (w : Nat) (v : Word) : (s.putWord sp w v).capFreqLo = s.capFreqLo := State.setMem_capFreqLo s sp _
@[simp] theorem State.putWord_capFreqHi (s : State) (sp : Space) (w : Nat) (v : Word) : (s.putWord sp w v).capFreqHi = s.capFreqHi := State.setMem_capFreqHi s sp _
@[simp] theorem State.putWord_capTsLo (s : State) (sp : Space) (w : Nat) (v : Word) : (s.putWord sp w v).capTsLo = s.capTsLo := State.setMem_capTsLo s sp _
@[simp] theorem State.putWord_capTsHi (s : State) (sp : Space) (w : Nat) (v : Word) : (s.putWord sp w v).capTsHi = s.capTsHi := State.setMem_capTsHi s sp _
@[simp] theorem State.putWord_bdNfound (s : State) (sp : Space) (w : Nat) (v : Word) : (s.putWord sp w v).bdNfound = s.bdNfound := State.setMem_bdNfound s sp _
@[simp] theorem State.putWord_bdNcand (s : State) (sp : Space) (w : Nat) (v : Word) : (s.putWord sp w v).bdNcand = s.bdNcand := State.setMem_bdNcand s sp _
@[simp] theorem State.putWord_bdLastoff (s : State) (sp : Space) (w : Nat) (v : Word) : (s.putWord sp w v).bdLastoff = s.bdLastoff := State.setMem_bdLastoff s sp _
@[simp] theorem State.putWord_cfoStart (s : State) (sp : Space) (w : Nat) (v : Word) : (s.putWord sp w v).cfoStart = s.cfoStart := State.setMem_cfoStart s sp _
@[simp] theorem State.putWord_cfoEnd (s : State) (sp : Space) (w : Nat) (v : Word) : (s.putWord sp w v).cfoEnd = s.cfoEnd := State.setMem_cfoEnd s sp _
@[simp] theorem State.putWord_cfoOffset (s : State) (sp : Space) (w : Nat) (v : Word) : (s.putWord sp w v).cfoOffset = s.cfoOffset := State.setMem_cfoOffset s sp _
@[simp] theorem State.putWord_cfoFound (s : State) (sp : Space) (w : Nat) (v : Word) : (s.putWord sp w v).cfoFound = s.cfoFound := State.setMem_cfoFound s sp _
@[simp] theorem State.putWord_cfoComputable (s : State) (sp : Space) (w : Nat) (v : Word) : (s.putWord sp w v).cfoComputable = s.cfoComputable := State.setMem_cfoComputable s sp _
@[simp] theorem State.putWord_cand0 (s : State) (sp : Space) (w : Nat) (v : Word) : (s.putWord sp w v).cand0 = s.cand0 := State.setMem_cand0 s sp _
@[simp] theorem State.putWord_cand1 (s : State) (sp : Space) (w : Nat) (v : Word) : (s.putWord sp w v).cand1 = s.cand1 := State.setMem_cand1 s sp _
@[simp] theorem State.putWord_cand2 (s : State) (sp : Space) (w : Nat) (v : Word) : (s.putWord sp w v).cand2 = s.cand2 := State.setMem_cand2 s sp _
@[simp] theorem State.putWord_burLen (s : State) (sp : Space) (w : Nat) (v : Word) : (s.putWord sp w v).burLen = s.burLen := State.setMem_burLen s sp _
@[simp] theorem State.putWord_sxNgrp (s : State) (sp : Space) (w : Nat) (v : Word) : (s.putWord sp w v).sxNgrp = s.sxNgrp := State.setMem_sxNgrp s sp _
@[simp] theorem State.putWord_symCount (s : State) (sp : Space) (w : Nat) (v : Word) : (s.putWord sp w v).symCount = s.symCount := State.setMem_symCount s sp _
@[simp] theorem State.putWord_goldSeed (s : State) (sp : Space) (w : Nat) (v : Word) : (s.putWord sp w v).goldSeed = s.goldSeed := State.setMem_goldSeed s sp _
@[simp] theorem State.putWord_rawLen (s : State) (sp : Space) (w : Nat) (v : Word) : (s.putWord sp w v).rawLen = s.rawLen := State.setMem_rawLen s sp _
@[simp] theorem State.putWord_demLen (s : State) (sp : Space) (w : Nat) (v : Word) : (s.putWord sp w v).demLen = s.demLen := State.setMem_demLen s sp _
@[simp] theorem State.putWord_dscLen (s : State) (sp : Space) (w : Nat) (v : Word) : (s.putWord sp w v).dscLen = s.dscLen := State.setMem_dscLen s sp _
@[simp] theorem State.putWord_frmLen (s : State) (sp : Space) (w : Nat) (v : Word) : (s.putWord sp w v).frmLen = s.frmLen := State.setMem_frmLen s sp _
@[simp] theorem State.putWord_pdHyp (s : State) (sp : Space) (w : Nat) (v : Word) : (s.putWord sp w v).pdHyp = s.pdHyp := State.setMem_pdHyp s sp _
@[simp] theorem State.putWord_pdOk (s : State) (sp : Space) (w : Nat) (v : Word) : (s.putWord sp w v).pdOk = s.pdOk := State.setMem_pdOk s sp _
@[simp] theorem State.putWord_pdLenx (s : State) (sp : Space) (w : Nat) (v : Word) : (s.putWord sp w v).pdLenx = s.pdLenx := State.setMem_pdLenx s sp _
@[simp] theorem State.putWord_pdAtt (s : State) (sp : Space) (w : Nat) (v : Word) : (s.putWord sp w v).pdAtt = s.pdAtt := State.setMem_pdAtt s sp _
@[simp] theorem State.putWord_crcCalc (s : State) (sp : Space) (w : Nat) (v : Word) : (s.putWord sp w v).crcCalc = s.crcCalc := State.setMem_crcCalc s sp _
@[simp] theorem State.putWord_crcRx (s : State) (sp : Space) (w : Nat) (v : Word) : (s.putWord sp w v).crcRx = s.crcRx := State.setMem_crcRx s sp _
@[simp] theorem State.putWord_crcValid (s : State) (sp : Space) (w : Nat) (v : Word) : (s.putWord sp w v).crcValid = s.crcValid := State.setMem_crcValid s sp _
@[simp] theorem State.putWord_host (s : State) (sp : Space) (w : Nat) (v : Word) : (s.putWord sp w v).host = s.host := State.setMem_host s sp _
@[simp] theorem State.putWord_busData (s : State) (sp : Space) (w : Nat) (v : Word) : (s.putWord sp w v).busData = s.busData := State.setMem_busData s sp _
@[simp] theorem State.putWord_delay (s : State) (sp : Space) (w : Nat) (v : Word) : (s.putWord sp w v).delay = s.delay := State.setMem_delay s sp _
@[simp] theorem State.putWord_draws (s : State) (sp : Space) (w : Nat) (v : Word) : (s.putWord sp w v).draws = s.draws := State.setMem_draws s sp _
@[simp] theorem State.putWord_resets (s : State) (sp : Space) (w : Nat) (v : Word) : (s.putWord sp w v).resets = s.resets := State.setMem_resets s sp _

/-! ### `State.clearOvr` -/

@[simp] theorem State.clearOvr_cmd (s : State) : (s.clearOvr).cmd = s.cmd := (rfl)
@[simp] theorem State.clearOvr_busy (s : State) : (s.clearOvr).busy = s.busy := (rfl)
@[simp] theorem State.clearOvr_done (s : State) : (s.clearOvr).done = s.done := (rfl)
@[simp] theorem State.clearOvr_ovr (s : State) : (s.clearOvr).ovr = false := (rfl)
@[simp] theorem State.clearOvr_res (s : State) : (s.clearOvr).res = s.res := (rfl)
@[simp] theorem State.clearOvr_ie (s : State) : (s.clearOvr).ie = s.ie := (rfl)
@[simp] theorem State.clearOvr_capLen (s : State) : (s.clearOvr).capLen = s.capLen := (rfl)
@[simp] theorem State.clearOvr_capRate (s : State) : (s.clearOvr).capRate = s.capRate := (rfl)
@[simp] theorem State.clearOvr_capFreqLo (s : State) : (s.clearOvr).capFreqLo = s.capFreqLo := (rfl)
@[simp] theorem State.clearOvr_capFreqHi (s : State) : (s.clearOvr).capFreqHi = s.capFreqHi := (rfl)
@[simp] theorem State.clearOvr_capTsLo (s : State) : (s.clearOvr).capTsLo = s.capTsLo := (rfl)
@[simp] theorem State.clearOvr_capTsHi (s : State) : (s.clearOvr).capTsHi = s.capTsHi := (rfl)
@[simp] theorem State.clearOvr_bdNfound (s : State) : (s.clearOvr).bdNfound = s.bdNfound := (rfl)
@[simp] theorem State.clearOvr_bdNcand (s : State) : (s.clearOvr).bdNcand = s.bdNcand := (rfl)
@[simp] theorem State.clearOvr_bdLastoff (s : State) : (s.clearOvr).bdLastoff = s.bdLastoff := (rfl)
@[simp] theorem State.clearOvr_cfoStart (s : State) : (s.clearOvr).cfoStart = s.cfoStart := (rfl)
@[simp] theorem State.clearOvr_cfoEnd (s : State) : (s.clearOvr).cfoEnd = s.cfoEnd := (rfl)
@[simp] theorem State.clearOvr_cfoOffset (s : State) : (s.clearOvr).cfoOffset = s.cfoOffset := (rfl)
@[simp] theorem State.clearOvr_cfoFound (s : State) : (s.clearOvr).cfoFound = s.cfoFound := (rfl)
@[simp] theorem State.clearOvr_cfoComputable (s : State) : (s.clearOvr).cfoComputable = s.cfoComputable := (rfl)
@[simp] theorem State.clearOvr_cand0 (s : State) : (s.clearOvr).cand0 = s.cand0 := (rfl)
@[simp] theorem State.clearOvr_cand1 (s : State) : (s.clearOvr).cand1 = s.cand1 := (rfl)
@[simp] theorem State.clearOvr_cand2 (s : State) : (s.clearOvr).cand2 = s.cand2 := (rfl)
@[simp] theorem State.clearOvr_burLen (s : State) : (s.clearOvr).burLen = s.burLen := (rfl)
@[simp] theorem State.clearOvr_sxNgrp (s : State) : (s.clearOvr).sxNgrp = s.sxNgrp := (rfl)
@[simp] theorem State.clearOvr_symCount (s : State) : (s.clearOvr).symCount = s.symCount := (rfl)
@[simp] theorem State.clearOvr_goldSeed (s : State) : (s.clearOvr).goldSeed = s.goldSeed := (rfl)
@[simp] theorem State.clearOvr_rawLen (s : State) : (s.clearOvr).rawLen = s.rawLen := (rfl)
@[simp] theorem State.clearOvr_demLen (s : State) : (s.clearOvr).demLen = s.demLen := (rfl)
@[simp] theorem State.clearOvr_dscLen (s : State) : (s.clearOvr).dscLen = s.dscLen := (rfl)
@[simp] theorem State.clearOvr_frmLen (s : State) : (s.clearOvr).frmLen = s.frmLen := (rfl)
@[simp] theorem State.clearOvr_pdHyp (s : State) : (s.clearOvr).pdHyp = s.pdHyp := (rfl)
@[simp] theorem State.clearOvr_pdOk (s : State) : (s.clearOvr).pdOk = s.pdOk := (rfl)
@[simp] theorem State.clearOvr_pdLenx (s : State) : (s.clearOvr).pdLenx = s.pdLenx := (rfl)
@[simp] theorem State.clearOvr_pdAtt (s : State) : (s.clearOvr).pdAtt = s.pdAtt := (rfl)
@[simp] theorem State.clearOvr_crcCalc (s : State) : (s.clearOvr).crcCalc = s.crcCalc := (rfl)
@[simp] theorem State.clearOvr_crcRx (s : State) : (s.clearOvr).crcRx = s.crcRx := (rfl)
@[simp] theorem State.clearOvr_crcValid (s : State) : (s.clearOvr).crcValid = s.crcValid := (rfl)
@[simp] theorem State.clearOvr_cap (s : State) : (s.clearOvr).cap = s.cap := (rfl)
@[simp] theorem State.clearOvr_bur (s : State) : (s.clearOvr).bur = s.bur := (rfl)
@[simp] theorem State.clearOvr_sym (s : State) : (s.clearOvr).sym = s.sym := (rfl)
@[simp] theorem State.clearOvr_glen (s : State) : (s.clearOvr).glen = s.glen := (rfl)
@[simp] theorem State.clearOvr_raw (s : State) : (s.clearOvr).raw = s.raw := (rfl)
@[simp] theorem State.clearOvr_dem (s : State) : (s.clearOvr).dem = s.dem := (rfl)
@[simp] theorem State.clearOvr_dsc (s : State) : (s.clearOvr).dsc = s.dsc := (rfl)
@[simp] theorem State.clearOvr_frm (s : State) : (s.clearOvr).frm = s.frm := (rfl)
@[simp] theorem State.clearOvr_host (s : State) : (s.clearOvr).host = s.host := (rfl)
@[simp] theorem State.clearOvr_busData (s : State) : (s.clearOvr).busData = s.busData := (rfl)
@[simp] theorem State.clearOvr_delay (s : State) : (s.clearOvr).delay = s.delay := (rfl)
@[simp] theorem State.clearOvr_draws (s : State) : (s.clearOvr).draws = s.draws := (rfl)
@[simp] theorem State.clearOvr_resets (s : State) : (s.clearOvr).resets = s.resets := (rfl)

/-! ### `storeRaw` -/

@[simp] theorem storeRaw_cmd (bits : List Bool) (h : BitVec 2) (s : State) : (storeRaw bits h s).cmd = s.cmd := State.putBits_cmd s .raw bits
@[simp] theorem storeRaw_busy (bits : List Bool) (h : BitVec 2) (s : State) : (storeRaw bits h s).busy = s.busy := State.putBits_busy s .raw bits
@[simp] theorem storeRaw_done (bits : List Bool) (h : BitVec 2) (s : State) : (storeRaw bits h s).done = s.done := State.putBits_done s .raw bits
@[simp] theorem storeRaw_ovr (bits : List Bool) (h : BitVec 2) (s : State) : (storeRaw bits h s).ovr = s.ovr := State.putBits_ovr s .raw bits
@[simp] theorem storeRaw_res (bits : List Bool) (h : BitVec 2) (s : State) : (storeRaw bits h s).res = s.res := State.putBits_res s .raw bits
@[simp] theorem storeRaw_ie (bits : List Bool) (h : BitVec 2) (s : State) : (storeRaw bits h s).ie = s.ie := State.putBits_ie s .raw bits
@[simp] theorem storeRaw_capLen (bits : List Bool) (h : BitVec 2) (s : State) : (storeRaw bits h s).capLen = s.capLen := State.putBits_capLen s .raw bits
@[simp] theorem storeRaw_capRate (bits : List Bool) (h : BitVec 2) (s : State) : (storeRaw bits h s).capRate = s.capRate := State.putBits_capRate s .raw bits
@[simp] theorem storeRaw_capFreqLo (bits : List Bool) (h : BitVec 2) (s : State) : (storeRaw bits h s).capFreqLo = s.capFreqLo := State.putBits_capFreqLo s .raw bits
@[simp] theorem storeRaw_capFreqHi (bits : List Bool) (h : BitVec 2) (s : State) : (storeRaw bits h s).capFreqHi = s.capFreqHi := State.putBits_capFreqHi s .raw bits
@[simp] theorem storeRaw_capTsLo (bits : List Bool) (h : BitVec 2) (s : State) : (storeRaw bits h s).capTsLo = s.capTsLo := State.putBits_capTsLo s .raw bits
@[simp] theorem storeRaw_capTsHi (bits : List Bool) (h : BitVec 2) (s : State) : (storeRaw bits h s).capTsHi = s.capTsHi := State.putBits_capTsHi s .raw bits
@[simp] theorem storeRaw_bdNfound (bits : List Bool) (h : BitVec 2) (s : State) : (storeRaw bits h s).bdNfound = s.bdNfound := State.putBits_bdNfound s .raw bits
@[simp] theorem storeRaw_bdNcand (bits : List Bool) (h : BitVec 2) (s : State) : (storeRaw bits h s).bdNcand = s.bdNcand := State.putBits_bdNcand s .raw bits
@[simp] theorem storeRaw_bdLastoff (bits : List Bool) (h : BitVec 2) (s : State) : (storeRaw bits h s).bdLastoff = s.bdLastoff := State.putBits_bdLastoff s .raw bits
@[simp] theorem storeRaw_cfoStart (bits : List Bool) (h : BitVec 2) (s : State) : (storeRaw bits h s).cfoStart = s.cfoStart := State.putBits_cfoStart s .raw bits
@[simp] theorem storeRaw_cfoEnd (bits : List Bool) (h : BitVec 2) (s : State) : (storeRaw bits h s).cfoEnd = s.cfoEnd := State.putBits_cfoEnd s .raw bits
@[simp] theorem storeRaw_cfoOffset (bits : List Bool) (h : BitVec 2) (s : State) : (storeRaw bits h s).cfoOffset = s.cfoOffset := State.putBits_cfoOffset s .raw bits
@[simp] theorem storeRaw_cfoFound (bits : List Bool) (h : BitVec 2) (s : State) : (storeRaw bits h s).cfoFound = s.cfoFound := State.putBits_cfoFound s .raw bits
@[simp] theorem storeRaw_cfoComputable (bits : List Bool) (h : BitVec 2) (s : State) : (storeRaw bits h s).cfoComputable = s.cfoComputable := State.putBits_cfoComputable s .raw bits
@[simp] theorem storeRaw_cand0 (bits : List Bool) (h : BitVec 2) (s : State) : (storeRaw bits h s).cand0 = s.cand0 := State.putBits_cand0 s .raw bits
@[simp] theorem storeRaw_cand1 (bits : List Bool) (h : BitVec 2) (s : State) : (storeRaw bits h s).cand1 = s.cand1 := State.putBits_cand1 s .raw bits
@[simp] theorem storeRaw_cand2 (bits : List Bool) (h : BitVec 2) (s : State) : (storeRaw bits h s).cand2 = s.cand2 := State.putBits_cand2 s .raw bits
@[simp] theorem storeRaw_burLen (bits : List Bool) (h : BitVec 2) (s : State) : (storeRaw bits h s).burLen = s.burLen := State.putBits_burLen s .raw bits
@[simp] theorem storeRaw_sxNgrp (bits : List Bool) (h : BitVec 2) (s : State) : (storeRaw bits h s).sxNgrp = s.sxNgrp := State.putBits_sxNgrp s .raw bits
@[simp] theorem storeRaw_symCount (bits : List Bool) (h : BitVec 2) (s : State) : (storeRaw bits h s).symCount = s.symCount := State.putBits_symCount s .raw bits
@[simp] theorem storeRaw_goldSeed (bits : List Bool) (h : BitVec 2) (s : State) : (storeRaw bits h s).goldSeed = s.goldSeed := State.putBits_goldSeed s .raw bits
@[simp] theorem storeRaw_rawLen (bits : List Bool) (h : BitVec 2) (s : State) : (storeRaw bits h s).rawLen = BitVec.ofNat 32 (2 * s.symCount.toNat) := (rfl)
@[simp] theorem storeRaw_demLen (bits : List Bool) (h : BitVec 2) (s : State) : (storeRaw bits h s).demLen = s.demLen := State.putBits_demLen s .raw bits
@[simp] theorem storeRaw_dscLen (bits : List Bool) (h : BitVec 2) (s : State) : (storeRaw bits h s).dscLen = s.dscLen := State.putBits_dscLen s .raw bits
@[simp] theorem storeRaw_frmLen (bits : List Bool) (h : BitVec 2) (s : State) : (storeRaw bits h s).frmLen = s.frmLen := State.putBits_frmLen s .raw bits
@[simp] theorem storeRaw_pdHyp (bits : List Bool) (h : BitVec 2) (s : State) : (storeRaw bits h s).pdHyp = h := (rfl)
@[simp] theorem storeRaw_pdOk (bits : List Bool) (h : BitVec 2) (s : State) : (storeRaw bits h s).pdOk = s.pdOk := State.putBits_pdOk s .raw bits
@[simp] theorem storeRaw_pdLenx (bits : List Bool) (h : BitVec 2) (s : State) : (storeRaw bits h s).pdLenx = s.pdLenx := State.putBits_pdLenx s .raw bits
@[simp] theorem storeRaw_pdAtt (bits : List Bool) (h : BitVec 2) (s : State) : (storeRaw bits h s).pdAtt = s.pdAtt := State.putBits_pdAtt s .raw bits
@[simp] theorem storeRaw_crcCalc (bits : List Bool) (h : BitVec 2) (s : State) : (storeRaw bits h s).crcCalc = s.crcCalc := State.putBits_crcCalc s .raw bits
@[simp] theorem storeRaw_crcRx (bits : List Bool) (h : BitVec 2) (s : State) : (storeRaw bits h s).crcRx = s.crcRx := State.putBits_crcRx s .raw bits
@[simp] theorem storeRaw_crcValid (bits : List Bool) (h : BitVec 2) (s : State) : (storeRaw bits h s).crcValid = s.crcValid := State.putBits_crcValid s .raw bits
@[simp] theorem storeRaw_cap (bits : List Bool) (h : BitVec 2) (s : State) : (storeRaw bits h s).cap = s.cap := (rfl)
@[simp] theorem storeRaw_bur (bits : List Bool) (h : BitVec 2) (s : State) : (storeRaw bits h s).bur = s.bur := (rfl)
@[simp] theorem storeRaw_sym (bits : List Bool) (h : BitVec 2) (s : State) : (storeRaw bits h s).sym = s.sym := (rfl)
@[simp] theorem storeRaw_glen (bits : List Bool) (h : BitVec 2) (s : State) : (storeRaw bits h s).glen = s.glen := (rfl)
@[simp] theorem storeRaw_dem (bits : List Bool) (h : BitVec 2) (s : State) : (storeRaw bits h s).dem = s.dem := (rfl)
@[simp] theorem storeRaw_dsc (bits : List Bool) (h : BitVec 2) (s : State) : (storeRaw bits h s).dsc = s.dsc := (rfl)
@[simp] theorem storeRaw_frm (bits : List Bool) (h : BitVec 2) (s : State) : (storeRaw bits h s).frm = s.frm := (rfl)
@[simp] theorem storeRaw_host (bits : List Bool) (h : BitVec 2) (s : State) : (storeRaw bits h s).host = s.host := State.putBits_host s .raw bits
@[simp] theorem storeRaw_busData (bits : List Bool) (h : BitVec 2) (s : State) : (storeRaw bits h s).busData = s.busData := State.putBits_busData s .raw bits
@[simp] theorem storeRaw_delay (bits : List Bool) (h : BitVec 2) (s : State) : (storeRaw bits h s).delay = s.delay := State.putBits_delay s .raw bits
@[simp] theorem storeRaw_draws (bits : List Bool) (h : BitVec 2) (s : State) : (storeRaw bits h s).draws = s.draws := State.putBits_draws s .raw bits
@[simp] theorem storeRaw_resets (bits : List Bool) (h : BitVec 2) (s : State) : (storeRaw bits h s).resets = s.resets := State.putBits_resets s .raw bits

/-! ### `storeDem` -/

@[simp] theorem storeDem_cmd (bits : List Bool) (s : State) : (storeDem bits s).cmd = s.cmd := State.putBits_cmd s .dem bits
@[simp] theorem storeDem_busy (bits : List Bool) (s : State) : (storeDem bits s).busy = s.busy := State.putBits_busy s .dem bits
@[simp] theorem storeDem_done (bits : List Bool) (s : State) : (storeDem bits s).done = s.done := State.putBits_done s .dem bits
@[simp] theorem storeDem_ovr (bits : List Bool) (s : State) : (storeDem bits s).ovr = s.ovr := State.putBits_ovr s .dem bits
@[simp] theorem storeDem_res (bits : List Bool) (s : State) : (storeDem bits s).res = s.res := State.putBits_res s .dem bits
@[simp] theorem storeDem_ie (bits : List Bool) (s : State) : (storeDem bits s).ie = s.ie := State.putBits_ie s .dem bits
@[simp] theorem storeDem_capLen (bits : List Bool) (s : State) : (storeDem bits s).capLen = s.capLen := State.putBits_capLen s .dem bits
@[simp] theorem storeDem_capRate (bits : List Bool) (s : State) : (storeDem bits s).capRate = s.capRate := State.putBits_capRate s .dem bits
@[simp] theorem storeDem_capFreqLo (bits : List Bool) (s : State) : (storeDem bits s).capFreqLo = s.capFreqLo := State.putBits_capFreqLo s .dem bits
@[simp] theorem storeDem_capFreqHi (bits : List Bool) (s : State) : (storeDem bits s).capFreqHi = s.capFreqHi := State.putBits_capFreqHi s .dem bits
@[simp] theorem storeDem_capTsLo (bits : List Bool) (s : State) : (storeDem bits s).capTsLo = s.capTsLo := State.putBits_capTsLo s .dem bits
@[simp] theorem storeDem_capTsHi (bits : List Bool) (s : State) : (storeDem bits s).capTsHi = s.capTsHi := State.putBits_capTsHi s .dem bits
@[simp] theorem storeDem_bdNfound (bits : List Bool) (s : State) : (storeDem bits s).bdNfound = s.bdNfound := State.putBits_bdNfound s .dem bits
@[simp] theorem storeDem_bdNcand (bits : List Bool) (s : State) : (storeDem bits s).bdNcand = s.bdNcand := State.putBits_bdNcand s .dem bits
@[simp] theorem storeDem_bdLastoff (bits : List Bool) (s : State) : (storeDem bits s).bdLastoff = s.bdLastoff := State.putBits_bdLastoff s .dem bits
@[simp] theorem storeDem_cfoStart (bits : List Bool) (s : State) : (storeDem bits s).cfoStart = s.cfoStart := State.putBits_cfoStart s .dem bits
@[simp] theorem storeDem_cfoEnd (bits : List Bool) (s : State) : (storeDem bits s).cfoEnd = s.cfoEnd := State.putBits_cfoEnd s .dem bits
@[simp] theorem storeDem_cfoOffset (bits : List Bool) (s : State) : (storeDem bits s).cfoOffset = s.cfoOffset := State.putBits_cfoOffset s .dem bits
@[simp] theorem storeDem_cfoFound (bits : List Bool) (s : State) : (storeDem bits s).cfoFound = s.cfoFound := State.putBits_cfoFound s .dem bits
@[simp] theorem storeDem_cfoComputable (bits : List Bool) (s : State) : (storeDem bits s).cfoComputable = s.cfoComputable := State.putBits_cfoComputable s .dem bits
@[simp] theorem storeDem_cand0 (bits : List Bool) (s : State) : (storeDem bits s).cand0 = s.cand0 := State.putBits_cand0 s .dem bits
@[simp] theorem storeDem_cand1 (bits : List Bool) (s : State) : (storeDem bits s).cand1 = s.cand1 := State.putBits_cand1 s .dem bits
@[simp] theorem storeDem_cand2 (bits : List Bool) (s : State) : (storeDem bits s).cand2 = s.cand2 := State.putBits_cand2 s .dem bits
@[simp] theorem storeDem_burLen (bits : List Bool) (s : State) : (storeDem bits s).burLen = s.burLen := State.putBits_burLen s .dem bits
@[simp] theorem storeDem_sxNgrp (bits : List Bool) (s : State) : (storeDem bits s).sxNgrp = s.sxNgrp := State.putBits_sxNgrp s .dem bits
@[simp] theorem storeDem_symCount (bits : List Bool) (s : State) : (storeDem bits s).symCount = s.symCount := State.putBits_symCount s .dem bits
@[simp] theorem storeDem_goldSeed (bits : List Bool) (s : State) : (storeDem bits s).goldSeed = s.goldSeed := State.putBits_goldSeed s .dem bits
@[simp] theorem storeDem_rawLen (bits : List Bool) (s : State) : (storeDem bits s).rawLen = s.rawLen := State.putBits_rawLen s .dem bits
@[simp] theorem storeDem_demLen (bits : List Bool) (s : State) : (storeDem bits s).demLen = s.rawLen := (rfl)
@[simp] theorem storeDem_dscLen (bits : List Bool) (s : State) : (storeDem bits s).dscLen = s.dscLen := State.putBits_dscLen s .dem bits
@[simp] theorem storeDem_frmLen (bits : List Bool) (s : State) : (storeDem bits s).frmLen = s.frmLen := State.putBits_frmLen s .dem bits
@[simp] theorem storeDem_pdHyp (bits : List Bool) (s : State) : (storeDem bits s).pdHyp = s.pdHyp := State.putBits_pdHyp s .dem bits
@[simp] theorem storeDem_pdOk (bits : List Bool) (s : State) : (storeDem bits s).pdOk = s.pdOk := State.putBits_pdOk s .dem bits
@[simp] theorem storeDem_pdLenx (bits : List Bool) (s : State) : (storeDem bits s).pdLenx = (s.rawLen.toNat != sysLenExpected) := (rfl)
@[simp] theorem storeDem_pdAtt (bits : List Bool) (s : State) : (storeDem bits s).pdAtt = s.pdAtt := State.putBits_pdAtt s .dem bits
@[simp] theorem storeDem_crcCalc (bits : List Bool) (s : State) : (storeDem bits s).crcCalc = s.crcCalc := State.putBits_crcCalc s .dem bits
@[simp] theorem storeDem_crcRx (bits : List Bool) (s : State) : (storeDem bits s).crcRx = s.crcRx := State.putBits_crcRx s .dem bits
@[simp] theorem storeDem_crcValid (bits : List Bool) (s : State) : (storeDem bits s).crcValid = s.crcValid := State.putBits_crcValid s .dem bits
@[simp] theorem storeDem_cap (bits : List Bool) (s : State) : (storeDem bits s).cap = s.cap := (rfl)
@[simp] theorem storeDem_bur (bits : List Bool) (s : State) : (storeDem bits s).bur = s.bur := (rfl)
@[simp] theorem storeDem_sym (bits : List Bool) (s : State) : (storeDem bits s).sym = s.sym := (rfl)
@[simp] theorem storeDem_glen (bits : List Bool) (s : State) : (storeDem bits s).glen = s.glen := (rfl)
@[simp] theorem storeDem_raw (bits : List Bool) (s : State) : (storeDem bits s).raw = s.raw := (rfl)
@[simp] theorem storeDem_dsc (bits : List Bool) (s : State) : (storeDem bits s).dsc = s.dsc := (rfl)
@[simp] theorem storeDem_frm (bits : List Bool) (s : State) : (storeDem bits s).frm = s.frm := (rfl)
@[simp] theorem storeDem_host (bits : List Bool) (s : State) : (storeDem bits s).host = s.host := State.putBits_host s .dem bits
@[simp] theorem storeDem_busData (bits : List Bool) (s : State) : (storeDem bits s).busData = s.busData := State.putBits_busData s .dem bits
@[simp] theorem storeDem_delay (bits : List Bool) (s : State) : (storeDem bits s).delay = s.delay := State.putBits_delay s .dem bits
@[simp] theorem storeDem_draws (bits : List Bool) (s : State) : (storeDem bits s).draws = s.draws := State.putBits_draws s .dem bits
@[simp] theorem storeDem_resets (bits : List Bool) (s : State) : (storeDem bits s).resets = s.resets := State.putBits_resets s .dem bits

/-! ### `storeDsc` -/

@[simp] theorem storeDsc_cmd (bits : List Bool) (s : State) : (storeDsc bits s).cmd = s.cmd := State.putBits_cmd s .dsc bits
@[simp] theorem storeDsc_busy (bits : List Bool) (s : State) : (storeDsc bits s).busy = s.busy := State.putBits_busy s .dsc bits
@[simp] theorem storeDsc_done (bits : List Bool) (s : State) : (storeDsc bits s).done = s.done := State.putBits_done s .dsc bits
@[simp] theorem storeDsc_ovr (bits : List Bool) (s : State) : (storeDsc bits s).ovr = s.ovr := State.putBits_ovr s .dsc bits
@[simp] theorem storeDsc_res (bits : List Bool) (s : State) : (storeDsc bits s).res = s.res := State.putBits_res s .dsc bits
@[simp] theorem storeDsc_ie (bits : List Bool) (s : State) : (storeDsc bits s).ie = s.ie := State.putBits_ie s .dsc bits
@[simp] theorem storeDsc_capLen (bits : List Bool) (s : State) : (storeDsc bits s).capLen = s.capLen := State.putBits_capLen s .dsc bits
@[simp] theorem storeDsc_capRate (bits : List Bool) (s : State) : (storeDsc bits s).capRate = s.capRate := State.putBits_capRate s .dsc bits
@[simp] theorem storeDsc_capFreqLo (bits : List Bool) (s : State) : (storeDsc bits s).capFreqLo = s.capFreqLo := State.putBits_capFreqLo s .dsc bits
@[simp] theorem storeDsc_capFreqHi (bits : List Bool) (s : State) : (storeDsc bits s).capFreqHi = s.capFreqHi := State.putBits_capFreqHi s .dsc bits
@[simp] theorem storeDsc_capTsLo (bits : List Bool) (s : State) : (storeDsc bits s).capTsLo = s.capTsLo := State.putBits_capTsLo s .dsc bits
@[simp] theorem storeDsc_capTsHi (bits : List Bool) (s : State) : (storeDsc bits s).capTsHi = s.capTsHi := State.putBits_capTsHi s .dsc bits
@[simp] theorem storeDsc_bdNfound (bits : List Bool) (s : State) : (storeDsc bits s).bdNfound = s.bdNfound := State.putBits_bdNfound s .dsc bits
@[simp] theorem storeDsc_bdNcand (bits : List Bool) (s : State) : (storeDsc bits s).bdNcand = s.bdNcand := State.putBits_bdNcand s .dsc bits
@[simp] theorem storeDsc_bdLastoff (bits : List Bool) (s : State) : (storeDsc bits s).bdLastoff = s.bdLastoff := State.putBits_bdLastoff s .dsc bits
@[simp] theorem storeDsc_cfoStart (bits : List Bool) (s : State) : (storeDsc bits s).cfoStart = s.cfoStart := State.putBits_cfoStart s .dsc bits
@[simp] theorem storeDsc_cfoEnd (bits : List Bool) (s : State) : (storeDsc bits s).cfoEnd = s.cfoEnd := State.putBits_cfoEnd s .dsc bits
@[simp] theorem storeDsc_cfoOffset (bits : List Bool) (s : State) : (storeDsc bits s).cfoOffset = s.cfoOffset := State.putBits_cfoOffset s .dsc bits
@[simp] theorem storeDsc_cfoFound (bits : List Bool) (s : State) : (storeDsc bits s).cfoFound = s.cfoFound := State.putBits_cfoFound s .dsc bits
@[simp] theorem storeDsc_cfoComputable (bits : List Bool) (s : State) : (storeDsc bits s).cfoComputable = s.cfoComputable := State.putBits_cfoComputable s .dsc bits
@[simp] theorem storeDsc_cand0 (bits : List Bool) (s : State) : (storeDsc bits s).cand0 = s.cand0 := State.putBits_cand0 s .dsc bits
@[simp] theorem storeDsc_cand1 (bits : List Bool) (s : State) : (storeDsc bits s).cand1 = s.cand1 := State.putBits_cand1 s .dsc bits
@[simp] theorem storeDsc_cand2 (bits : List Bool) (s : State) : (storeDsc bits s).cand2 = s.cand2 := State.putBits_cand2 s .dsc bits
@[simp] theorem storeDsc_burLen (bits : List Bool) (s : State) : (storeDsc bits s).burLen = s.burLen := State.putBits_burLen s .dsc bits
@[simp] theorem storeDsc_sxNgrp (bits : List Bool) (s : State) : (storeDsc bits s).sxNgrp = s.sxNgrp := State.putBits_sxNgrp s .dsc bits
@[simp] theorem storeDsc_symCount (bits : List Bool) (s : State) : (storeDsc bits s).symCount = s.symCount := State.putBits_symCount s .dsc bits
@[simp] theorem storeDsc_goldSeed (bits : List Bool) (s : State) : (storeDsc bits s).goldSeed = s.goldSeed := State.putBits_goldSeed s .dsc bits
@[simp] theorem storeDsc_rawLen (bits : List Bool) (s : State) : (storeDsc bits s).rawLen = s.rawLen := State.putBits_rawLen s .dsc bits
@[simp] theorem storeDsc_demLen (bits : List Bool) (s : State) : (storeDsc bits s).demLen = s.demLen := State.putBits_demLen s .dsc bits
@[simp] theorem storeDsc_dscLen (bits : List Bool) (s : State) : (storeDsc bits s).dscLen = s.demLen := (rfl)
@[simp] theorem storeDsc_frmLen (bits : List Bool) (s : State) : (storeDsc bits s).frmLen = s.frmLen := State.putBits_frmLen s .dsc bits
@[simp] theorem storeDsc_pdHyp (bits : List Bool) (s : State) : (storeDsc bits s).pdHyp = s.pdHyp := State.putBits_pdHyp s .dsc bits
@[simp] theorem storeDsc_pdOk (bits : List Bool) (s : State) : (storeDsc bits s).pdOk = s.pdOk := State.putBits_pdOk s .dsc bits
@[simp] theorem storeDsc_pdLenx (bits : List Bool) (s : State) : (storeDsc bits s).pdLenx = s.pdLenx := State.putBits_pdLenx s .dsc bits
@[simp] theorem storeDsc_pdAtt (bits : List Bool) (s : State) : (storeDsc bits s).pdAtt = s.pdAtt := State.putBits_pdAtt s .dsc bits
@[simp] theorem storeDsc_crcCalc (bits : List Bool) (s : State) : (storeDsc bits s).crcCalc = s.crcCalc := State.putBits_crcCalc s .dsc bits
@[simp] theorem storeDsc_crcRx (bits : List Bool) (s : State) : (storeDsc bits s).crcRx = s.crcRx := State.putBits_crcRx s .dsc bits
@[simp] theorem storeDsc_crcValid (bits : List Bool) (s : State) : (storeDsc bits s).crcValid = s.crcValid := State.putBits_crcValid s .dsc bits
@[simp] theorem storeDsc_cap (bits : List Bool) (s : State) : (storeDsc bits s).cap = s.cap := (rfl)
@[simp] theorem storeDsc_bur (bits : List Bool) (s : State) : (storeDsc bits s).bur = s.bur := (rfl)
@[simp] theorem storeDsc_sym (bits : List Bool) (s : State) : (storeDsc bits s).sym = s.sym := (rfl)
@[simp] theorem storeDsc_glen (bits : List Bool) (s : State) : (storeDsc bits s).glen = s.glen := (rfl)
@[simp] theorem storeDsc_raw (bits : List Bool) (s : State) : (storeDsc bits s).raw = s.raw := (rfl)
@[simp] theorem storeDsc_dem (bits : List Bool) (s : State) : (storeDsc bits s).dem = s.dem := (rfl)
@[simp] theorem storeDsc_frm (bits : List Bool) (s : State) : (storeDsc bits s).frm = s.frm := (rfl)
@[simp] theorem storeDsc_host (bits : List Bool) (s : State) : (storeDsc bits s).host = s.host := State.putBits_host s .dsc bits
@[simp] theorem storeDsc_busData (bits : List Bool) (s : State) : (storeDsc bits s).busData = s.busData := State.putBits_busData s .dsc bits
@[simp] theorem storeDsc_delay (bits : List Bool) (s : State) : (storeDsc bits s).delay = s.delay := State.putBits_delay s .dsc bits
@[simp] theorem storeDsc_draws (bits : List Bool) (s : State) : (storeDsc bits s).draws = s.draws := State.putBits_draws s .dsc bits
@[simp] theorem storeDsc_resets (bits : List Bool) (s : State) : (storeDsc bits s).resets = s.resets := State.putBits_resets s .dsc bits

/-! ### `storeFrm` -/

@[simp] theorem storeFrm_cmd (bytes : List Byte) (s : State) : (storeFrm bytes s).cmd = s.cmd := State.putBytes_cmd s.clearCrc .frm bytes
@[simp] theorem storeFrm_busy (bytes : List Byte) (s : State) : (storeFrm bytes s).busy = s.busy := State.putBytes_busy s.clearCrc .frm bytes
@[simp] theorem storeFrm_done (bytes : List Byte) (s : State) : (storeFrm bytes s).done = s.done := State.putBytes_done s.clearCrc .frm bytes
@[simp] theorem storeFrm_ovr (bytes : List Byte) (s : State) : (storeFrm bytes s).ovr = s.ovr := State.putBytes_ovr s.clearCrc .frm bytes
@[simp] theorem storeFrm_res (bytes : List Byte) (s : State) : (storeFrm bytes s).res = s.res := State.putBytes_res s.clearCrc .frm bytes
@[simp] theorem storeFrm_ie (bytes : List Byte) (s : State) : (storeFrm bytes s).ie = s.ie := State.putBytes_ie s.clearCrc .frm bytes
@[simp] theorem storeFrm_capLen (bytes : List Byte) (s : State) : (storeFrm bytes s).capLen = s.capLen := State.putBytes_capLen s.clearCrc .frm bytes
@[simp] theorem storeFrm_capRate (bytes : List Byte) (s : State) : (storeFrm bytes s).capRate = s.capRate := State.putBytes_capRate s.clearCrc .frm bytes
@[simp] theorem storeFrm_capFreqLo (bytes : List Byte) (s : State) : (storeFrm bytes s).capFreqLo = s.capFreqLo := State.putBytes_capFreqLo s.clearCrc .frm bytes
@[simp] theorem storeFrm_capFreqHi (bytes : List Byte) (s : State) : (storeFrm bytes s).capFreqHi = s.capFreqHi := State.putBytes_capFreqHi s.clearCrc .frm bytes
@[simp] theorem storeFrm_capTsLo (bytes : List Byte) (s : State) : (storeFrm bytes s).capTsLo = s.capTsLo := State.putBytes_capTsLo s.clearCrc .frm bytes
@[simp] theorem storeFrm_capTsHi (bytes : List Byte) (s : State) : (storeFrm bytes s).capTsHi = s.capTsHi := State.putBytes_capTsHi s.clearCrc .frm bytes
@[simp] theorem storeFrm_bdNfound (bytes : List Byte) (s : State) : (storeFrm bytes s).bdNfound = s.bdNfound := State.putBytes_bdNfound s.clearCrc .frm bytes
@[simp] theorem storeFrm_bdNcand (bytes : List Byte) (s : State) : (storeFrm bytes s).bdNcand = s.bdNcand := State.putBytes_bdNcand s.clearCrc .frm bytes
@[simp] theorem storeFrm_bdLastoff (bytes : List Byte) (s : State) : (storeFrm bytes s).bdLastoff = s.bdLastoff := State.putBytes_bdLastoff s.clearCrc .frm bytes
@[simp] theorem storeFrm_cfoStart (bytes : List Byte) (s : State) : (storeFrm bytes s).cfoStart = s.cfoStart := State.putBytes_cfoStart s.clearCrc .frm bytes
@[simp] theorem storeFrm_cfoEnd (bytes : List Byte) (s : State) : (storeFrm bytes s).cfoEnd = s.cfoEnd := State.putBytes_cfoEnd s.clearCrc .frm bytes
@[simp] theorem storeFrm_cfoOffset (bytes : List Byte) (s : State) : (storeFrm bytes s).cfoOffset = s.cfoOffset := State.putBytes_cfoOffset s.clearCrc .frm bytes
@[simp] theorem storeFrm_cfoFound (bytes : List Byte) (s : State) : (storeFrm bytes s).cfoFound = s.cfoFound := State.putBytes_cfoFound s.clearCrc .frm bytes
@[simp] theorem storeFrm_cfoComputable (bytes : List Byte) (s : State) : (storeFrm bytes s).cfoComputable = s.cfoComputable := State.putBytes_cfoComputable s.clearCrc .frm bytes
@[simp] theorem storeFrm_cand0 (bytes : List Byte) (s : State) : (storeFrm bytes s).cand0 = s.cand0 := State.putBytes_cand0 s.clearCrc .frm bytes
@[simp] theorem storeFrm_cand1 (bytes : List Byte) (s : State) : (storeFrm bytes s).cand1 = s.cand1 := State.putBytes_cand1 s.clearCrc .frm bytes
@[simp] theorem storeFrm_cand2 (bytes : List Byte) (s : State) : (storeFrm bytes s).cand2 = s.cand2 := State.putBytes_cand2 s.clearCrc .frm bytes
@[simp] theorem storeFrm_burLen (bytes : List Byte) (s : State) : (storeFrm bytes s).burLen = s.burLen := State.putBytes_burLen s.clearCrc .frm bytes
@[simp] theorem storeFrm_sxNgrp (bytes : List Byte) (s : State) : (storeFrm bytes s).sxNgrp = s.sxNgrp := State.putBytes_sxNgrp s.clearCrc .frm bytes
@[simp] theorem storeFrm_symCount (bytes : List Byte) (s : State) : (storeFrm bytes s).symCount = s.symCount := State.putBytes_symCount s.clearCrc .frm bytes
@[simp] theorem storeFrm_goldSeed (bytes : List Byte) (s : State) : (storeFrm bytes s).goldSeed = s.goldSeed := State.putBytes_goldSeed s.clearCrc .frm bytes
@[simp] theorem storeFrm_rawLen (bytes : List Byte) (s : State) : (storeFrm bytes s).rawLen = s.rawLen := State.putBytes_rawLen s.clearCrc .frm bytes
@[simp] theorem storeFrm_demLen (bytes : List Byte) (s : State) : (storeFrm bytes s).demLen = s.demLen := State.putBytes_demLen s.clearCrc .frm bytes
@[simp] theorem storeFrm_dscLen (bytes : List Byte) (s : State) : (storeFrm bytes s).dscLen = s.dscLen := State.putBytes_dscLen s.clearCrc .frm bytes
@[simp] theorem storeFrm_frmLen (bytes : List Byte) (s : State) : (storeFrm bytes s).frmLen = BitVec.ofNat 32 (s.dscLen.toNat / 8) := (rfl)
@[simp] theorem storeFrm_pdHyp (bytes : List Byte) (s : State) : (storeFrm bytes s).pdHyp = s.pdHyp := State.putBytes_pdHyp s.clearCrc .frm bytes
@[simp] theorem storeFrm_pdOk (bytes : List Byte) (s : State) : (storeFrm bytes s).pdOk = s.pdOk := State.putBytes_pdOk s.clearCrc .frm bytes
@[simp] theorem storeFrm_pdLenx (bytes : List Byte) (s : State) : (storeFrm bytes s).pdLenx = s.pdLenx := State.putBytes_pdLenx s.clearCrc .frm bytes
@[simp] theorem storeFrm_pdAtt (bytes : List Byte) (s : State) : (storeFrm bytes s).pdAtt = s.pdAtt := State.putBytes_pdAtt s.clearCrc .frm bytes
@[simp] theorem storeFrm_crcCalc (bytes : List Byte) (s : State) : (storeFrm bytes s).crcCalc = 0#16 := (rfl)
@[simp] theorem storeFrm_crcRx (bytes : List Byte) (s : State) : (storeFrm bytes s).crcRx = 0#16 := (rfl)
@[simp] theorem storeFrm_crcValid (bytes : List Byte) (s : State) : (storeFrm bytes s).crcValid = false := (rfl)
@[simp] theorem storeFrm_cap (bytes : List Byte) (s : State) : (storeFrm bytes s).cap = s.cap := (rfl)
@[simp] theorem storeFrm_bur (bytes : List Byte) (s : State) : (storeFrm bytes s).bur = s.bur := (rfl)
@[simp] theorem storeFrm_sym (bytes : List Byte) (s : State) : (storeFrm bytes s).sym = s.sym := (rfl)
@[simp] theorem storeFrm_glen (bytes : List Byte) (s : State) : (storeFrm bytes s).glen = s.glen := (rfl)
@[simp] theorem storeFrm_raw (bytes : List Byte) (s : State) : (storeFrm bytes s).raw = s.raw := (rfl)
@[simp] theorem storeFrm_dem (bytes : List Byte) (s : State) : (storeFrm bytes s).dem = s.dem := (rfl)
@[simp] theorem storeFrm_dsc (bytes : List Byte) (s : State) : (storeFrm bytes s).dsc = s.dsc := (rfl)
@[simp] theorem storeFrm_host (bytes : List Byte) (s : State) : (storeFrm bytes s).host = s.host := State.putBytes_host s.clearCrc .frm bytes
@[simp] theorem storeFrm_busData (bytes : List Byte) (s : State) : (storeFrm bytes s).busData = s.busData := State.putBytes_busData s.clearCrc .frm bytes
@[simp] theorem storeFrm_delay (bytes : List Byte) (s : State) : (storeFrm bytes s).delay = s.delay := State.putBytes_delay s.clearCrc .frm bytes
@[simp] theorem storeFrm_draws (bytes : List Byte) (s : State) : (storeFrm bytes s).draws = s.draws := State.putBytes_draws s.clearCrc .frm bytes
@[simp] theorem storeFrm_resets (bytes : List Byte) (s : State) : (storeFrm bytes s).resets = s.resets := State.putBytes_resets s.clearCrc .frm bytes

/-! ### `storeVerdict` -/

@[simp] theorem storeVerdict_cmd (ok : Bool) (s : State) : (storeVerdict ok s).cmd = s.cmd := (rfl)
@[simp] theorem storeVerdict_busy (ok : Bool) (s : State) : (storeVerdict ok s).busy = s.busy := (rfl)
@[simp] theorem storeVerdict_done (ok : Bool) (s : State) : (storeVerdict ok s).done = s.done := (rfl)
@[simp] theorem storeVerdict_ovr (ok : Bool) (s : State) : (storeVerdict ok s).ovr = s.ovr := (rfl)
@[simp] theorem storeVerdict_res (ok : Bool) (s : State) : (storeVerdict ok s).res = s.res := (rfl)
@[simp] theorem storeVerdict_ie (ok : Bool) (s : State) : (storeVerdict ok s).ie = s.ie := (rfl)
@[simp] theorem storeVerdict_capLen (ok : Bool) (s : State) : (storeVerdict ok s).capLen = s.capLen := (rfl)
@[simp] theorem storeVerdict_capRate (ok : Bool) (s : State) : (storeVerdict ok s).capRate = s.capRate := (rfl)
@[simp] theorem storeVerdict_capFreqLo (ok : Bool) (s : State) : (storeVerdict ok s).capFreqLo = s.capFreqLo := (rfl)
@[simp] theorem storeVerdict_capFreqHi (ok : Bool) (s : State) : (storeVerdict ok s).capFreqHi = s.capFreqHi := (rfl)
@[simp] theorem storeVerdict_capTsLo (ok : Bool) (s : State) : (storeVerdict ok s).capTsLo = s.capTsLo := (rfl)
@[simp] theorem storeVerdict_capTsHi (ok : Bool) (s : State) : (storeVerdict ok s).capTsHi = s.capTsHi := (rfl)
@[simp] theorem storeVerdict_bdNfound (ok : Bool) (s : State) : (storeVerdict ok s).bdNfound = s.bdNfound := (rfl)
@[simp] theorem storeVerdict_bdNcand (ok : Bool) (s : State) : (storeVerdict ok s).bdNcand = s.bdNcand := (rfl)
@[simp] theorem storeVerdict_bdLastoff (ok : Bool) (s : State) : (storeVerdict ok s).bdLastoff = s.bdLastoff := (rfl)
@[simp] theorem storeVerdict_cfoStart (ok : Bool) (s : State) : (storeVerdict ok s).cfoStart = s.cfoStart := (rfl)
@[simp] theorem storeVerdict_cfoEnd (ok : Bool) (s : State) : (storeVerdict ok s).cfoEnd = s.cfoEnd := (rfl)
@[simp] theorem storeVerdict_cfoOffset (ok : Bool) (s : State) : (storeVerdict ok s).cfoOffset = s.cfoOffset := (rfl)
@[simp] theorem storeVerdict_cfoFound (ok : Bool) (s : State) : (storeVerdict ok s).cfoFound = s.cfoFound := (rfl)
@[simp] theorem storeVerdict_cfoComputable (ok : Bool) (s : State) : (storeVerdict ok s).cfoComputable = s.cfoComputable := (rfl)
@[simp] theorem storeVerdict_cand0 (ok : Bool) (s : State) : (storeVerdict ok s).cand0 = s.cand0 := (rfl)
@[simp] theorem storeVerdict_cand1 (ok : Bool) (s : State) : (storeVerdict ok s).cand1 = s.cand1 := (rfl)
@[simp] theorem storeVerdict_cand2 (ok : Bool) (s : State) : (storeVerdict ok s).cand2 = s.cand2 := (rfl)
@[simp] theorem storeVerdict_burLen (ok : Bool) (s : State) : (storeVerdict ok s).burLen = s.burLen := (rfl)
@[simp] theorem storeVerdict_sxNgrp (ok : Bool) (s : State) : (storeVerdict ok s).sxNgrp = s.sxNgrp := (rfl)
@[simp] theorem storeVerdict_symCount (ok : Bool) (s : State) : (storeVerdict ok s).symCount = s.symCount := (rfl)
@[simp] theorem storeVerdict_goldSeed (ok : Bool) (s : State) : (storeVerdict ok s).goldSeed = s.goldSeed := (rfl)
@[simp] theorem storeVerdict_rawLen (ok : Bool) (s : State) : (storeVerdict ok s).rawLen = s.rawLen := (rfl)
@[simp] theorem storeVerdict_demLen (ok : Bool) (s : State) : (storeVerdict ok s).demLen = s.demLen := (rfl)
@[simp] theorem storeVerdict_dscLen (ok : Bool) (s : State) : (storeVerdict ok s).dscLen = s.dscLen := (rfl)
@[simp] theorem storeVerdict_frmLen (ok : Bool) (s : State) : (storeVerdict ok s).frmLen = s.frmLen := (rfl)
@[simp] theorem storeVerdict_pdHyp (ok : Bool) (s : State) : (storeVerdict ok s).pdHyp = s.pdHyp := (rfl)
@[simp] theorem storeVerdict_pdOk (ok : Bool) (s : State) : (storeVerdict ok s).pdOk = ok := (rfl)
@[simp] theorem storeVerdict_pdLenx (ok : Bool) (s : State) : (storeVerdict ok s).pdLenx = s.pdLenx := (rfl)
@[simp] theorem storeVerdict_pdAtt (ok : Bool) (s : State) : (storeVerdict ok s).pdAtt = s.pdAtt := (rfl)
@[simp] theorem storeVerdict_crcCalc (ok : Bool) (s : State) : (storeVerdict ok s).crcCalc = s.crcCalc := (rfl)
@[simp] theorem storeVerdict_crcRx (ok : Bool) (s : State) : (storeVerdict ok s).crcRx = s.crcRx := (rfl)
@[simp] theorem storeVerdict_crcValid (ok : Bool) (s : State) : (storeVerdict ok s).crcValid = s.crcValid := (rfl)
@[simp] theorem storeVerdict_cap (ok : Bool) (s : State) : (storeVerdict ok s).cap = s.cap := (rfl)
@[simp] theorem storeVerdict_bur (ok : Bool) (s : State) : (storeVerdict ok s).bur = s.bur := (rfl)
@[simp] theorem storeVerdict_sym (ok : Bool) (s : State) : (storeVerdict ok s).sym = s.sym := (rfl)
@[simp] theorem storeVerdict_glen (ok : Bool) (s : State) : (storeVerdict ok s).glen = s.glen := (rfl)
@[simp] theorem storeVerdict_raw (ok : Bool) (s : State) : (storeVerdict ok s).raw = s.raw := (rfl)
@[simp] theorem storeVerdict_dem (ok : Bool) (s : State) : (storeVerdict ok s).dem = s.dem := (rfl)
@[simp] theorem storeVerdict_dsc (ok : Bool) (s : State) : (storeVerdict ok s).dsc = s.dsc := (rfl)
@[simp] theorem storeVerdict_frm (ok : Bool) (s : State) : (storeVerdict ok s).frm = s.frm := (rfl)
@[simp] theorem storeVerdict_host (ok : Bool) (s : State) : (storeVerdict ok s).host = s.host := (rfl)
@[simp] theorem storeVerdict_busData (ok : Bool) (s : State) : (storeVerdict ok s).busData = s.busData := (rfl)
@[simp] theorem storeVerdict_delay (ok : Bool) (s : State) : (storeVerdict ok s).delay = s.delay := (rfl)
@[simp] theorem storeVerdict_draws (ok : Bool) (s : State) : (storeVerdict ok s).draws = s.draws := (rfl)
@[simp] theorem storeVerdict_resets (ok : Bool) (s : State) : (storeVerdict ok s).resets = s.resets := (rfl)

/-! ### `storeAttempts` -/

@[simp] theorem storeAttempts_cmd (n : Nat) (s : State) : (storeAttempts n s).cmd = s.cmd := (rfl)
@[simp] theorem storeAttempts_busy (n : Nat) (s : State) : (storeAttempts n s).busy = s.busy := (rfl)
@[simp] theorem storeAttempts_done (n : Nat) (s : State) : (storeAttempts n s).done = s.done := (rfl)
@[simp] theorem storeAttempts_ovr (n : Nat) (s : State) : (storeAttempts n s).ovr = s.ovr := (rfl)
@[simp] theorem storeAttempts_res (n : Nat) (s : State) : (storeAttempts n s).res = s.res := (rfl)
@[simp] theorem storeAttempts_ie (n : Nat) (s : State) : (storeAttempts n s).ie = s.ie := (rfl)
@[simp] theorem storeAttempts_capLen (n : Nat) (s : State) : (storeAttempts n s).capLen = s.capLen := (rfl)
@[simp] theorem storeAttempts_capRate (n : Nat) (s : State) : (storeAttempts n s).capRate = s.capRate := (rfl)
@[simp] theorem storeAttempts_capFreqLo (n : Nat) (s : State) : (storeAttempts n s).capFreqLo = s.capFreqLo := (rfl)
@[simp] theorem storeAttempts_capFreqHi (n : Nat) (s : State) : (storeAttempts n s).capFreqHi = s.capFreqHi := (rfl)
@[simp] theorem storeAttempts_capTsLo (n : Nat) (s : State) : (storeAttempts n s).capTsLo = s.capTsLo := (rfl)
@[simp] theorem storeAttempts_capTsHi (n : Nat) (s : State) : (storeAttempts n s).capTsHi = s.capTsHi := (rfl)
@[simp] theorem storeAttempts_bdNfound (n : Nat) (s : State) : (storeAttempts n s).bdNfound = s.bdNfound := (rfl)
@[simp] theorem storeAttempts_bdNcand (n : Nat) (s : State) : (storeAttempts n s).bdNcand = s.bdNcand := (rfl)
@[simp] theorem storeAttempts_bdLastoff (n : Nat) (s : State) : (storeAttempts n s).bdLastoff = s.bdLastoff := (rfl)
@[simp] theorem storeAttempts_cfoStart (n : Nat) (s : State) : (storeAttempts n s).cfoStart = s.cfoStart := (rfl)
@[simp] theorem storeAttempts_cfoEnd (n : Nat) (s : State) : (storeAttempts n s).cfoEnd = s.cfoEnd := (rfl)
@[simp] theorem storeAttempts_cfoOffset (n : Nat) (s : State) : (storeAttempts n s).cfoOffset = s.cfoOffset := (rfl)
@[simp] theorem storeAttempts_cfoFound (n : Nat) (s : State) : (storeAttempts n s).cfoFound = s.cfoFound := (rfl)
@[simp] theorem storeAttempts_cfoComputable (n : Nat) (s : State) : (storeAttempts n s).cfoComputable = s.cfoComputable := (rfl)
@[simp] theorem storeAttempts_cand0 (n : Nat) (s : State) : (storeAttempts n s).cand0 = s.cand0 := (rfl)
@[simp] theorem storeAttempts_cand1 (n : Nat) (s : State) : (storeAttempts n s).cand1 = s.cand1 := (rfl)
@[simp] theorem storeAttempts_cand2 (n : Nat) (s : State) : (storeAttempts n s).cand2 = s.cand2 := (rfl)
@[simp] theorem storeAttempts_burLen (n : Nat) (s : State) : (storeAttempts n s).burLen = s.burLen := (rfl)
@[simp] theorem storeAttempts_sxNgrp (n : Nat) (s : State) : (storeAttempts n s).sxNgrp = s.sxNgrp := (rfl)
@[simp] theorem storeAttempts_symCount (n : Nat) (s : State) : (storeAttempts n s).symCount = s.symCount := (rfl)
@[simp] theorem storeAttempts_goldSeed (n : Nat) (s : State) : (storeAttempts n s).goldSeed = s.goldSeed := (rfl)
@[simp] theorem storeAttempts_rawLen (n : Nat) (s : State) : (storeAttempts n s).rawLen = s.rawLen := (rfl)
@[simp] theorem storeAttempts_demLen (n : Nat) (s : State) : (storeAttempts n s).demLen = s.demLen := (rfl)
@[simp] theorem storeAttempts_dscLen (n : Nat) (s : State) : (storeAttempts n s).dscLen = s.dscLen := (rfl)
@[simp] theorem storeAttempts_frmLen (n : Nat) (s : State) : (storeAttempts n s).frmLen = s.frmLen := (rfl)
@[simp] theorem storeAttempts_pdHyp (n : Nat) (s : State) : (storeAttempts n s).pdHyp = s.pdHyp := (rfl)
@[simp] theorem storeAttempts_pdOk (n : Nat) (s : State) : (storeAttempts n s).pdOk = s.pdOk := (rfl)
@[simp] theorem storeAttempts_pdLenx (n : Nat) (s : State) : (storeAttempts n s).pdLenx = s.pdLenx := (rfl)
@[simp] theorem storeAttempts_pdAtt (n : Nat) (s : State) : (storeAttempts n s).pdAtt = BitVec.ofNat 3 n := (rfl)
@[simp] theorem storeAttempts_crcCalc (n : Nat) (s : State) : (storeAttempts n s).crcCalc = s.crcCalc := (rfl)
@[simp] theorem storeAttempts_crcRx (n : Nat) (s : State) : (storeAttempts n s).crcRx = s.crcRx := (rfl)
@[simp] theorem storeAttempts_crcValid (n : Nat) (s : State) : (storeAttempts n s).crcValid = s.crcValid := (rfl)
@[simp] theorem storeAttempts_cap (n : Nat) (s : State) : (storeAttempts n s).cap = s.cap := (rfl)
@[simp] theorem storeAttempts_bur (n : Nat) (s : State) : (storeAttempts n s).bur = s.bur := (rfl)
@[simp] theorem storeAttempts_sym (n : Nat) (s : State) : (storeAttempts n s).sym = s.sym := (rfl)
@[simp] theorem storeAttempts_glen (n : Nat) (s : State) : (storeAttempts n s).glen = s.glen := (rfl)
@[simp] theorem storeAttempts_raw (n : Nat) (s : State) : (storeAttempts n s).raw = s.raw := (rfl)
@[simp] theorem storeAttempts_dem (n : Nat) (s : State) : (storeAttempts n s).dem = s.dem := (rfl)
@[simp] theorem storeAttempts_dsc (n : Nat) (s : State) : (storeAttempts n s).dsc = s.dsc := (rfl)
@[simp] theorem storeAttempts_frm (n : Nat) (s : State) : (storeAttempts n s).frm = s.frm := (rfl)
@[simp] theorem storeAttempts_host (n : Nat) (s : State) : (storeAttempts n s).host = s.host := (rfl)
@[simp] theorem storeAttempts_busData (n : Nat) (s : State) : (storeAttempts n s).busData = s.busData := (rfl)
@[simp] theorem storeAttempts_delay (n : Nat) (s : State) : (storeAttempts n s).delay = s.delay := (rfl)
@[simp] theorem storeAttempts_draws (n : Nat) (s : State) : (storeAttempts n s).draws = s.draws := (rfl)
@[simp] theorem storeAttempts_resets (n : Nat) (s : State) : (storeAttempts n s).resets = s.resets := (rfl)

/-! ### `storeCrc` -/

@[simp] theorem storeCrc_cmd (sum rx : BitVec 16) (s : State) : (storeCrc sum rx s).cmd = s.cmd := (rfl)
@[simp] theorem storeCrc_busy (sum rx : BitVec 16) (s : State) : (storeCrc sum rx s).busy = s.busy := (rfl)
@[simp] theorem storeCrc_done (sum rx : BitVec 16) (s : State) : (storeCrc sum rx s).done = s.done := (rfl)
@[simp] theorem storeCrc_ovr (sum rx : BitVec 16) (s : State) : (storeCrc sum rx s).ovr = s.ovr := (rfl)
@[simp] theorem storeCrc_res (sum rx : BitVec 16) (s : State) : (storeCrc sum rx s).res = s.res := (rfl)
@[simp] theorem storeCrc_ie (sum rx : BitVec 16) (s : State) : (storeCrc sum rx s).ie = s.ie := (rfl)
@[simp] theorem storeCrc_capLen (sum rx : BitVec 16) (s : State) : (storeCrc sum rx s).capLen = s.capLen := (rfl)
@[simp] theorem storeCrc_capRate (sum rx : BitVec 16) (s : State) : (storeCrc sum rx s).capRate = s.capRate := (rfl)
@[simp] theorem storeCrc_capFreqLo (sum rx : BitVec 16) (s : State) : (storeCrc sum rx s).capFreqLo = s.capFreqLo := (rfl)
@[simp] theorem storeCrc_capFreqHi (sum rx : BitVec 16) (s : State) : (storeCrc sum rx s).capFreqHi = s.capFreqHi := (rfl)
@[simp] theorem storeCrc_capTsLo (sum rx : BitVec 16) (s : State) : (storeCrc sum rx s).capTsLo = s.capTsLo := (rfl)
@[simp] theorem storeCrc_capTsHi (sum rx : BitVec 16) (s : State) : (storeCrc sum rx s).capTsHi = s.capTsHi := (rfl)
@[simp] theorem storeCrc_bdNfound (sum rx : BitVec 16) (s : State) : (storeCrc sum rx s).bdNfound = s.bdNfound := (rfl)
@[simp] theorem storeCrc_bdNcand (sum rx : BitVec 16) (s : State) : (storeCrc sum rx s).bdNcand = s.bdNcand := (rfl)
@[simp] theorem storeCrc_bdLastoff (sum rx : BitVec 16) (s : State) : (storeCrc sum rx s).bdLastoff = s.bdLastoff := (rfl)
@[simp] theorem storeCrc_cfoStart (sum rx : BitVec 16) (s : State) : (storeCrc sum rx s).cfoStart = s.cfoStart := (rfl)
@[simp] theorem storeCrc_cfoEnd (sum rx : BitVec 16) (s : State) : (storeCrc sum rx s).cfoEnd = s.cfoEnd := (rfl)
@[simp] theorem storeCrc_cfoOffset (sum rx : BitVec 16) (s : State) : (storeCrc sum rx s).cfoOffset = s.cfoOffset := (rfl)
@[simp] theorem storeCrc_cfoFound (sum rx : BitVec 16) (s : State) : (storeCrc sum rx s).cfoFound = s.cfoFound := (rfl)
@[simp] theorem storeCrc_cfoComputable (sum rx : BitVec 16) (s : State) : (storeCrc sum rx s).cfoComputable = s.cfoComputable := (rfl)
@[simp] theorem storeCrc_cand0 (sum rx : BitVec 16) (s : State) : (storeCrc sum rx s).cand0 = s.cand0 := (rfl)
@[simp] theorem storeCrc_cand1 (sum rx : BitVec 16) (s : State) : (storeCrc sum rx s).cand1 = s.cand1 := (rfl)
@[simp] theorem storeCrc_cand2 (sum rx : BitVec 16) (s : State) : (storeCrc sum rx s).cand2 = s.cand2 := (rfl)
@[simp] theorem storeCrc_burLen (sum rx : BitVec 16) (s : State) : (storeCrc sum rx s).burLen = s.burLen := (rfl)
@[simp] theorem storeCrc_sxNgrp (sum rx : BitVec 16) (s : State) : (storeCrc sum rx s).sxNgrp = s.sxNgrp := (rfl)
@[simp] theorem storeCrc_symCount (sum rx : BitVec 16) (s : State) : (storeCrc sum rx s).symCount = s.symCount := (rfl)
@[simp] theorem storeCrc_goldSeed (sum rx : BitVec 16) (s : State) : (storeCrc sum rx s).goldSeed = s.goldSeed := (rfl)
@[simp] theorem storeCrc_rawLen (sum rx : BitVec 16) (s : State) : (storeCrc sum rx s).rawLen = s.rawLen := (rfl)
@[simp] theorem storeCrc_demLen (sum rx : BitVec 16) (s : State) : (storeCrc sum rx s).demLen = s.demLen := (rfl)
@[simp] theorem storeCrc_dscLen (sum rx : BitVec 16) (s : State) : (storeCrc sum rx s).dscLen = s.dscLen := (rfl)
@[simp] theorem storeCrc_frmLen (sum rx : BitVec 16) (s : State) : (storeCrc sum rx s).frmLen = s.frmLen := (rfl)
@[simp] theorem storeCrc_pdHyp (sum rx : BitVec 16) (s : State) : (storeCrc sum rx s).pdHyp = s.pdHyp := (rfl)
@[simp] theorem storeCrc_pdOk (sum rx : BitVec 16) (s : State) : (storeCrc sum rx s).pdOk = s.pdOk := (rfl)
@[simp] theorem storeCrc_pdLenx (sum rx : BitVec 16) (s : State) : (storeCrc sum rx s).pdLenx = s.pdLenx := (rfl)
@[simp] theorem storeCrc_pdAtt (sum rx : BitVec 16) (s : State) : (storeCrc sum rx s).pdAtt = s.pdAtt := (rfl)
@[simp] theorem storeCrc_crcCalc (sum rx : BitVec 16) (s : State) : (storeCrc sum rx s).crcCalc = sum := (rfl)
@[simp] theorem storeCrc_crcRx (sum rx : BitVec 16) (s : State) : (storeCrc sum rx s).crcRx = rx := (rfl)
@[simp] theorem storeCrc_crcValid (sum rx : BitVec 16) (s : State) : (storeCrc sum rx s).crcValid = (sum == rx) := (rfl)
@[simp] theorem storeCrc_cap (sum rx : BitVec 16) (s : State) : (storeCrc sum rx s).cap = s.cap := (rfl)
@[simp] theorem storeCrc_bur (sum rx : BitVec 16) (s : State) : (storeCrc sum rx s).bur = s.bur := (rfl)
@[simp] theorem storeCrc_sym (sum rx : BitVec 16) (s : State) : (storeCrc sum rx s).sym = s.sym := (rfl)
@[simp] theorem storeCrc_glen (sum rx : BitVec 16) (s : State) : (storeCrc sum rx s).glen = s.glen := (rfl)
@[simp] theorem storeCrc_raw (sum rx : BitVec 16) (s : State) : (storeCrc sum rx s).raw = s.raw := (rfl)
@[simp] theorem storeCrc_dem (sum rx : BitVec 16) (s : State) : (storeCrc sum rx s).dem = s.dem := (rfl)
@[simp] theorem storeCrc_dsc (sum rx : BitVec 16) (s : State) : (storeCrc sum rx s).dsc = s.dsc := (rfl)
@[simp] theorem storeCrc_frm (sum rx : BitVec 16) (s : State) : (storeCrc sum rx s).frm = s.frm := (rfl)
@[simp] theorem storeCrc_host (sum rx : BitVec 16) (s : State) : (storeCrc sum rx s).host = s.host := (rfl)
@[simp] theorem storeCrc_busData (sum rx : BitVec 16) (s : State) : (storeCrc sum rx s).busData = s.busData := (rfl)
@[simp] theorem storeCrc_delay (sum rx : BitVec 16) (s : State) : (storeCrc sum rx s).delay = s.delay := (rfl)
@[simp] theorem storeCrc_draws (sum rx : BitVec 16) (s : State) : (storeCrc sum rx s).draws = s.draws := (rfl)
@[simp] theorem storeCrc_resets (sum rx : BitVec 16) (s : State) : (storeCrc sum rx s).resets = s.resets := (rfl)

/-! ### `storeCounts` -/

@[simp] theorem storeCounts_cmd (groups points : Nat) (s : State) : (storeCounts groups points s).cmd = s.cmd := (rfl)
@[simp] theorem storeCounts_busy (groups points : Nat) (s : State) : (storeCounts groups points s).busy = s.busy := (rfl)
@[simp] theorem storeCounts_done (groups points : Nat) (s : State) : (storeCounts groups points s).done = s.done := (rfl)
@[simp] theorem storeCounts_ovr (groups points : Nat) (s : State) : (storeCounts groups points s).ovr = s.ovr := (rfl)
@[simp] theorem storeCounts_res (groups points : Nat) (s : State) : (storeCounts groups points s).res = s.res := (rfl)
@[simp] theorem storeCounts_ie (groups points : Nat) (s : State) : (storeCounts groups points s).ie = s.ie := (rfl)
@[simp] theorem storeCounts_capLen (groups points : Nat) (s : State) : (storeCounts groups points s).capLen = s.capLen := (rfl)
@[simp] theorem storeCounts_capRate (groups points : Nat) (s : State) : (storeCounts groups points s).capRate = s.capRate := (rfl)
@[simp] theorem storeCounts_capFreqLo (groups points : Nat) (s : State) : (storeCounts groups points s).capFreqLo = s.capFreqLo := (rfl)
@[simp] theorem storeCounts_capFreqHi (groups points : Nat) (s : State) : (storeCounts groups points s).capFreqHi = s.capFreqHi := (rfl)
@[simp] theorem storeCounts_capTsLo (groups points : Nat) (s : State) : (storeCounts groups points s).capTsLo = s.capTsLo := (rfl)
@[simp] theorem storeCounts_capTsHi (groups points : Nat) (s : State) : (storeCounts groups points s).capTsHi = s.capTsHi := (rfl)
@[simp] theorem storeCounts_bdNfound (groups points : Nat) (s : State) : (storeCounts groups points s).bdNfound = s.bdNfound := (rfl)
@[simp] theorem storeCounts_bdNcand (groups points : Nat) (s : State) : (storeCounts groups points s).bdNcand = s.bdNcand := (rfl)
@[simp] theorem storeCounts_bdLastoff (groups points : Nat) (s : State) : (storeCounts groups points s).bdLastoff = s.bdLastoff := (rfl)
@[simp] theorem storeCounts_cfoStart (groups points : Nat) (s : State) : (storeCounts groups points s).cfoStart = s.cfoStart := (rfl)
@[simp] theorem storeCounts_cfoEnd (groups points : Nat) (s : State) : (storeCounts groups points s).cfoEnd = s.cfoEnd := (rfl)
@[simp] theorem storeCounts_cfoOffset (groups points : Nat) (s : State) : (storeCounts groups points s).cfoOffset = s.cfoOffset := (rfl)
@[simp] theorem storeCounts_cfoFound (groups points : Nat) (s : State) : (storeCounts groups points s).cfoFound = s.cfoFound := (rfl)
@[simp] theorem storeCounts_cfoComputable (groups points : Nat) (s : State) : (storeCounts groups points s).cfoComputable = s.cfoComputable := (rfl)
@[simp] theorem storeCounts_cand0 (groups points : Nat) (s : State) : (storeCounts groups points s).cand0 = s.cand0 := (rfl)
@[simp] theorem storeCounts_cand1 (groups points : Nat) (s : State) : (storeCounts groups points s).cand1 = s.cand1 := (rfl)
@[simp] theorem storeCounts_cand2 (groups points : Nat) (s : State) : (storeCounts groups points s).cand2 = s.cand2 := (rfl)
@[simp] theorem storeCounts_burLen (groups points : Nat) (s : State) : (storeCounts groups points s).burLen = s.burLen := (rfl)
@[simp] theorem storeCounts_sxNgrp (groups points : Nat) (s : State) : (storeCounts groups points s).sxNgrp = BitVec.ofNat 32 groups := (rfl)
@[simp] theorem storeCounts_symCount (groups points : Nat) (s : State) : (storeCounts groups points s).symCount = BitVec.ofNat 32 points := (rfl)
@[simp] theorem storeCounts_goldSeed (groups points : Nat) (s : State) : (storeCounts groups points s).goldSeed = s.goldSeed := (rfl)
@[simp] theorem storeCounts_rawLen (groups points : Nat) (s : State) : (storeCounts groups points s).rawLen = s.rawLen := (rfl)
@[simp] theorem storeCounts_demLen (groups points : Nat) (s : State) : (storeCounts groups points s).demLen = s.demLen := (rfl)
@[simp] theorem storeCounts_dscLen (groups points : Nat) (s : State) : (storeCounts groups points s).dscLen = s.dscLen := (rfl)
@[simp] theorem storeCounts_frmLen (groups points : Nat) (s : State) : (storeCounts groups points s).frmLen = s.frmLen := (rfl)
@[simp] theorem storeCounts_pdHyp (groups points : Nat) (s : State) : (storeCounts groups points s).pdHyp = s.pdHyp := (rfl)
@[simp] theorem storeCounts_pdOk (groups points : Nat) (s : State) : (storeCounts groups points s).pdOk = s.pdOk := (rfl)
@[simp] theorem storeCounts_pdLenx (groups points : Nat) (s : State) : (storeCounts groups points s).pdLenx = s.pdLenx := (rfl)
@[simp] theorem storeCounts_pdAtt (groups points : Nat) (s : State) : (storeCounts groups points s).pdAtt = s.pdAtt := (rfl)
@[simp] theorem storeCounts_crcCalc (groups points : Nat) (s : State) : (storeCounts groups points s).crcCalc = s.crcCalc := (rfl)
@[simp] theorem storeCounts_crcRx (groups points : Nat) (s : State) : (storeCounts groups points s).crcRx = s.crcRx := (rfl)
@[simp] theorem storeCounts_crcValid (groups points : Nat) (s : State) : (storeCounts groups points s).crcValid = s.crcValid := (rfl)
@[simp] theorem storeCounts_cap (groups points : Nat) (s : State) : (storeCounts groups points s).cap = s.cap := (rfl)
@[simp] theorem storeCounts_bur (groups points : Nat) (s : State) : (storeCounts groups points s).bur = s.bur := (rfl)
@[simp] theorem storeCounts_sym (groups points : Nat) (s : State) : (storeCounts groups points s).sym = s.sym := (rfl)
@[simp] theorem storeCounts_glen (groups points : Nat) (s : State) : (storeCounts groups points s).glen = s.glen := (rfl)
@[simp] theorem storeCounts_raw (groups points : Nat) (s : State) : (storeCounts groups points s).raw = s.raw := (rfl)
@[simp] theorem storeCounts_dem (groups points : Nat) (s : State) : (storeCounts groups points s).dem = s.dem := (rfl)
@[simp] theorem storeCounts_dsc (groups points : Nat) (s : State) : (storeCounts groups points s).dsc = s.dsc := (rfl)
@[simp] theorem storeCounts_frm (groups points : Nat) (s : State) : (storeCounts groups points s).frm = s.frm := (rfl)
@[simp] theorem storeCounts_host (groups points : Nat) (s : State) : (storeCounts groups points s).host = s.host := (rfl)
@[simp] theorem storeCounts_busData (groups points : Nat) (s : State) : (storeCounts groups points s).busData = s.busData := (rfl)
@[simp] theorem storeCounts_delay (groups points : Nat) (s : State) : (storeCounts groups points s).delay = s.delay := (rfl)
@[simp] theorem storeCounts_draws (groups points : Nat) (s : State) : (storeCounts groups points s).draws = s.draws := (rfl)
@[simp] theorem storeCounts_resets (groups points : Nat) (s : State) : (storeCounts groups points s).resets = s.resets := (rfl)

/-! ### `storeCfo` -/

@[simp] theorem storeCfo_cmd (offset : Word) (found computable : Bool) (s : State) : (storeCfo offset found computable s).cmd = s.cmd := (rfl)
@[simp] theorem storeCfo_busy (offset : Word) (found computable : Bool) (s : State) : (storeCfo offset found computable s).busy = s.busy := (rfl)
@[simp] theorem storeCfo_done (offset : Word) (found computable : Bool) (s : State) : (storeCfo offset found computable s).done = s.done := (rfl)
@[simp] theorem storeCfo_ovr (offset : Word) (found computable : Bool) (s : State) : (storeCfo offset found computable s).ovr = s.ovr := (rfl)
@[simp] theorem storeCfo_res (offset : Word) (found computable : Bool) (s : State) : (storeCfo offset found computable s).res = s.res := (rfl)
@[simp] theorem storeCfo_ie (offset : Word) (found computable : Bool) (s : State) : (storeCfo offset found computable s).ie = s.ie := (rfl)
@[simp] theorem storeCfo_capLen (offset : Word) (found computable : Bool) (s : State) : (storeCfo offset found computable s).capLen = s.capLen := (rfl)
@[simp] theorem storeCfo_capRate (offset : Word) (found computable : Bool) (s : State) : (storeCfo offset found computable s).capRate = s.capRate := (rfl)
@[simp] theorem storeCfo_capFreqLo (offset : Word) (found computable : Bool) (s : State) : (storeCfo offset found computable s).capFreqLo = s.capFreqLo := (rfl)
@[simp] theorem storeCfo_capFreqHi (offset : Word) (found computable : Bool) (s : State) : (storeCfo offset found computable s).capFreqHi = s.capFreqHi := (rfl)
@[simp] theorem storeCfo_capTsLo (offset : Word) (found computable : Bool) (s : State) : (storeCfo offset found computable s).capTsLo = s.capTsLo := (rfl)
@[simp] theorem storeCfo_capTsHi (offset : Word) (found computable : Bool) (s : State) : (storeCfo offset found computable s).capTsHi = s.capTsHi := (rfl)
@[simp] theorem storeCfo_bdNfound (offset : Word) (found computable : Bool) (s : State) : (storeCfo offset found computable s).bdNfound = s.bdNfound := (rfl)
@[simp] theorem storeCfo_bdNcand (offset : Word) (found computable : Bool) (s : State) : (storeCfo offset found computable s).bdNcand = s.bdNcand := (rfl)
@[simp] theorem storeCfo_bdLastoff (offset : Word) (found computable : Bool) (s : State) : (storeCfo offset found computable s).bdLastoff = s.bdLastoff := (rfl)
@[simp] theorem storeCfo_cfoStart (offset : Word) (found computable : Bool) (s : State) : (storeCfo offset found computable s).cfoStart = s.cfoStart := (rfl)
@[simp] theorem storeCfo_cfoEnd (offset : Word) (found computable : Bool) (s : State) : (storeCfo offset found computable s).cfoEnd = s.cfoEnd := (rfl)
@[simp] theorem storeCfo_cfoOffset (offset : Word) (found computable : Bool) (s : State) : (storeCfo offset found computable s).cfoOffset = offset := (rfl)
@[simp] theorem storeCfo_cfoFound (offset : Word) (found computable : Bool) (s : State) : (storeCfo offset found computable s).cfoFound = found := (rfl)
@[simp] theorem storeCfo_cfoComputable (offset : Word) (found computable : Bool) (s : State) : (storeCfo offset found computable s).cfoComputable = computable := (rfl)
@[simp] theorem storeCfo_cand0 (offset : Word) (found computable : Bool) (s : State) : (storeCfo offset found computable s).cand0 = s.cand0 := (rfl)
@[simp] theorem storeCfo_cand1 (offset : Word) (found computable : Bool) (s : State) : (storeCfo offset found computable s).cand1 = s.cand1 := (rfl)
@[simp] theorem storeCfo_cand2 (offset : Word) (found computable : Bool) (s : State) : (storeCfo offset found computable s).cand2 = s.cand2 := (rfl)
@[simp] theorem storeCfo_burLen (offset : Word) (found computable : Bool) (s : State) : (storeCfo offset found computable s).burLen = s.burLen := (rfl)
@[simp] theorem storeCfo_sxNgrp (offset : Word) (found computable : Bool) (s : State) : (storeCfo offset found computable s).sxNgrp = s.sxNgrp := (rfl)
@[simp] theorem storeCfo_symCount (offset : Word) (found computable : Bool) (s : State) : (storeCfo offset found computable s).symCount = s.symCount := (rfl)
@[simp] theorem storeCfo_goldSeed (offset : Word) (found computable : Bool) (s : State) : (storeCfo offset found computable s).goldSeed = s.goldSeed := (rfl)
@[simp] theorem storeCfo_rawLen (offset : Word) (found computable : Bool) (s : State) : (storeCfo offset found computable s).rawLen = s.rawLen := (rfl)
@[simp] theorem storeCfo_demLen (offset : Word) (found computable : Bool) (s : State) : (storeCfo offset found computable s).demLen = s.demLen := (rfl)
@[simp] theorem storeCfo_dscLen (offset : Word) (found computable : Bool) (s : State) : (storeCfo offset found computable s).dscLen = s.dscLen := (rfl)
@[simp] theorem storeCfo_frmLen (offset : Word) (found computable : Bool) (s : State) : (storeCfo offset found computable s).frmLen = s.frmLen := (rfl)
@[simp] theorem storeCfo_pdHyp (offset : Word) (found computable : Bool) (s : State) : (storeCfo offset found computable s).pdHyp = s.pdHyp := (rfl)
@[simp] theorem storeCfo_pdOk (offset : Word) (found computable : Bool) (s : State) : (storeCfo offset found computable s).pdOk = s.pdOk := (rfl)
@[simp] theorem storeCfo_pdLenx (offset : Word) (found computable : Bool) (s : State) : (storeCfo offset found computable s).pdLenx = s.pdLenx := (rfl)
@[simp] theorem storeCfo_pdAtt (offset : Word) (found computable : Bool) (s : State) : (storeCfo offset found computable s).pdAtt = s.pdAtt := (rfl)
@[simp] theorem storeCfo_crcCalc (offset : Word) (found computable : Bool) (s : State) : (storeCfo offset found computable s).crcCalc = s.crcCalc := (rfl)
@[simp] theorem storeCfo_crcRx (offset : Word) (found computable : Bool) (s : State) : (storeCfo offset found computable s).crcRx = s.crcRx := (rfl)
@[simp] theorem storeCfo_crcValid (offset : Word) (found computable : Bool) (s : State) : (storeCfo offset found computable s).crcValid = s.crcValid := (rfl)
@[simp] theorem storeCfo_cap (offset : Word) (found computable : Bool) (s : State) : (storeCfo offset found computable s).cap = s.cap := (rfl)
@[simp] theorem storeCfo_bur (offset : Word) (found computable : Bool) (s : State) : (storeCfo offset found computable s).bur = s.bur := (rfl)
@[simp] theorem storeCfo_sym (offset : Word) (found computable : Bool) (s : State) : (storeCfo offset found computable s).sym = s.sym := (rfl)
@[simp] theorem storeCfo_glen (offset : Word) (found computable : Bool) (s : State) : (storeCfo offset found computable s).glen = s.glen := (rfl)
@[simp] theorem storeCfo_raw (offset : Word) (found computable : Bool) (s : State) : (storeCfo offset found computable s).raw = s.raw := (rfl)
@[simp] theorem storeCfo_dem (offset : Word) (found computable : Bool) (s : State) : (storeCfo offset found computable s).dem = s.dem := (rfl)
@[simp] theorem storeCfo_dsc (offset : Word) (found computable : Bool) (s : State) : (storeCfo offset found computable s).dsc = s.dsc := (rfl)
@[simp] theorem storeCfo_frm (offset : Word) (found computable : Bool) (s : State) : (storeCfo offset found computable s).frm = s.frm := (rfl)
@[simp] theorem storeCfo_host (offset : Word) (found computable : Bool) (s : State) : (storeCfo offset found computable s).host = s.host := (rfl)
@[simp] theorem storeCfo_busData (offset : Word) (found computable : Bool) (s : State) : (storeCfo offset found computable s).busData = s.busData := (rfl)
@[simp] theorem storeCfo_delay (offset : Word) (found computable : Bool) (s : State) : (storeCfo offset found computable s).delay = s.delay := (rfl)
@[simp] theorem storeCfo_draws (offset : Word) (found computable : Bool) (s : State) : (storeCfo offset found computable s).draws = s.draws := (rfl)
@[simp] theorem storeCfo_resets (offset : Word) (found computable : Bool) (s : State) : (storeCfo offset found computable s).resets = s.resets := (rfl)

/-! ### `storeCandidates` -/

@[simp] theorem storeCandidates_cmd (n : Nat) (lastoff : Word) (out : List Cand) (s : State) : (storeCandidates n lastoff out s).cmd = s.cmd := (rfl)
@[simp] theorem storeCandidates_busy (n : Nat) (lastoff : Word) (out : List Cand) (s : State) : (storeCandidates n lastoff out s).busy = s.busy := (rfl)
@[simp] theorem storeCandidates_done (n : Nat) (lastoff : Word) (out : List Cand) (s : State) : (storeCandidates n lastoff out s).done = s.done := (rfl)
@[simp] theorem storeCandidates_ovr (n : Nat) (lastoff : Word) (out : List Cand) (s : State) : (storeCandidates n lastoff out s).ovr = s.ovr := (rfl)
@[simp] theorem storeCandidates_res (n : Nat) (lastoff : Word) (out : List Cand) (s : State) : (storeCandidates n lastoff out s).res = s.res := (rfl)
@[simp] theorem storeCandidates_ie (n : Nat) (lastoff : Word) (out : List Cand) (s : State) : (storeCandidates n lastoff out s).ie = s.ie := (rfl)
@[simp] theorem storeCandidates_capLen (n : Nat) (lastoff : Word) (out : List Cand) (s : State) : (storeCandidates n lastoff out s).capLen = s.capLen := (rfl)
@[simp] theorem storeCandidates_capRate (n : Nat) (lastoff : Word) (out : List Cand) (s : State) : (storeCandidates n lastoff out s).capRate = s.capRate := (rfl)
@[simp] theorem storeCandidates_capFreqLo (n : Nat) (lastoff : Word) (out : List Cand) (s : State) : (storeCandidates n lastoff out s).capFreqLo = s.capFreqLo := (rfl)
@[simp] theorem storeCandidates_capFreqHi (n : Nat) (lastoff : Word) (out : List Cand) (s : State) : (storeCandidates n lastoff out s).capFreqHi = s.capFreqHi := (rfl)
@[simp] theorem storeCandidates_capTsLo (n : Nat) (lastoff : Word) (out : List Cand) (s : State) : (storeCandidates n lastoff out s).capTsLo = s.capTsLo := (rfl)
@[simp] theorem storeCandidates_capTsHi (n : Nat) (lastoff : Word) (out : List Cand) (s : State) : (storeCandidates n lastoff out s).capTsHi = s.capTsHi := (rfl)
@[simp] theorem storeCandidates_bdNfound (n : Nat) (lastoff : Word) (out : List Cand) (s : State) : (storeCandidates n lastoff out s).bdNfound = BitVec.ofNat 2 n := (rfl)
@[simp] theorem storeCandidates_bdNcand (n : Nat) (lastoff : Word) (out : List Cand) (s : State) : (storeCandidates n lastoff out s).bdNcand = BitVec.ofNat 2 out.length := (rfl)
@[simp] theorem storeCandidates_bdLastoff (n : Nat) (lastoff : Word) (out : List Cand) (s : State) : (storeCandidates n lastoff out s).bdLastoff = lastoff := (rfl)
@[simp] theorem storeCandidates_cfoStart (n : Nat) (lastoff : Word) (out : List Cand) (s : State) : (storeCandidates n lastoff out s).cfoStart = s.cfoStart := (rfl)
@[simp] theorem storeCandidates_cfoEnd (n : Nat) (lastoff : Word) (out : List Cand) (s : State) : (storeCandidates n lastoff out s).cfoEnd = s.cfoEnd := (rfl)
@[simp] theorem storeCandidates_cfoOffset (n : Nat) (lastoff : Word) (out : List Cand) (s : State) : (storeCandidates n lastoff out s).cfoOffset = s.cfoOffset := (rfl)
@[simp] theorem storeCandidates_cfoFound (n : Nat) (lastoff : Word) (out : List Cand) (s : State) : (storeCandidates n lastoff out s).cfoFound = s.cfoFound := (rfl)
@[simp] theorem storeCandidates_cfoComputable (n : Nat) (lastoff : Word) (out : List Cand) (s : State) : (storeCandidates n lastoff out s).cfoComputable = s.cfoComputable := (rfl)
@[simp] theorem storeCandidates_cand0 (n : Nat) (lastoff : Word) (out : List Cand) (s : State) : (storeCandidates n lastoff out s).cand0 = candEntry out 0 := (rfl)
@[simp] theorem storeCandidates_cand1 (n : Nat) (lastoff : Word) (out : List Cand) (s : State) : (storeCandidates n lastoff out s).cand1 = candEntry out 1 := (rfl)
@[simp] theorem storeCandidates_cand2 (n : Nat) (lastoff : Word) (out : List Cand) (s : State) : (storeCandidates n lastoff out s).cand2 = candEntry out 2 := (rfl)
@[simp] theorem storeCandidates_burLen (n : Nat) (lastoff : Word) (out : List Cand) (s : State) : (storeCandidates n lastoff out s).burLen = s.burLen := (rfl)
@[simp] theorem storeCandidates_sxNgrp (n : Nat) (lastoff : Word) (out : List Cand) (s : State) : (storeCandidates n lastoff out s).sxNgrp = s.sxNgrp := (rfl)
@[simp] theorem storeCandidates_symCount (n : Nat) (lastoff : Word) (out : List Cand) (s : State) : (storeCandidates n lastoff out s).symCount = s.symCount := (rfl)
@[simp] theorem storeCandidates_goldSeed (n : Nat) (lastoff : Word) (out : List Cand) (s : State) : (storeCandidates n lastoff out s).goldSeed = s.goldSeed := (rfl)
@[simp] theorem storeCandidates_rawLen (n : Nat) (lastoff : Word) (out : List Cand) (s : State) : (storeCandidates n lastoff out s).rawLen = s.rawLen := (rfl)
@[simp] theorem storeCandidates_demLen (n : Nat) (lastoff : Word) (out : List Cand) (s : State) : (storeCandidates n lastoff out s).demLen = s.demLen := (rfl)
@[simp] theorem storeCandidates_dscLen (n : Nat) (lastoff : Word) (out : List Cand) (s : State) : (storeCandidates n lastoff out s).dscLen = s.dscLen := (rfl)
@[simp] theorem storeCandidates_frmLen (n : Nat) (lastoff : Word) (out : List Cand) (s : State) : (storeCandidates n lastoff out s).frmLen = s.frmLen := (rfl)
@[simp] theorem storeCandidates_pdHyp (n : Nat) (lastoff : Word) (out : List Cand) (s : State) : (storeCandidates n lastoff out s).pdHyp = s.pdHyp := (rfl)
@[simp] theorem storeCandidates_pdOk (n : Nat) (lastoff : Word) (out : List Cand) (s : State) : (storeCandidates n lastoff out s).pdOk = s.pdOk := (rfl)
@[simp] theorem storeCandidates_pdLenx (n : Nat) (lastoff : Word) (out : List Cand) (s : State) : (storeCandidates n lastoff out s).pdLenx = s.pdLenx := (rfl)
@[simp] theorem storeCandidates_pdAtt (n : Nat) (lastoff : Word) (out : List Cand) (s : State) : (storeCandidates n lastoff out s).pdAtt = s.pdAtt := (rfl)
@[simp] theorem storeCandidates_crcCalc (n : Nat) (lastoff : Word) (out : List Cand) (s : State) : (storeCandidates n lastoff out s).crcCalc = s.crcCalc := (rfl)
@[simp] theorem storeCandidates_crcRx (n : Nat) (lastoff : Word) (out : List Cand) (s : State) : (storeCandidates n lastoff out s).crcRx = s.crcRx := (rfl)
@[simp] theorem storeCandidates_crcValid (n : Nat) (lastoff : Word) (out : List Cand) (s : State) : (storeCandidates n lastoff out s).crcValid = s.crcValid := (rfl)
@[simp] theorem storeCandidates_cap (n : Nat) (lastoff : Word) (out : List Cand) (s : State) : (storeCandidates n lastoff out s).cap = s.cap := (rfl)
@[simp] theorem storeCandidates_bur (n : Nat) (lastoff : Word) (out : List Cand) (s : State) : (storeCandidates n lastoff out s).bur = s.bur := (rfl)
@[simp] theorem storeCandidates_sym (n : Nat) (lastoff : Word) (out : List Cand) (s : State) : (storeCandidates n lastoff out s).sym = s.sym := (rfl)
@[simp] theorem storeCandidates_glen (n : Nat) (lastoff : Word) (out : List Cand) (s : State) : (storeCandidates n lastoff out s).glen = s.glen := (rfl)
@[simp] theorem storeCandidates_raw (n : Nat) (lastoff : Word) (out : List Cand) (s : State) : (storeCandidates n lastoff out s).raw = s.raw := (rfl)
@[simp] theorem storeCandidates_dem (n : Nat) (lastoff : Word) (out : List Cand) (s : State) : (storeCandidates n lastoff out s).dem = s.dem := (rfl)
@[simp] theorem storeCandidates_dsc (n : Nat) (lastoff : Word) (out : List Cand) (s : State) : (storeCandidates n lastoff out s).dsc = s.dsc := (rfl)
@[simp] theorem storeCandidates_frm (n : Nat) (lastoff : Word) (out : List Cand) (s : State) : (storeCandidates n lastoff out s).frm = s.frm := (rfl)
@[simp] theorem storeCandidates_host (n : Nat) (lastoff : Word) (out : List Cand) (s : State) : (storeCandidates n lastoff out s).host = s.host := (rfl)
@[simp] theorem storeCandidates_busData (n : Nat) (lastoff : Word) (out : List Cand) (s : State) : (storeCandidates n lastoff out s).busData = s.busData := (rfl)
@[simp] theorem storeCandidates_delay (n : Nat) (lastoff : Word) (out : List Cand) (s : State) : (storeCandidates n lastoff out s).delay = s.delay := (rfl)
@[simp] theorem storeCandidates_draws (n : Nat) (lastoff : Word) (out : List Cand) (s : State) : (storeCandidates n lastoff out s).draws = s.draws := (rfl)
@[simp] theorem storeCandidates_resets (n : Nat) (lastoff : Word) (out : List Cand) (s : State) : (storeCandidates n lastoff out s).resets = s.resets := (rfl)

/-! ### `mapBits` -/

@[simp] theorem mapBits_cmd (lut : BitVec 2 → BitVec 2 → BitVec 2) (h : BitVec 2) (s : State) : (mapBits lut h s).cmd = s.cmd := storeRaw_cmd _ h s
@[simp] theorem mapBits_busy (lut : BitVec 2 → BitVec 2 → BitVec 2) (h : BitVec 2) (s : State) : (mapBits lut h s).busy = s.busy := storeRaw_busy _ h s
@[simp] theorem mapBits_done (lut : BitVec 2 → BitVec 2 → BitVec 2) (h : BitVec 2) (s : State) : (mapBits lut h s).done = s.done := storeRaw_done _ h s
@[simp] theorem mapBits_ovr (lut : BitVec 2 → BitVec 2 → BitVec 2) (h : BitVec 2) (s : State) : (mapBits lut h s).ovr = s.ovr := storeRaw_ovr _ h s
@[simp] theorem mapBits_res (lut : BitVec 2 → BitVec 2 → BitVec 2) (h : BitVec 2) (s : State) : (mapBits lut h s).res = s.res := storeRaw_res _ h s
@[simp] theorem mapBits_ie (lut : BitVec 2 → BitVec 2 → BitVec 2) (h : BitVec 2) (s : State) : (mapBits lut h s).ie = s.ie := storeRaw_ie _ h s
@[simp] theorem mapBits_capLen (lut : BitVec 2 → BitVec 2 → BitVec 2) (h : BitVec 2) (s : State) : (mapBits lut h s).capLen = s.capLen := storeRaw_capLen _ h s
@[simp] theorem mapBits_capRate (lut : BitVec 2 → BitVec 2 → BitVec 2) (h : BitVec 2) (s : State) : (mapBits lut h s).capRate = s.capRate := storeRaw_capRate _ h s
@[simp] theorem mapBits_capFreqLo (lut : BitVec 2 → BitVec 2 → BitVec 2) (h : BitVec 2) (s : State) : (mapBits lut h s).capFreqLo = s.capFreqLo := storeRaw_capFreqLo _ h s
@[simp] theorem mapBits_capFreqHi (lut : BitVec 2 → BitVec 2 → BitVec 2) (h : BitVec 2) (s : State) : (mapBits lut h s).capFreqHi = s.capFreqHi := storeRaw_capFreqHi _ h s
@[simp] theorem mapBits_capTsLo (lut : BitVec 2 → BitVec 2 → BitVec 2) (h : BitVec 2) (s : State) : (mapBits lut h s).capTsLo = s.capTsLo := storeRaw_capTsLo _ h s
@[simp] theorem mapBits_capTsHi (lut : BitVec 2 → BitVec 2 → BitVec 2) (h : BitVec 2) (s : State) : (mapBits lut h s).capTsHi = s.capTsHi := storeRaw_capTsHi _ h s
@[simp] theorem mapBits_bdNfound (lut : BitVec 2 → BitVec 2 → BitVec 2) (h : BitVec 2) (s : State) : (mapBits lut h s).bdNfound = s.bdNfound := storeRaw_bdNfound _ h s
@[simp] theorem mapBits_bdNcand (lut : BitVec 2 → BitVec 2 → BitVec 2) (h : BitVec 2) (s : State) : (mapBits lut h s).bdNcand = s.bdNcand := storeRaw_bdNcand _ h s
@[simp] theorem mapBits_bdLastoff (lut : BitVec 2 → BitVec 2 → BitVec 2) (h : BitVec 2) (s : State) : (mapBits lut h s).bdLastoff = s.bdLastoff := storeRaw_bdLastoff _ h s
@[simp] theorem mapBits_cfoStart (lut : BitVec 2 → BitVec 2 → BitVec 2) (h : BitVec 2) (s : State) : (mapBits lut h s).cfoStart = s.cfoStart := storeRaw_cfoStart _ h s
@[simp] theorem mapBits_cfoEnd (lut : BitVec 2 → BitVec 2 → BitVec 2) (h : BitVec 2) (s : State) : (mapBits lut h s).cfoEnd = s.cfoEnd := storeRaw_cfoEnd _ h s
@[simp] theorem mapBits_cfoOffset (lut : BitVec 2 → BitVec 2 → BitVec 2) (h : BitVec 2) (s : State) : (mapBits lut h s).cfoOffset = s.cfoOffset := storeRaw_cfoOffset _ h s
@[simp] theorem mapBits_cfoFound (lut : BitVec 2 → BitVec 2 → BitVec 2) (h : BitVec 2) (s : State) : (mapBits lut h s).cfoFound = s.cfoFound := storeRaw_cfoFound _ h s
@[simp] theorem mapBits_cfoComputable (lut : BitVec 2 → BitVec 2 → BitVec 2) (h : BitVec 2) (s : State) : (mapBits lut h s).cfoComputable = s.cfoComputable := storeRaw_cfoComputable _ h s
@[simp] theorem mapBits_cand0 (lut : BitVec 2 → BitVec 2 → BitVec 2) (h : BitVec 2) (s : State) : (mapBits lut h s).cand0 = s.cand0 := storeRaw_cand0 _ h s
@[simp] theorem mapBits_cand1 (lut : BitVec 2 → BitVec 2 → BitVec 2) (h : BitVec 2) (s : State) : (mapBits lut h s).cand1 = s.cand1 := storeRaw_cand1 _ h s
@[simp] theorem mapBits_cand2 (lut : BitVec 2 → BitVec 2 → BitVec 2) (h : BitVec 2) (s : State) : (mapBits lut h s).cand2 = s.cand2 := storeRaw_cand2 _ h s
@[simp] theorem mapBits_burLen (lut : BitVec 2 → BitVec 2 → BitVec 2) (h : BitVec 2) (s : State) : (mapBits lut h s).burLen = s.burLen := storeRaw_burLen _ h s
@[simp] theorem mapBits_sxNgrp (lut : BitVec 2 → BitVec 2 → BitVec 2) (h : BitVec 2) (s : State) : (mapBits lut h s).sxNgrp = s.sxNgrp := storeRaw_sxNgrp _ h s
@[simp] theorem mapBits_symCount (lut : BitVec 2 → BitVec 2 → BitVec 2) (h : BitVec 2) (s : State) : (mapBits lut h s).symCount = s.symCount := storeRaw_symCount _ h s
@[simp] theorem mapBits_goldSeed (lut : BitVec 2 → BitVec 2 → BitVec 2) (h : BitVec 2) (s : State) : (mapBits lut h s).goldSeed = s.goldSeed := storeRaw_goldSeed _ h s
@[simp] theorem mapBits_rawLen (lut : BitVec 2 → BitVec 2 → BitVec 2) (h : BitVec 2) (s : State) : (mapBits lut h s).rawLen = BitVec.ofNat 32 (2 * s.symCount.toNat) := storeRaw_rawLen _ h s
@[simp] theorem mapBits_demLen (lut : BitVec 2 → BitVec 2 → BitVec 2) (h : BitVec 2) (s : State) : (mapBits lut h s).demLen = s.demLen := storeRaw_demLen _ h s
@[simp] theorem mapBits_dscLen (lut : BitVec 2 → BitVec 2 → BitVec 2) (h : BitVec 2) (s : State) : (mapBits lut h s).dscLen = s.dscLen := storeRaw_dscLen _ h s
@[simp] theorem mapBits_frmLen (lut : BitVec 2 → BitVec 2 → BitVec 2) (h : BitVec 2) (s : State) : (mapBits lut h s).frmLen = s.frmLen := storeRaw_frmLen _ h s
@[simp] theorem mapBits_pdHyp (lut : BitVec 2 → BitVec 2 → BitVec 2) (h : BitVec 2) (s : State) : (mapBits lut h s).pdHyp = h := storeRaw_pdHyp _ h s
@[simp] theorem mapBits_pdOk (lut : BitVec 2 → BitVec 2 → BitVec 2) (h : BitVec 2) (s : State) : (mapBits lut h s).pdOk = s.pdOk := storeRaw_pdOk _ h s
@[simp] theorem mapBits_pdLenx (lut : BitVec 2 → BitVec 2 → BitVec 2) (h : BitVec 2) (s : State) : (mapBits lut h s).pdLenx = s.pdLenx := storeRaw_pdLenx _ h s
@[simp] theorem mapBits_pdAtt (lut : BitVec 2 → BitVec 2 → BitVec 2) (h : BitVec 2) (s : State) : (mapBits lut h s).pdAtt = s.pdAtt := storeRaw_pdAtt _ h s
@[simp] theorem mapBits_crcCalc (lut : BitVec 2 → BitVec 2 → BitVec 2) (h : BitVec 2) (s : State) : (mapBits lut h s).crcCalc = s.crcCalc := storeRaw_crcCalc _ h s
@[simp] theorem mapBits_crcRx (lut : BitVec 2 → BitVec 2 → BitVec 2) (h : BitVec 2) (s : State) : (mapBits lut h s).crcRx = s.crcRx := storeRaw_crcRx _ h s
@[simp] theorem mapBits_crcValid (lut : BitVec 2 → BitVec 2 → BitVec 2) (h : BitVec 2) (s : State) : (mapBits lut h s).crcValid = s.crcValid := storeRaw_crcValid _ h s
@[simp] theorem mapBits_cap (lut : BitVec 2 → BitVec 2 → BitVec 2) (h : BitVec 2) (s : State) : (mapBits lut h s).cap = s.cap := storeRaw_cap _ h s
@[simp] theorem mapBits_bur (lut : BitVec 2 → BitVec 2 → BitVec 2) (h : BitVec 2) (s : State) : (mapBits lut h s).bur = s.bur := storeRaw_bur _ h s
@[simp] theorem mapBits_sym (lut : BitVec 2 → BitVec 2 → BitVec 2) (h : BitVec 2) (s : State) : (mapBits lut h s).sym = s.sym := storeRaw_sym _ h s
@[simp] theorem mapBits_glen (lut : BitVec 2 → BitVec 2 → BitVec 2) (h : BitVec 2) (s : State) : (mapBits lut h s).glen = s.glen := storeRaw_glen _ h s
@[simp] theorem mapBits_dem (lut : BitVec 2 → BitVec 2 → BitVec 2) (h : BitVec 2) (s : State) : (mapBits lut h s).dem = s.dem := storeRaw_dem _ h s
@[simp] theorem mapBits_dsc (lut : BitVec 2 → BitVec 2 → BitVec 2) (h : BitVec 2) (s : State) : (mapBits lut h s).dsc = s.dsc := storeRaw_dsc _ h s
@[simp] theorem mapBits_frm (lut : BitVec 2 → BitVec 2 → BitVec 2) (h : BitVec 2) (s : State) : (mapBits lut h s).frm = s.frm := storeRaw_frm _ h s
@[simp] theorem mapBits_host (lut : BitVec 2 → BitVec 2 → BitVec 2) (h : BitVec 2) (s : State) : (mapBits lut h s).host = s.host := storeRaw_host _ h s
@[simp] theorem mapBits_busData (lut : BitVec 2 → BitVec 2 → BitVec 2) (h : BitVec 2) (s : State) : (mapBits lut h s).busData = s.busData := storeRaw_busData _ h s
@[simp] theorem mapBits_delay (lut : BitVec 2 → BitVec 2 → BitVec 2) (h : BitVec 2) (s : State) : (mapBits lut h s).delay = s.delay := storeRaw_delay _ h s
@[simp] theorem mapBits_draws (lut : BitVec 2 → BitVec 2 → BitVec 2) (h : BitVec 2) (s : State) : (mapBits lut h s).draws = s.draws := storeRaw_draws _ h s
@[simp] theorem mapBits_resets (lut : BitVec 2 → BitVec 2 → BitVec 2) (h : BitVec 2) (s : State) : (mapBits lut h s).resets = s.resets := storeRaw_resets _ h s

/-! ### `dematch` -/

@[simp] theorem dematch_cmd (dummy : Nat → Nat → Nat → Bool) (s : State) : (dematch dummy s).cmd = s.cmd := storeDem_cmd _ s
@[simp] theorem dematch_busy (dummy : Nat → Nat → Nat → Bool) (s : State) : (dematch dummy s).busy = s.busy := storeDem_busy _ s
@[simp] theorem dematch_done (dummy : Nat → Nat → Nat → Bool) (s : State) : (dematch dummy s).done = s.done := storeDem_done _ s
@[simp] theorem dematch_ovr (dummy : Nat → Nat → Nat → Bool) (s : State) : (dematch dummy s).ovr = s.ovr := storeDem_ovr _ s
@[simp] theorem dematch_res (dummy : Nat → Nat → Nat → Bool) (s : State) : (dematch dummy s).res = s.res := storeDem_res _ s
@[simp] theorem dematch_ie (dummy : Nat → Nat → Nat → Bool) (s : State) : (dematch dummy s).ie = s.ie := storeDem_ie _ s
@[simp] theorem dematch_capLen (dummy : Nat → Nat → Nat → Bool) (s : State) : (dematch dummy s).capLen = s.capLen := storeDem_capLen _ s
@[simp] theorem dematch_capRate (dummy : Nat → Nat → Nat → Bool) (s : State) : (dematch dummy s).capRate = s.capRate := storeDem_capRate _ s
@[simp] theorem dematch_capFreqLo (dummy : Nat → Nat → Nat → Bool) (s : State) : (dematch dummy s).capFreqLo = s.capFreqLo := storeDem_capFreqLo _ s
@[simp] theorem dematch_capFreqHi (dummy : Nat → Nat → Nat → Bool) (s : State) : (dematch dummy s).capFreqHi = s.capFreqHi := storeDem_capFreqHi _ s
@[simp] theorem dematch_capTsLo (dummy : Nat → Nat → Nat → Bool) (s : State) : (dematch dummy s).capTsLo = s.capTsLo := storeDem_capTsLo _ s
@[simp] theorem dematch_capTsHi (dummy : Nat → Nat → Nat → Bool) (s : State) : (dematch dummy s).capTsHi = s.capTsHi := storeDem_capTsHi _ s
@[simp] theorem dematch_bdNfound (dummy : Nat → Nat → Nat → Bool) (s : State) : (dematch dummy s).bdNfound = s.bdNfound := storeDem_bdNfound _ s
@[simp] theorem dematch_bdNcand (dummy : Nat → Nat → Nat → Bool) (s : State) : (dematch dummy s).bdNcand = s.bdNcand := storeDem_bdNcand _ s
@[simp] theorem dematch_bdLastoff (dummy : Nat → Nat → Nat → Bool) (s : State) : (dematch dummy s).bdLastoff = s.bdLastoff := storeDem_bdLastoff _ s
@[simp] theorem dematch_cfoStart (dummy : Nat → Nat → Nat → Bool) (s : State) : (dematch dummy s).cfoStart = s.cfoStart := storeDem_cfoStart _ s
@[simp] theorem dematch_cfoEnd (dummy : Nat → Nat → Nat → Bool) (s : State) : (dematch dummy s).cfoEnd = s.cfoEnd := storeDem_cfoEnd _ s
@[simp] theorem dematch_cfoOffset (dummy : Nat → Nat → Nat → Bool) (s : State) : (dematch dummy s).cfoOffset = s.cfoOffset := storeDem_cfoOffset _ s
@[simp] theorem dematch_cfoFound (dummy : Nat → Nat → Nat → Bool) (s : State) : (dematch dummy s).cfoFound = s.cfoFound := storeDem_cfoFound _ s
@[simp] theorem dematch_cfoComputable (dummy : Nat → Nat → Nat → Bool) (s : State) : (dematch dummy s).cfoComputable = s.cfoComputable := storeDem_cfoComputable _ s
@[simp] theorem dematch_cand0 (dummy : Nat → Nat → Nat → Bool) (s : State) : (dematch dummy s).cand0 = s.cand0 := storeDem_cand0 _ s
@[simp] theorem dematch_cand1 (dummy : Nat → Nat → Nat → Bool) (s : State) : (dematch dummy s).cand1 = s.cand1 := storeDem_cand1 _ s
@[simp] theorem dematch_cand2 (dummy : Nat → Nat → Nat → Bool) (s : State) : (dematch dummy s).cand2 = s.cand2 := storeDem_cand2 _ s
@[simp] theorem dematch_burLen (dummy : Nat → Nat → Nat → Bool) (s : State) : (dematch dummy s).burLen = s.burLen := storeDem_burLen _ s
@[simp] theorem dematch_sxNgrp (dummy : Nat → Nat → Nat → Bool) (s : State) : (dematch dummy s).sxNgrp = s.sxNgrp := storeDem_sxNgrp _ s
@[simp] theorem dematch_symCount (dummy : Nat → Nat → Nat → Bool) (s : State) : (dematch dummy s).symCount = s.symCount := storeDem_symCount _ s
@[simp] theorem dematch_goldSeed (dummy : Nat → Nat → Nat → Bool) (s : State) : (dematch dummy s).goldSeed = s.goldSeed := storeDem_goldSeed _ s
@[simp] theorem dematch_rawLen (dummy : Nat → Nat → Nat → Bool) (s : State) : (dematch dummy s).rawLen = s.rawLen := storeDem_rawLen _ s
@[simp] theorem dematch_demLen (dummy : Nat → Nat → Nat → Bool) (s : State) : (dematch dummy s).demLen = s.rawLen := storeDem_demLen _ s
@[simp] theorem dematch_dscLen (dummy : Nat → Nat → Nat → Bool) (s : State) : (dematch dummy s).dscLen = s.dscLen := storeDem_dscLen _ s
@[simp] theorem dematch_frmLen (dummy : Nat → Nat → Nat → Bool) (s : State) : (dematch dummy s).frmLen = s.frmLen := storeDem_frmLen _ s
@[simp] theorem dematch_pdHyp (dummy : Nat → Nat → Nat → Bool) (s : State) : (dematch dummy s).pdHyp = s.pdHyp := storeDem_pdHyp _ s
@[simp] theorem dematch_pdOk (dummy : Nat → Nat → Nat → Bool) (s : State) : (dematch dummy s).pdOk = s.pdOk := storeDem_pdOk _ s
@[simp] theorem dematch_pdLenx (dummy : Nat → Nat → Nat → Bool) (s : State) : (dematch dummy s).pdLenx = (s.rawLen.toNat != sysLenExpected) := storeDem_pdLenx _ s
@[simp] theorem dematch_pdAtt (dummy : Nat → Nat → Nat → Bool) (s : State) : (dematch dummy s).pdAtt = s.pdAtt := storeDem_pdAtt _ s
@[simp] theorem dematch_crcCalc (dummy : Nat → Nat → Nat → Bool) (s : State) : (dematch dummy s).crcCalc = s.crcCalc := storeDem_crcCalc _ s
@[simp] theorem dematch_crcRx (dummy : Nat → Nat → Nat → Bool) (s : State) : (dematch dummy s).crcRx = s.crcRx := storeDem_crcRx _ s
@[simp] theorem dematch_crcValid (dummy : Nat → Nat → Nat → Bool) (s : State) : (dematch dummy s).crcValid = s.crcValid := storeDem_crcValid _ s
@[simp] theorem dematch_cap (dummy : Nat → Nat → Nat → Bool) (s : State) : (dematch dummy s).cap = s.cap := storeDem_cap _ s
@[simp] theorem dematch_bur (dummy : Nat → Nat → Nat → Bool) (s : State) : (dematch dummy s).bur = s.bur := storeDem_bur _ s
@[simp] theorem dematch_sym (dummy : Nat → Nat → Nat → Bool) (s : State) : (dematch dummy s).sym = s.sym := storeDem_sym _ s
@[simp] theorem dematch_glen (dummy : Nat → Nat → Nat → Bool) (s : State) : (dematch dummy s).glen = s.glen := storeDem_glen _ s
@[simp] theorem dematch_raw (dummy : Nat → Nat → Nat → Bool) (s : State) : (dematch dummy s).raw = s.raw := storeDem_raw _ s
@[simp] theorem dematch_dsc (dummy : Nat → Nat → Nat → Bool) (s : State) : (dematch dummy s).dsc = s.dsc := storeDem_dsc _ s
@[simp] theorem dematch_frm (dummy : Nat → Nat → Nat → Bool) (s : State) : (dematch dummy s).frm = s.frm := storeDem_frm _ s
@[simp] theorem dematch_host (dummy : Nat → Nat → Nat → Bool) (s : State) : (dematch dummy s).host = s.host := storeDem_host _ s
@[simp] theorem dematch_busData (dummy : Nat → Nat → Nat → Bool) (s : State) : (dematch dummy s).busData = s.busData := storeDem_busData _ s
@[simp] theorem dematch_delay (dummy : Nat → Nat → Nat → Bool) (s : State) : (dematch dummy s).delay = s.delay := storeDem_delay _ s
@[simp] theorem dematch_draws (dummy : Nat → Nat → Nat → Bool) (s : State) : (dematch dummy s).draws = s.draws := storeDem_draws _ s
@[simp] theorem dematch_resets (dummy : Nat → Nat → Nat → Bool) (s : State) : (dematch dummy s).resets = s.resets := storeDem_resets _ s

/-! ### `descramble` -/

@[simp] theorem descramble_cmd (poly : GoldPoly) (s : State) : (descramble poly s).cmd = s.cmd := storeDsc_cmd _ s
@[simp] theorem descramble_busy (poly : GoldPoly) (s : State) : (descramble poly s).busy = s.busy := storeDsc_busy _ s
@[simp] theorem descramble_done (poly : GoldPoly) (s : State) : (descramble poly s).done = s.done := storeDsc_done _ s
@[simp] theorem descramble_ovr (poly : GoldPoly) (s : State) : (descramble poly s).ovr = s.ovr := storeDsc_ovr _ s
@[simp] theorem descramble_res (poly : GoldPoly) (s : State) : (descramble poly s).res = s.res := storeDsc_res _ s
@[simp] theorem descramble_ie (poly : GoldPoly) (s : State) : (descramble poly s).ie = s.ie := storeDsc_ie _ s
@[simp] theorem descramble_capLen (poly : GoldPoly) (s : State) : (descramble poly s).capLen = s.capLen := storeDsc_capLen _ s
@[simp] theorem descramble_capRate (poly : GoldPoly) (s : State) : (descramble poly s).capRate = s.capRate := storeDsc_capRate _ s
@[simp] theorem descramble_capFreqLo (poly : GoldPoly) (s : State) : (descramble poly s).capFreqLo = s.capFreqLo := storeDsc_capFreqLo _ s
@[simp] theorem descramble_capFreqHi (poly : GoldPoly) (s : State) : (descramble poly s).capFreqHi = s.capFreqHi := storeDsc_capFreqHi _ s
@[simp] theorem descramble_capTsLo (poly : GoldPoly) (s : State) : (descramble poly s).capTsLo = s.capTsLo := storeDsc_capTsLo _ s
@[simp] theorem descramble_capTsHi (poly : GoldPoly) (s : State) : (descramble poly s).capTsHi = s.capTsHi := storeDsc_capTsHi _ s
@[simp] theorem descramble_bdNfound (poly : GoldPoly) (s : State) : (descramble poly s).bdNfound = s.bdNfound := storeDsc_bdNfound _ s
@[simp] theorem descramble_bdNcand (poly : GoldPoly) (s : State) : (descramble poly s).bdNcand = s.bdNcand := storeDsc_bdNcand _ s
@[simp] theorem descramble_bdLastoff (poly : GoldPoly) (s : State) : (descramble poly s).bdLastoff = s.bdLastoff := storeDsc_bdLastoff _ s
@[simp] theorem descramble_cfoStart (poly : GoldPoly) (s : State) : (descramble poly s).cfoStart = s.cfoStart := storeDsc_cfoStart _ s
@[simp] theorem descramble_cfoEnd (poly : GoldPoly) (s : State) : (descramble poly s).cfoEnd = s.cfoEnd := storeDsc_cfoEnd _ s
@[simp] theorem descramble_cfoOffset (poly : GoldPoly) (s : State) : (descramble poly s).cfoOffset = s.cfoOffset := storeDsc_cfoOffset _ s
@[simp] theorem descramble_cfoFound (poly : GoldPoly) (s : State) : (descramble poly s).cfoFound = s.cfoFound := storeDsc_cfoFound _ s
@[simp] theorem descramble_cfoComputable (poly : GoldPoly) (s : State) : (descramble poly s).cfoComputable = s.cfoComputable := storeDsc_cfoComputable _ s
@[simp] theorem descramble_cand0 (poly : GoldPoly) (s : State) : (descramble poly s).cand0 = s.cand0 := storeDsc_cand0 _ s
@[simp] theorem descramble_cand1 (poly : GoldPoly) (s : State) : (descramble poly s).cand1 = s.cand1 := storeDsc_cand1 _ s
@[simp] theorem descramble_cand2 (poly : GoldPoly) (s : State) : (descramble poly s).cand2 = s.cand2 := storeDsc_cand2 _ s
@[simp] theorem descramble_burLen (poly : GoldPoly) (s : State) : (descramble poly s).burLen = s.burLen := storeDsc_burLen _ s
@[simp] theorem descramble_sxNgrp (poly : GoldPoly) (s : State) : (descramble poly s).sxNgrp = s.sxNgrp := storeDsc_sxNgrp _ s
@[simp] theorem descramble_symCount (poly : GoldPoly) (s : State) : (descramble poly s).symCount = s.symCount := storeDsc_symCount _ s
@[simp] theorem descramble_goldSeed (poly : GoldPoly) (s : State) : (descramble poly s).goldSeed = s.goldSeed := storeDsc_goldSeed _ s
@[simp] theorem descramble_rawLen (poly : GoldPoly) (s : State) : (descramble poly s).rawLen = s.rawLen := storeDsc_rawLen _ s
@[simp] theorem descramble_demLen (poly : GoldPoly) (s : State) : (descramble poly s).demLen = s.demLen := storeDsc_demLen _ s
@[simp] theorem descramble_dscLen (poly : GoldPoly) (s : State) : (descramble poly s).dscLen = s.demLen := storeDsc_dscLen _ s
@[simp] theorem descramble_frmLen (poly : GoldPoly) (s : State) : (descramble poly s).frmLen = s.frmLen := storeDsc_frmLen _ s
@[simp] theorem descramble_pdHyp (poly : GoldPoly) (s : State) : (descramble poly s).pdHyp = s.pdHyp := storeDsc_pdHyp _ s
@[simp] theorem descramble_pdOk (poly : GoldPoly) (s : State) : (descramble poly s).pdOk = s.pdOk := storeDsc_pdOk _ s
@[simp] theorem descramble_pdLenx (poly : GoldPoly) (s : State) : (descramble poly s).pdLenx = s.pdLenx := storeDsc_pdLenx _ s
@[simp] theorem descramble_pdAtt (poly : GoldPoly) (s : State) : (descramble poly s).pdAtt = s.pdAtt := storeDsc_pdAtt _ s
@[simp] theorem descramble_crcCalc (poly : GoldPoly) (s : State) : (descramble poly s).crcCalc = s.crcCalc := storeDsc_crcCalc _ s
@[simp] theorem descramble_crcRx (poly : GoldPoly) (s : State) : (descramble poly s).crcRx = s.crcRx := storeDsc_crcRx _ s
@[simp] theorem descramble_crcValid (poly : GoldPoly) (s : State) : (descramble poly s).crcValid = s.crcValid := storeDsc_crcValid _ s
@[simp] theorem descramble_cap (poly : GoldPoly) (s : State) : (descramble poly s).cap = s.cap := storeDsc_cap _ s
@[simp] theorem descramble_bur (poly : GoldPoly) (s : State) : (descramble poly s).bur = s.bur := storeDsc_bur _ s
@[simp] theorem descramble_sym (poly : GoldPoly) (s : State) : (descramble poly s).sym = s.sym := storeDsc_sym _ s
@[simp] theorem descramble_glen (poly : GoldPoly) (s : State) : (descramble poly s).glen = s.glen := storeDsc_glen _ s
@[simp] theorem descramble_raw (poly : GoldPoly) (s : State) : (descramble poly s).raw = s.raw := storeDsc_raw _ s
@[simp] theorem descramble_dem (poly : GoldPoly) (s : State) : (descramble poly s).dem = s.dem := storeDsc_dem _ s
@[simp] theorem descramble_frm (poly : GoldPoly) (s : State) : (descramble poly s).frm = s.frm := storeDsc_frm _ s
@[simp] theorem descramble_host (poly : GoldPoly) (s : State) : (descramble poly s).host = s.host := storeDsc_host _ s
@[simp] theorem descramble_busData (poly : GoldPoly) (s : State) : (descramble poly s).busData = s.busData := storeDsc_busData _ s
@[simp] theorem descramble_delay (poly : GoldPoly) (s : State) : (descramble poly s).delay = s.delay := storeDsc_delay _ s
@[simp] theorem descramble_draws (poly : GoldPoly) (s : State) : (descramble poly s).draws = s.draws := storeDsc_draws _ s
@[simp] theorem descramble_resets (poly : GoldPoly) (s : State) : (descramble poly s).resets = s.resets := storeDsc_resets _ s

/-! ### `packFrame` -/

@[simp] theorem packFrame_cmd (s : State) : (packFrame s).cmd = s.cmd := storeFrm_cmd _ s
@[simp] theorem packFrame_busy (s : State) : (packFrame s).busy = s.busy := storeFrm_busy _ s
@[simp] theorem packFrame_done (s : State) : (packFrame s).done = s.done := storeFrm_done _ s
@[simp] theorem packFrame_ovr (s : State) : (packFrame s).ovr = s.ovr := storeFrm_ovr _ s
@[simp] theorem packFrame_res (s : State) : (packFrame s).res = s.res := storeFrm_res _ s
@[simp] theorem packFrame_ie (s : State) : (packFrame s).ie = s.ie := storeFrm_ie _ s
@[simp] theorem packFrame_capLen (s : State) : (packFrame s).capLen = s.capLen := storeFrm_capLen _ s
@[simp] theorem packFrame_capRate (s : State) : (packFrame s).capRate = s.capRate := storeFrm_capRate _ s
@[simp] theorem packFrame_capFreqLo (s : State) : (packFrame s).capFreqLo = s.capFreqLo := storeFrm_capFreqLo _ s
@[simp] theorem packFrame_capFreqHi (s : State) : (packFrame s).capFreqHi = s.capFreqHi := storeFrm_capFreqHi _ s
@[simp] theorem packFrame_capTsLo (s : State) : (packFrame s).capTsLo = s.capTsLo := storeFrm_capTsLo _ s
@[simp] theorem packFrame_capTsHi (s : State) : (packFrame s).capTsHi = s.capTsHi := storeFrm_capTsHi _ s
@[simp] theorem packFrame_bdNfound (s : State) : (packFrame s).bdNfound = s.bdNfound := storeFrm_bdNfound _ s
@[simp] theorem packFrame_bdNcand (s : State) : (packFrame s).bdNcand = s.bdNcand := storeFrm_bdNcand _ s
@[simp] theorem packFrame_bdLastoff (s : State) : (packFrame s).bdLastoff = s.bdLastoff := storeFrm_bdLastoff _ s
@[simp] theorem packFrame_cfoStart (s : State) : (packFrame s).cfoStart = s.cfoStart := storeFrm_cfoStart _ s
@[simp] theorem packFrame_cfoEnd (s : State) : (packFrame s).cfoEnd = s.cfoEnd := storeFrm_cfoEnd _ s
@[simp] theorem packFrame_cfoOffset (s : State) : (packFrame s).cfoOffset = s.cfoOffset := storeFrm_cfoOffset _ s
@[simp] theorem packFrame_cfoFound (s : State) : (packFrame s).cfoFound = s.cfoFound := storeFrm_cfoFound _ s
@[simp] theorem packFrame_cfoComputable (s : State) : (packFrame s).cfoComputable = s.cfoComputable := storeFrm_cfoComputable _ s
@[simp] theorem packFrame_cand0 (s : State) : (packFrame s).cand0 = s.cand0 := storeFrm_cand0 _ s
@[simp] theorem packFrame_cand1 (s : State) : (packFrame s).cand1 = s.cand1 := storeFrm_cand1 _ s
@[simp] theorem packFrame_cand2 (s : State) : (packFrame s).cand2 = s.cand2 := storeFrm_cand2 _ s
@[simp] theorem packFrame_burLen (s : State) : (packFrame s).burLen = s.burLen := storeFrm_burLen _ s
@[simp] theorem packFrame_sxNgrp (s : State) : (packFrame s).sxNgrp = s.sxNgrp := storeFrm_sxNgrp _ s
@[simp] theorem packFrame_symCount (s : State) : (packFrame s).symCount = s.symCount := storeFrm_symCount _ s
@[simp] theorem packFrame_goldSeed (s : State) : (packFrame s).goldSeed = s.goldSeed := storeFrm_goldSeed _ s
@[simp] theorem packFrame_rawLen (s : State) : (packFrame s).rawLen = s.rawLen := storeFrm_rawLen _ s
@[simp] theorem packFrame_demLen (s : State) : (packFrame s).demLen = s.demLen := storeFrm_demLen _ s
@[simp] theorem packFrame_dscLen (s : State) : (packFrame s).dscLen = s.dscLen := storeFrm_dscLen _ s
@[simp] theorem packFrame_frmLen (s : State) : (packFrame s).frmLen = BitVec.ofNat 32 (s.dscLen.toNat / 8) := storeFrm_frmLen _ s
@[simp] theorem packFrame_pdHyp (s : State) : (packFrame s).pdHyp = s.pdHyp := storeFrm_pdHyp _ s
@[simp] theorem packFrame_pdOk (s : State) : (packFrame s).pdOk = s.pdOk := storeFrm_pdOk _ s
@[simp] theorem packFrame_pdLenx (s : State) : (packFrame s).pdLenx = s.pdLenx := storeFrm_pdLenx _ s
@[simp] theorem packFrame_pdAtt (s : State) : (packFrame s).pdAtt = s.pdAtt := storeFrm_pdAtt _ s
@[simp] theorem packFrame_crcCalc (s : State) : (packFrame s).crcCalc = 0#16 := storeFrm_crcCalc _ s
@[simp] theorem packFrame_crcRx (s : State) : (packFrame s).crcRx = 0#16 := storeFrm_crcRx _ s
@[simp] theorem packFrame_crcValid (s : State) : (packFrame s).crcValid = false := storeFrm_crcValid _ s
@[simp] theorem packFrame_cap (s : State) : (packFrame s).cap = s.cap := storeFrm_cap _ s
@[simp] theorem packFrame_bur (s : State) : (packFrame s).bur = s.bur := storeFrm_bur _ s
@[simp] theorem packFrame_sym (s : State) : (packFrame s).sym = s.sym := storeFrm_sym _ s
@[simp] theorem packFrame_glen (s : State) : (packFrame s).glen = s.glen := storeFrm_glen _ s
@[simp] theorem packFrame_raw (s : State) : (packFrame s).raw = s.raw := storeFrm_raw _ s
@[simp] theorem packFrame_dem (s : State) : (packFrame s).dem = s.dem := storeFrm_dem _ s
@[simp] theorem packFrame_dsc (s : State) : (packFrame s).dsc = s.dsc := storeFrm_dsc _ s
@[simp] theorem packFrame_host (s : State) : (packFrame s).host = s.host := storeFrm_host _ s
@[simp] theorem packFrame_busData (s : State) : (packFrame s).busData = s.busData := storeFrm_busData _ s
@[simp] theorem packFrame_delay (s : State) : (packFrame s).delay = s.delay := storeFrm_delay _ s
@[simp] theorem packFrame_draws (s : State) : (packFrame s).draws = s.draws := storeFrm_draws _ s
@[simp] theorem packFrame_resets (s : State) : (packFrame s).resets = s.resets := storeFrm_resets _ s

/-! ### `packBytes` -/

@[simp] theorem packBytes_cmd (struct : List Byte → Bool) (s : State) : (packBytes struct s).cmd = s.cmd := (storeVerdict_cmd _ _).trans (packFrame_cmd s)
@[simp] theorem packBytes_busy (struct : List Byte → Bool) (s : State) : (packBytes struct s).busy = s.busy := (storeVerdict_busy _ _).trans (packFrame_busy s)
@[simp] theorem packBytes_done (struct : List Byte → Bool) (s : State) : (packBytes struct s).done = s.done := (storeVerdict_done _ _).trans (packFrame_done s)
@[simp] theorem packBytes_ovr (struct : List Byte → Bool) (s : State) : (packBytes struct s).ovr = s.ovr := (storeVerdict_ovr _ _).trans (packFrame_ovr s)
@[simp] theorem packBytes_res (struct : List Byte → Bool) (s : State) : (packBytes struct s).res = s.res := (storeVerdict_res _ _).trans (packFrame_res s)
@[simp] theorem packBytes_ie (struct : List Byte → Bool) (s : State) : (packBytes struct s).ie = s.ie := (storeVerdict_ie _ _).trans (packFrame_ie s)
@[simp] theorem packBytes_capLen (struct : List Byte → Bool) (s : State) : (packBytes struct s).capLen = s.capLen := (storeVerdict_capLen _ _).trans (packFrame_capLen s)
@[simp] theorem packBytes_capRate (struct : List Byte → Bool) (s : State) : (packBytes struct s).capRate = s.capRate := (storeVerdict_capRate _ _).trans (packFrame_capRate s)
@[simp] theorem packBytes_capFreqLo (struct : List Byte → Bool) (s : State) : (packBytes struct s).capFreqLo = s.capFreqLo := (storeVerdict_capFreqLo _ _).trans (packFrame_capFreqLo s)
@[simp] theorem packBytes_capFreqHi (struct : List Byte → Bool) (s : State) : (packBytes struct s).capFreqHi = s.capFreqHi := (storeVerdict_capFreqHi _ _).trans (packFrame_capFreqHi s)
@[simp] theorem packBytes_capTsLo (struct : List Byte → Bool) (s : State) : (packBytes struct s).capTsLo = s.capTsLo := (storeVerdict_capTsLo _ _).trans (packFrame_capTsLo s)
@[simp] theorem packBytes_capTsHi (struct : List Byte → Bool) (s : State) : (packBytes struct s).capTsHi = s.capTsHi := (storeVerdict_capTsHi _ _).trans (packFrame_capTsHi s)
@[simp] theorem packBytes_bdNfound (struct : List Byte → Bool) (s : State) : (packBytes struct s).bdNfound = s.bdNfound := (storeVerdict_bdNfound _ _).trans (packFrame_bdNfound s)
@[simp] theorem packBytes_bdNcand (struct : List Byte → Bool) (s : State) : (packBytes struct s).bdNcand = s.bdNcand := (storeVerdict_bdNcand _ _).trans (packFrame_bdNcand s)
@[simp] theorem packBytes_bdLastoff (struct : List Byte → Bool) (s : State) : (packBytes struct s).bdLastoff = s.bdLastoff := (storeVerdict_bdLastoff _ _).trans (packFrame_bdLastoff s)
@[simp] theorem packBytes_cfoStart (struct : List Byte → Bool) (s : State) : (packBytes struct s).cfoStart = s.cfoStart := (storeVerdict_cfoStart _ _).trans (packFrame_cfoStart s)
@[simp] theorem packBytes_cfoEnd (struct : List Byte → Bool) (s : State) : (packBytes struct s).cfoEnd = s.cfoEnd := (storeVerdict_cfoEnd _ _).trans (packFrame_cfoEnd s)
@[simp] theorem packBytes_cfoOffset (struct : List Byte → Bool) (s : State) : (packBytes struct s).cfoOffset = s.cfoOffset := (storeVerdict_cfoOffset _ _).trans (packFrame_cfoOffset s)
@[simp] theorem packBytes_cfoFound (struct : List Byte → Bool) (s : State) : (packBytes struct s).cfoFound = s.cfoFound := (storeVerdict_cfoFound _ _).trans (packFrame_cfoFound s)
@[simp] theorem packBytes_cfoComputable (struct : List Byte → Bool) (s : State) : (packBytes struct s).cfoComputable = s.cfoComputable := (storeVerdict_cfoComputable _ _).trans (packFrame_cfoComputable s)
@[simp] theorem packBytes_cand0 (struct : List Byte → Bool) (s : State) : (packBytes struct s).cand0 = s.cand0 := (storeVerdict_cand0 _ _).trans (packFrame_cand0 s)
@[simp] theorem packBytes_cand1 (struct : List Byte → Bool) (s : State) : (packBytes struct s).cand1 = s.cand1 := (storeVerdict_cand1 _ _).trans (packFrame_cand1 s)
@[simp] theorem packBytes_cand2 (struct : List Byte → Bool) (s : State) : (packBytes struct s).cand2 = s.cand2 := (storeVerdict_cand2 _ _).trans (packFrame_cand2 s)
@[simp] theorem packBytes_burLen (struct : List Byte → Bool) (s : State) : (packBytes struct s).burLen = s.burLen := (storeVerdict_burLen _ _).trans (packFrame_burLen s)
@[simp] theorem packBytes_sxNgrp (struct : List Byte → Bool) (s : State) : (packBytes struct s).sxNgrp = s.sxNgrp := (storeVerdict_sxNgrp _ _).trans (packFrame_sxNgrp s)
@[simp] theorem packBytes_symCount (struct : List Byte → Bool) (s : State) : (packBytes struct s).symCount = s.symCount := (storeVerdict_symCount _ _).trans (packFrame_symCount s)
@[simp] theorem packBytes_goldSeed (struct : List Byte → Bool) (s : State) : (packBytes struct s).goldSeed = s.goldSeed := (storeVerdict_goldSeed _ _).trans (packFrame_goldSeed s)
@[simp] theorem packBytes_rawLen (struct : List Byte → Bool) (s : State) : (packBytes struct s).rawLen = s.rawLen := (storeVerdict_rawLen _ _).trans (packFrame_rawLen s)
@[simp] theorem packBytes_demLen (struct : List Byte → Bool) (s : State) : (packBytes struct s).demLen = s.demLen := (storeVerdict_demLen _ _).trans (packFrame_demLen s)
@[simp] theorem packBytes_dscLen (struct : List Byte → Bool) (s : State) : (packBytes struct s).dscLen = s.dscLen := (storeVerdict_dscLen _ _).trans (packFrame_dscLen s)
@[simp] theorem packBytes_frmLen (struct : List Byte → Bool) (s : State) : (packBytes struct s).frmLen = BitVec.ofNat 32 (s.dscLen.toNat / 8) := (storeVerdict_frmLen _ _).trans (packFrame_frmLen s)
@[simp] theorem packBytes_pdHyp (struct : List Byte → Bool) (s : State) : (packBytes struct s).pdHyp = s.pdHyp := (storeVerdict_pdHyp _ _).trans (packFrame_pdHyp s)
@[simp] theorem packBytes_pdOk (struct : List Byte → Bool) (s : State) : (packBytes struct s).pdOk = frameOk struct (packFrame s) := storeVerdict_pdOk _ _
@[simp] theorem packBytes_pdLenx (struct : List Byte → Bool) (s : State) : (packBytes struct s).pdLenx = s.pdLenx := (storeVerdict_pdLenx _ _).trans (packFrame_pdLenx s)
@[simp] theorem packBytes_pdAtt (struct : List Byte → Bool) (s : State) : (packBytes struct s).pdAtt = s.pdAtt := (storeVerdict_pdAtt _ _).trans (packFrame_pdAtt s)
@[simp] theorem packBytes_crcCalc (struct : List Byte → Bool) (s : State) : (packBytes struct s).crcCalc = 0#16 := (storeVerdict_crcCalc _ _).trans (packFrame_crcCalc s)
@[simp] theorem packBytes_crcRx (struct : List Byte → Bool) (s : State) : (packBytes struct s).crcRx = 0#16 := (storeVerdict_crcRx _ _).trans (packFrame_crcRx s)
@[simp] theorem packBytes_crcValid (struct : List Byte → Bool) (s : State) : (packBytes struct s).crcValid = false := (storeVerdict_crcValid _ _).trans (packFrame_crcValid s)
@[simp] theorem packBytes_cap (struct : List Byte → Bool) (s : State) : (packBytes struct s).cap = s.cap := (storeVerdict_cap _ _).trans (packFrame_cap s)
@[simp] theorem packBytes_bur (struct : List Byte → Bool) (s : State) : (packBytes struct s).bur = s.bur := (storeVerdict_bur _ _).trans (packFrame_bur s)
@[simp] theorem packBytes_sym (struct : List Byte → Bool) (s : State) : (packBytes struct s).sym = s.sym := (storeVerdict_sym _ _).trans (packFrame_sym s)
@[simp] theorem packBytes_glen (struct : List Byte → Bool) (s : State) : (packBytes struct s).glen = s.glen := (storeVerdict_glen _ _).trans (packFrame_glen s)
@[simp] theorem packBytes_raw (struct : List Byte → Bool) (s : State) : (packBytes struct s).raw = s.raw := (storeVerdict_raw _ _).trans (packFrame_raw s)
@[simp] theorem packBytes_dem (struct : List Byte → Bool) (s : State) : (packBytes struct s).dem = s.dem := (storeVerdict_dem _ _).trans (packFrame_dem s)
@[simp] theorem packBytes_dsc (struct : List Byte → Bool) (s : State) : (packBytes struct s).dsc = s.dsc := (storeVerdict_dsc _ _).trans (packFrame_dsc s)
@[simp] theorem packBytes_frm (struct : List Byte → Bool) (s : State) : (packBytes struct s).frm = (packFrame s).frm := storeVerdict_frm _ _
@[simp] theorem packBytes_host (struct : List Byte → Bool) (s : State) : (packBytes struct s).host = s.host := (storeVerdict_host _ _).trans (packFrame_host s)
@[simp] theorem packBytes_busData (struct : List Byte → Bool) (s : State) : (packBytes struct s).busData = s.busData := (storeVerdict_busData _ _).trans (packFrame_busData s)
@[simp] theorem packBytes_delay (struct : List Byte → Bool) (s : State) : (packBytes struct s).delay = s.delay := (storeVerdict_delay _ _).trans (packFrame_delay s)
@[simp] theorem packBytes_draws (struct : List Byte → Bool) (s : State) : (packBytes struct s).draws = s.draws := (storeVerdict_draws _ _).trans (packFrame_draws s)
@[simp] theorem packBytes_resets (struct : List Byte → Bool) (s : State) : (packBytes struct s).resets = s.resets := (storeVerdict_resets _ _).trans (packFrame_resets s)

/-! ### `checkCrc` -/

@[simp] theorem checkCrc_cmd (s : State) : (checkCrc s).cmd = s.cmd := storeCrc_cmd _ _ s
@[simp] theorem checkCrc_busy (s : State) : (checkCrc s).busy = s.busy := storeCrc_busy _ _ s
@[simp] theorem checkCrc_done (s : State) : (checkCrc s).done = s.done := storeCrc_done _ _ s
@[simp] theorem checkCrc_ovr (s : State) : (checkCrc s).ovr = s.ovr := storeCrc_ovr _ _ s
@[simp] theorem checkCrc_res (s : State) : (checkCrc s).res = s.res := storeCrc_res _ _ s
@[simp] theorem checkCrc_ie (s : State) : (checkCrc s).ie = s.ie := storeCrc_ie _ _ s
@[simp] theorem checkCrc_capLen (s : State) : (checkCrc s).capLen = s.capLen := storeCrc_capLen _ _ s
@[simp] theorem checkCrc_capRate (s : State) : (checkCrc s).capRate = s.capRate := storeCrc_capRate _ _ s
@[simp] theorem checkCrc_capFreqLo (s : State) : (checkCrc s).capFreqLo = s.capFreqLo := storeCrc_capFreqLo _ _ s
@[simp] theorem checkCrc_capFreqHi (s : State) : (checkCrc s).capFreqHi = s.capFreqHi := storeCrc_capFreqHi _ _ s
@[simp] theorem checkCrc_capTsLo (s : State) : (checkCrc s).capTsLo = s.capTsLo := storeCrc_capTsLo _ _ s
@[simp] theorem checkCrc_capTsHi (s : State) : (checkCrc s).capTsHi = s.capTsHi := storeCrc_capTsHi _ _ s
@[simp] theorem checkCrc_bdNfound (s : State) : (checkCrc s).bdNfound = s.bdNfound := storeCrc_bdNfound _ _ s
@[simp] theorem checkCrc_bdNcand (s : State) : (checkCrc s).bdNcand = s.bdNcand := storeCrc_bdNcand _ _ s
@[simp] theorem checkCrc_bdLastoff (s : State) : (checkCrc s).bdLastoff = s.bdLastoff := storeCrc_bdLastoff _ _ s
@[simp] theorem checkCrc_cfoStart (s : State) : (checkCrc s).cfoStart = s.cfoStart := storeCrc_cfoStart _ _ s
@[simp] theorem checkCrc_cfoEnd (s : State) : (checkCrc s).cfoEnd = s.cfoEnd := storeCrc_cfoEnd _ _ s
@[simp] theorem checkCrc_cfoOffset (s : State) : (checkCrc s).cfoOffset = s.cfoOffset := storeCrc_cfoOffset _ _ s
@[simp] theorem checkCrc_cfoFound (s : State) : (checkCrc s).cfoFound = s.cfoFound := storeCrc_cfoFound _ _ s
@[simp] theorem checkCrc_cfoComputable (s : State) : (checkCrc s).cfoComputable = s.cfoComputable := storeCrc_cfoComputable _ _ s
@[simp] theorem checkCrc_cand0 (s : State) : (checkCrc s).cand0 = s.cand0 := storeCrc_cand0 _ _ s
@[simp] theorem checkCrc_cand1 (s : State) : (checkCrc s).cand1 = s.cand1 := storeCrc_cand1 _ _ s
@[simp] theorem checkCrc_cand2 (s : State) : (checkCrc s).cand2 = s.cand2 := storeCrc_cand2 _ _ s
@[simp] theorem checkCrc_burLen (s : State) : (checkCrc s).burLen = s.burLen := storeCrc_burLen _ _ s
@[simp] theorem checkCrc_sxNgrp (s : State) : (checkCrc s).sxNgrp = s.sxNgrp := storeCrc_sxNgrp _ _ s
@[simp] theorem checkCrc_symCount (s : State) : (checkCrc s).symCount = s.symCount := storeCrc_symCount _ _ s
@[simp] theorem checkCrc_goldSeed (s : State) : (checkCrc s).goldSeed = s.goldSeed := storeCrc_goldSeed _ _ s
@[simp] theorem checkCrc_rawLen (s : State) : (checkCrc s).rawLen = s.rawLen := storeCrc_rawLen _ _ s
@[simp] theorem checkCrc_demLen (s : State) : (checkCrc s).demLen = s.demLen := storeCrc_demLen _ _ s
@[simp] theorem checkCrc_dscLen (s : State) : (checkCrc s).dscLen = s.dscLen := storeCrc_dscLen _ _ s
@[simp] theorem checkCrc_frmLen (s : State) : (checkCrc s).frmLen = s.frmLen := storeCrc_frmLen _ _ s
@[simp] theorem checkCrc_pdHyp (s : State) : (checkCrc s).pdHyp = s.pdHyp := storeCrc_pdHyp _ _ s
@[simp] theorem checkCrc_pdOk (s : State) : (checkCrc s).pdOk = s.pdOk := storeCrc_pdOk _ _ s
@[simp] theorem checkCrc_pdLenx (s : State) : (checkCrc s).pdLenx = s.pdLenx := storeCrc_pdLenx _ _ s
@[simp] theorem checkCrc_pdAtt (s : State) : (checkCrc s).pdAtt = s.pdAtt := storeCrc_pdAtt _ _ s
@[simp] theorem checkCrc_crcCalc (s : State) : (checkCrc s).crcCalc = crcOfPayload s := storeCrc_crcCalc _ _ s
@[simp] theorem checkCrc_crcRx (s : State) : (checkCrc s).crcRx = crcEmbedded s := storeCrc_crcRx _ _ s
@[simp] theorem checkCrc_crcValid (s : State) : (checkCrc s).crcValid = (crcOfPayload s == crcEmbedded s) := storeCrc_crcValid _ _ s
@[simp] theorem checkCrc_cap (s : State) : (checkCrc s).cap = s.cap := storeCrc_cap _ _ s
@[simp] theorem checkCrc_bur (s : State) : (checkCrc s).bur = s.bur := storeCrc_bur _ _ s
@[simp] theorem checkCrc_sym (s : State) : (checkCrc s).sym = s.sym := storeCrc_sym _ _ s
@[simp] theorem checkCrc_glen (s : State) : (checkCrc s).glen = s.glen := storeCrc_glen _ _ s
@[simp] theorem checkCrc_raw (s : State) : (checkCrc s).raw = s.raw := storeCrc_raw _ _ s
@[simp] theorem checkCrc_dem (s : State) : (checkCrc s).dem = s.dem := storeCrc_dem _ _ s
@[simp] theorem checkCrc_dsc (s : State) : (checkCrc s).dsc = s.dsc := storeCrc_dsc _ _ s
@[simp] theorem checkCrc_frm (s : State) : (checkCrc s).frm = s.frm := storeCrc_frm _ _ s
@[simp] theorem checkCrc_host (s : State) : (checkCrc s).host = s.host := storeCrc_host _ _ s
@[simp] theorem checkCrc_busData (s : State) : (checkCrc s).busData = s.busData := storeCrc_busData _ _ s
@[simp] theorem checkCrc_delay (s : State) : (checkCrc s).delay = s.delay := storeCrc_delay _ _ s
@[simp] theorem checkCrc_draws (s : State) : (checkCrc s).draws = s.draws := storeCrc_draws _ _ s
@[simp] theorem checkCrc_resets (s : State) : (checkCrc s).resets = s.resets := storeCrc_resets _ _ s

/-! ### Contents of a space after an update -/

theorem State.mem_setMem (s : State) (sp q : Space) (m : Memory) :
    (s.setMem sp m).mem q = if q = sp then m else s.mem q := by
  cases sp <;> cases q <;> rfl

@[simp] theorem State.mem_setMem_same (s : State) (sp : Space) (m : Memory) : (s.setMem sp m).mem sp = m := by
  cases sp <;> rfl

theorem State.mem_setMem_ne (s : State) {sp q : Space} (h : q ≠ sp) (m : Memory) : (s.setMem sp m).mem q = s.mem q := by
  rw [State.mem_setMem, if_neg h]

@[simp] theorem State.mem_complete (s : State) (c : ResultCode) (sp : Space) : (s.complete c).mem sp = s.mem sp := by
  cases sp <;> rfl

@[simp] theorem State.mem_accept (s : State) (w : Word) (sp : Space) : (s.accept w).mem sp = s.mem sp := by
  cases sp <;> rfl

@[simp] theorem State.mem_writeStatus (s : State) (v : Word) (sp : Space) : (s.writeStatus v).mem sp = s.mem sp := by
  cases sp <;> rfl

@[simp] theorem State.mem_clearCrc (s : State) (sp : Space) : s.clearCrc.mem sp = s.mem sp := by
  cases sp <;> rfl

@[simp] theorem State.mem_takeAction (s : State) (rest : List HostAction) (sp : Space) :
    (s.takeAction rest).mem sp = s.mem sp := by
  cases sp <;> rfl

@[simp] theorem State.mem_clearRegisters (s : State) (sp : Space) : s.clearRegisters.mem sp = s.mem sp := by
  cases sp <;> rfl

@[simp] theorem State.mem_clearOvr (s : State) (sp : Space) : s.clearOvr.mem sp = s.mem sp := by
  cases sp <;> rfl

theorem State.mem_putBits (s : State) (sp q : Space) (bits : List Bool) :
    (s.putBits sp bits).mem q = if q = sp then (s.mem sp).putBits sp s.resets 0 bits else s.mem q :=
  State.mem_setMem s sp q _

theorem State.mem_putBytes (s : State) (sp q : Space) (bytes : List Byte) :
    (s.putBytes sp bytes).mem q = if q = sp then (s.mem sp).putBytes sp 0 bytes else s.mem q :=
  State.mem_setMem s sp q _

theorem State.mem_putWords (s : State) (sp q : Space) (words : List Word) :
    (s.putWords sp words).mem q = if q = sp then (s.mem sp).putWords sp 0 words else s.mem q :=
  State.mem_setMem s sp q _

theorem State.mem_putWord (s : State) (sp q : Space) (w : Nat) (v : Word) :
    (s.putWord sp w v).mem q = if q = sp then (s.mem sp).putWord sp w v else s.mem q :=
  State.mem_setMem s sp q _

theorem storeRaw_mem (bits : List Bool) (h : BitVec 2) (s : State) (q : Space) :
    (storeRaw bits h s).mem q = (s.putBits .raw bits).mem q := by cases q <;> rfl

theorem storeDem_mem (bits : List Bool) (s : State) (q : Space) :
    (storeDem bits s).mem q = (s.putBits .dem bits).mem q := by cases q <;> rfl

theorem storeDsc_mem (bits : List Bool) (s : State) (q : Space) :
    (storeDsc bits s).mem q = (s.putBits .dsc bits).mem q := by cases q <;> rfl

theorem storeFrm_mem (bytes : List Byte) (s : State) (q : Space) :
    (storeFrm bytes s).mem q = (s.putBytes .frm bytes).mem q := by cases q <;> rfl

@[simp] theorem storeVerdict_mem (ok : Bool) (s : State) (q : Space) : (storeVerdict ok s).mem q = s.mem q := by
  cases q <;> rfl

@[simp] theorem storeAttempts_mem (n : Nat) (s : State) (q : Space) : (storeAttempts n s).mem q = s.mem q := by
  cases q <;> rfl

@[simp] theorem storeCrc_mem (sum rx : BitVec 16) (s : State) (q : Space) : (storeCrc sum rx s).mem q = s.mem q := by
  cases q <;> rfl

@[simp] theorem checkCrc_mem (s : State) (q : Space) : (checkCrc s).mem q = s.mem q := storeCrc_mem _ _ s q

@[simp] theorem storeCounts_mem (groups points : Nat) (s : State) (q : Space) :
    (storeCounts groups points s).mem q = s.mem q := by cases q <;> rfl

@[simp] theorem storeCfo_mem (offset : Word) (found computable : Bool) (s : State) (q : Space) :
    (storeCfo offset found computable s).mem q = s.mem q := by cases q <;> rfl

@[simp] theorem storeCandidates_mem (n : Nat) (lastoff : Word) (out : List Cand) (s : State) (q : Space) :
    (storeCandidates n lastoff out s).mem q = s.mem q := by cases q <;> rfl

/-! ### `State.dropWrite` -/

@[simp] theorem State.dropWrite_cmd (s : State) : (s.dropWrite).cmd = s.cmd := (rfl)
@[simp] theorem State.dropWrite_busy (s : State) : (s.dropWrite).busy = s.busy := (rfl)
@[simp] theorem State.dropWrite_done (s : State) : (s.dropWrite).done = s.done := (rfl)
@[simp] theorem State.dropWrite_ovr (s : State) : (s.dropWrite).ovr = true := (rfl)
@[simp] theorem State.dropWrite_res (s : State) : (s.dropWrite).res = s.res := (rfl)
@[simp] theorem State.dropWrite_ie (s : State) : (s.dropWrite).ie = s.ie := (rfl)
@[simp] theorem State.dropWrite_capLen (s : State) : (s.dropWrite).capLen = s.capLen := (rfl)
@[simp] theorem State.dropWrite_capRate (s : State) : (s.dropWrite).capRate = s.capRate := (rfl)
@[simp] theorem State.dropWrite_capFreqLo (s : State) : (s.dropWrite).capFreqLo = s.capFreqLo := (rfl)
@[simp] theorem State.dropWrite_capFreqHi (s : State) : (s.dropWrite).capFreqHi = s.capFreqHi := (rfl)
@[simp] theorem State.dropWrite_capTsLo (s : State) : (s.dropWrite).capTsLo = s.capTsLo := (rfl)
@[simp] theorem State.dropWrite_capTsHi (s : State) : (s.dropWrite).capTsHi = s.capTsHi := (rfl)
@[simp] theorem State.dropWrite_bdNfound (s : State) : (s.dropWrite).bdNfound = s.bdNfound := (rfl)
@[simp] theorem State.dropWrite_bdNcand (s : State) : (s.dropWrite).bdNcand = s.bdNcand := (rfl)
@[simp] theorem State.dropWrite_bdLastoff (s : State) : (s.dropWrite).bdLastoff = s.bdLastoff := (rfl)
@[simp] theorem State.dropWrite_cfoStart (s : State) : (s.dropWrite).cfoStart = s.cfoStart := (rfl)
@[simp] theorem State.dropWrite_cfoEnd (s : State) : (s.dropWrite).cfoEnd = s.cfoEnd := (rfl)
@[simp] theorem State.dropWrite_cfoOffset (s : State) : (s.dropWrite).cfoOffset = s.cfoOffset := (rfl)
@[simp] theorem State.dropWrite_cfoFound (s : State) : (s.dropWrite).cfoFound = s.cfoFound := (rfl)
@[simp] theorem State.dropWrite_cfoComputable (s : State) : (s.dropWrite).cfoComputable = s.cfoComputable := (rfl)
@[simp] theorem State.dropWrite_cand0 (s : State) : (s.dropWrite).cand0 = s.cand0 := (rfl)
@[simp] theorem State.dropWrite_cand1 (s : State) : (s.dropWrite).cand1 = s.cand1 := (rfl)
@[simp] theorem State.dropWrite_cand2 (s : State) : (s.dropWrite).cand2 = s.cand2 := (rfl)
@[simp] theorem State.dropWrite_burLen (s : State) : (s.dropWrite).burLen = s.burLen := (rfl)
@[simp] theorem State.dropWrite_sxNgrp (s : State) : (s.dropWrite).sxNgrp = s.sxNgrp := (rfl)
@[simp] theorem State.dropWrite_symCount (s : State) : (s.dropWrite).symCount = s.symCount := (rfl)
@[simp] theorem State.dropWrite_goldSeed (s : State) : (s.dropWrite).goldSeed = s.goldSeed := (rfl)
@[simp] theorem State.dropWrite_rawLen (s : State) : (s.dropWrite).rawLen = s.rawLen := (rfl)
@[simp] theorem State.dropWrite_demLen (s : State) : (s.dropWrite).demLen = s.demLen := (rfl)
@[simp] theorem State.dropWrite_dscLen (s : State) : (s.dropWrite).dscLen = s.dscLen := (rfl)
@[simp] theorem State.dropWrite_frmLen (s : State) : (s.dropWrite).frmLen = s.frmLen := (rfl)
@[simp] theorem State.dropWrite_pdHyp (s : State) : (s.dropWrite).pdHyp = s.pdHyp := (rfl)
@[simp] theorem State.dropWrite_pdOk (s : State) : (s.dropWrite).pdOk = s.pdOk := (rfl)
@[simp] theorem State.dropWrite_pdLenx (s : State) : (s.dropWrite).pdLenx = s.pdLenx := (rfl)
@[simp] theorem State.dropWrite_pdAtt (s : State) : (s.dropWrite).pdAtt = s.pdAtt := (rfl)
@[simp] theorem State.dropWrite_crcCalc (s : State) : (s.dropWrite).crcCalc = s.crcCalc := (rfl)
@[simp] theorem State.dropWrite_crcRx (s : State) : (s.dropWrite).crcRx = s.crcRx := (rfl)
@[simp] theorem State.dropWrite_crcValid (s : State) : (s.dropWrite).crcValid = s.crcValid := (rfl)
@[simp] theorem State.dropWrite_cap (s : State) : (s.dropWrite).cap = s.cap := (rfl)
@[simp] theorem State.dropWrite_bur (s : State) : (s.dropWrite).bur = s.bur := (rfl)
@[simp] theorem State.dropWrite_sym (s : State) : (s.dropWrite).sym = s.sym := (rfl)
@[simp] theorem State.dropWrite_glen (s : State) : (s.dropWrite).glen = s.glen := (rfl)
@[simp] theorem State.dropWrite_raw (s : State) : (s.dropWrite).raw = s.raw := (rfl)
@[simp] theorem State.dropWrite_dem (s : State) : (s.dropWrite).dem = s.dem := (rfl)
@[simp] theorem State.dropWrite_dsc (s : State) : (s.dropWrite).dsc = s.dsc := (rfl)
@[simp] theorem State.dropWrite_frm (s : State) : (s.dropWrite).frm = s.frm := (rfl)
@[simp] theorem State.dropWrite_host (s : State) : (s.dropWrite).host = s.host := (rfl)
@[simp] theorem State.dropWrite_busData (s : State) : (s.dropWrite).busData = s.busData := (rfl)
@[simp] theorem State.dropWrite_delay (s : State) : (s.dropWrite).delay = s.delay := (rfl)
@[simp] theorem State.dropWrite_draws (s : State) : (s.dropWrite).draws = s.draws := (rfl)
@[simp] theorem State.dropWrite_resets (s : State) : (s.dropWrite).resets = s.resets := (rfl)

/-! ### `State.respond` -/

@[simp] theorem State.respond_cmd (s : State) (v : Word) : (s.respond v).cmd = s.cmd := (rfl)
@[simp] theorem State.respond_busy (s : State) (v : Word) : (s.respond v).busy = s.busy := (rfl)
@[simp] theorem State.respond_done (s : State) (v : Word) : (s.respond v).done = s.done := (rfl)
@[simp] theorem State.respond_ovr (s : State) (v : Word) : (s.respond v).ovr = s.ovr := (rfl)
@[simp] theorem State.respond_res (s : State) (v : Word) : (s.respond v).res = s.res := (rfl)
@[simp] theorem State.respond_ie (s : State) (v : Word) : (s.respond v).ie = s.ie := (rfl)
@[simp] theorem State.respond_capLen (s : State) (v : Word) : (s.respond v).capLen = s.capLen := (rfl)
@[simp] theorem State.respond_capRate (s : State) (v : Word) : (s.respond v).capRate = s.capRate := (rfl)
@[simp] theorem State.respond_capFreqLo (s : State) (v : Word) : (s.respond v).capFreqLo = s.capFreqLo := (rfl)
@[simp] theorem State.respond_capFreqHi (s : State) (v : Word) : (s.respond v).capFreqHi = s.capFreqHi := (rfl)
@[simp] theorem State.respond_capTsLo (s : State) (v : Word) : (s.respond v).capTsLo = s.capTsLo := (rfl)
@[simp] theorem State.respond_capTsHi (s : State) (v : Word) : (s.respond v).capTsHi = s.capTsHi := (rfl)
@[simp] theorem State.respond_bdNfound (s : State) (v : Word) : (s.respond v).bdNfound = s.bdNfound := (rfl)
@[simp] theorem State.respond_bdNcand (s : State) (v : Word) : (s.respond v).bdNcand = s.bdNcand := (rfl)
@[simp] theorem State.respond_bdLastoff (s : State) (v : Word) : (s.respond v).bdLastoff = s.bdLastoff := (rfl)
@[simp] theorem State.respond_cfoStart (s : State) (v : Word) : (s.respond v).cfoStart = s.cfoStart := (rfl)
@[simp] theorem State.respond_cfoEnd (s : State) (v : Word) : (s.respond v).cfoEnd = s.cfoEnd := (rfl)
@[simp] theorem State.respond_cfoOffset (s : State) (v : Word) : (s.respond v).cfoOffset = s.cfoOffset := (rfl)
@[simp] theorem State.respond_cfoFound (s : State) (v : Word) : (s.respond v).cfoFound = s.cfoFound := (rfl)
@[simp] theorem State.respond_cfoComputable (s : State) (v : Word) : (s.respond v).cfoComputable = s.cfoComputable := (rfl)
@[simp] theorem State.respond_cand0 (s : State) (v : Word) : (s.respond v).cand0 = s.cand0 := (rfl)
@[simp] theorem State.respond_cand1 (s : State) (v : Word) : (s.respond v).cand1 = s.cand1 := (rfl)
@[simp] theorem State.respond_cand2 (s : State) (v : Word) : (s.respond v).cand2 = s.cand2 := (rfl)
@[simp] theorem State.respond_burLen (s : State) (v : Word) : (s.respond v).burLen = s.burLen := (rfl)
@[simp] theorem State.respond_sxNgrp (s : State) (v : Word) : (s.respond v).sxNgrp = s.sxNgrp := (rfl)
@[simp] theorem State.respond_symCount (s : State) (v : Word) : (s.respond v).symCount = s.symCount := (rfl)
@[simp] theorem State.respond_goldSeed (s : State) (v : Word) : (s.respond v).goldSeed = s.goldSeed := (rfl)
@[simp] theorem State.respond_rawLen (s : State) (v : Word) : (s.respond v).rawLen = s.rawLen := (rfl)
@[simp] theorem State.respond_demLen (s : State) (v : Word) : (s.respond v).demLen = s.demLen := (rfl)
@[simp] theorem State.respond_dscLen (s : State) (v : Word) : (s.respond v).dscLen = s.dscLen := (rfl)
@[simp] theorem State.respond_frmLen (s : State) (v : Word) : (s.respond v).frmLen = s.frmLen := (rfl)
@[simp] theorem State.respond_pdHyp (s : State) (v : Word) : (s.respond v).pdHyp = s.pdHyp := (rfl)
@[simp] theorem State.respond_pdOk (s : State) (v : Word) : (s.respond v).pdOk = s.pdOk := (rfl)
@[simp] theorem State.respond_pdLenx (s : State) (v : Word) : (s.respond v).pdLenx = s.pdLenx := (rfl)
@[simp] theorem State.respond_pdAtt (s : State) (v : Word) : (s.respond v).pdAtt = s.pdAtt := (rfl)
@[simp] theorem State.respond_crcCalc (s : State) (v : Word) : (s.respond v).crcCalc = s.crcCalc := (rfl)
@[simp] theorem State.respond_crcRx (s : State) (v : Word) : (s.respond v).crcRx = s.crcRx := (rfl)
@[simp] theorem State.respond_crcValid (s : State) (v : Word) : (s.respond v).crcValid = s.crcValid := (rfl)
@[simp] theorem State.respond_cap (s : State) (v : Word) : (s.respond v).cap = s.cap := (rfl)
@[simp] theorem State.respond_bur (s : State) (v : Word) : (s.respond v).bur = s.bur := (rfl)
@[simp] theorem State.respond_sym (s : State) (v : Word) : (s.respond v).sym = s.sym := (rfl)
@[simp] theorem State.respond_glen (s : State) (v : Word) : (s.respond v).glen = s.glen := (rfl)
@[simp] theorem State.respond_raw (s : State) (v : Word) : (s.respond v).raw = s.raw := (rfl)
@[simp] theorem State.respond_dem (s : State) (v : Word) : (s.respond v).dem = s.dem := (rfl)
@[simp] theorem State.respond_dsc (s : State) (v : Word) : (s.respond v).dsc = s.dsc := (rfl)
@[simp] theorem State.respond_frm (s : State) (v : Word) : (s.respond v).frm = s.frm := (rfl)
@[simp] theorem State.respond_host (s : State) (v : Word) : (s.respond v).host = s.host := (rfl)
@[simp] theorem State.respond_busData (s : State) (v : Word) : (s.respond v).busData = v := (rfl)
@[simp] theorem State.respond_delay (s : State) (v : Word) : (s.respond v).delay = s.delay := (rfl)
@[simp] theorem State.respond_draws (s : State) (v : Word) : (s.respond v).draws = s.draws := (rfl)
@[simp] theorem State.respond_resets (s : State) (v : Word) : (s.respond v).resets = s.resets := (rfl)

/-! ### `State.respondFree` -/

@[simp] theorem State.respondFree_cmd (s : State) : (s.respondFree).cmd = s.cmd := (rfl)
@[simp] theorem State.respondFree_busy (s : State) : (s.respondFree).busy = s.busy := (rfl)
@[simp] theorem State.respondFree_done (s : State) : (s.respondFree).done = s.done := (rfl)
@[simp] theorem State.respondFree_ovr (s : State) : (s.respondFree).ovr = s.ovr := (rfl)
@[simp] theorem State.respondFree_res (s : State) : (s.respondFree).res = s.res := (rfl)
@[simp] theorem State.respondFree_ie (s : State) : (s.respondFree).ie = s.ie := (rfl)
@[simp] theorem State.respondFree_capLen (s : State) : (s.respondFree).capLen = s.capLen := (rfl)
@[simp] theorem State.respondFree_capRate (s : State) : (s.respondFree).capRate = s.capRate := (rfl)
@[simp] theorem State.respondFree_capFreqLo (s : State) : (s.respondFree).capFreqLo = s.capFreqLo := (rfl)
@[simp] theorem State.respondFree_capFreqHi (s : State) : (s.respondFree).capFreqHi = s.capFreqHi := (rfl)
@[simp] theorem State.respondFree_capTsLo (s : State) : (s.respondFree).capTsLo = s.capTsLo := (rfl)
@[simp] theorem State.respondFree_capTsHi (s : State) : (s.respondFree).capTsHi = s.capTsHi := (rfl)
@[simp] theorem State.respondFree_bdNfound (s : State) : (s.respondFree).bdNfound = s.bdNfound := (rfl)
@[simp] theorem State.respondFree_bdNcand (s : State) : (s.respondFree).bdNcand = s.bdNcand := (rfl)
@[simp] theorem State.respondFree_bdLastoff (s : State) : (s.respondFree).bdLastoff = s.bdLastoff := (rfl)
@[simp] theorem State.respondFree_cfoStart (s : State) : (s.respondFree).cfoStart = s.cfoStart := (rfl)
@[simp] theorem State.respondFree_cfoEnd (s : State) : (s.respondFree).cfoEnd = s.cfoEnd := (rfl)
@[simp] theorem State.respondFree_cfoOffset (s : State) : (s.respondFree).cfoOffset = s.cfoOffset := (rfl)
@[simp] theorem State.respondFree_cfoFound (s : State) : (s.respondFree).cfoFound = s.cfoFound := (rfl)
@[simp] theorem State.respondFree_cfoComputable (s : State) : (s.respondFree).cfoComputable = s.cfoComputable := (rfl)
@[simp] theorem State.respondFree_cand0 (s : State) : (s.respondFree).cand0 = s.cand0 := (rfl)
@[simp] theorem State.respondFree_cand1 (s : State) : (s.respondFree).cand1 = s.cand1 := (rfl)
@[simp] theorem State.respondFree_cand2 (s : State) : (s.respondFree).cand2 = s.cand2 := (rfl)
@[simp] theorem State.respondFree_burLen (s : State) : (s.respondFree).burLen = s.burLen := (rfl)
@[simp] theorem State.respondFree_sxNgrp (s : State) : (s.respondFree).sxNgrp = s.sxNgrp := (rfl)
@[simp] theorem State.respondFree_symCount (s : State) : (s.respondFree).symCount = s.symCount := (rfl)
@[simp] theorem State.respondFree_goldSeed (s : State) : (s.respondFree).goldSeed = s.goldSeed := (rfl)
@[simp] theorem State.respondFree_rawLen (s : State) : (s.respondFree).rawLen = s.rawLen := (rfl)
@[simp] theorem State.respondFree_demLen (s : State) : (s.respondFree).demLen = s.demLen := (rfl)
@[simp] theorem State.respondFree_dscLen (s : State) : (s.respondFree).dscLen = s.dscLen := (rfl)
@[simp] theorem State.respondFree_frmLen (s : State) : (s.respondFree).frmLen = s.frmLen := (rfl)
@[simp] theorem State.respondFree_pdHyp (s : State) : (s.respondFree).pdHyp = s.pdHyp := (rfl)
@[simp] theorem State.respondFree_pdOk (s : State) : (s.respondFree).pdOk = s.pdOk := (rfl)
@[simp] theorem State.respondFree_pdLenx (s : State) : (s.respondFree).pdLenx = s.pdLenx := (rfl)
@[simp] theorem State.respondFree_pdAtt (s : State) : (s.respondFree).pdAtt = s.pdAtt := (rfl)
@[simp] theorem State.respondFree_crcCalc (s : State) : (s.respondFree).crcCalc = s.crcCalc := (rfl)
@[simp] theorem State.respondFree_crcRx (s : State) : (s.respondFree).crcRx = s.crcRx := (rfl)
@[simp] theorem State.respondFree_crcValid (s : State) : (s.respondFree).crcValid = s.crcValid := (rfl)
@[simp] theorem State.respondFree_cap (s : State) : (s.respondFree).cap = s.cap := (rfl)
@[simp] theorem State.respondFree_bur (s : State) : (s.respondFree).bur = s.bur := (rfl)
@[simp] theorem State.respondFree_sym (s : State) : (s.respondFree).sym = s.sym := (rfl)
@[simp] theorem State.respondFree_glen (s : State) : (s.respondFree).glen = s.glen := (rfl)
@[simp] theorem State.respondFree_raw (s : State) : (s.respondFree).raw = s.raw := (rfl)
@[simp] theorem State.respondFree_dem (s : State) : (s.respondFree).dem = s.dem := (rfl)
@[simp] theorem State.respondFree_dsc (s : State) : (s.respondFree).dsc = s.dsc := (rfl)
@[simp] theorem State.respondFree_frm (s : State) : (s.respondFree).frm = s.frm := (rfl)
@[simp] theorem State.respondFree_host (s : State) : (s.respondFree).host = s.host := (rfl)
@[simp] theorem State.respondFree_busData (s : State) : (s.respondFree).busData = Config.busyRead s.draws := (rfl)
@[simp] theorem State.respondFree_delay (s : State) : (s.respondFree).delay = s.delay := (rfl)
@[simp] theorem State.respondFree_draws (s : State) : (s.respondFree).draws = s.draws + 1 := (rfl)
@[simp] theorem State.respondFree_resets (s : State) : (s.respondFree).resets = s.resets := (rfl)

/-! ### `State.respondOutside` -/

@[simp] theorem State.respondOutside_cmd (s : State) : (s.respondOutside).cmd = s.cmd := (rfl)
@[simp] theorem State.respondOutside_busy (s : State) : (s.respondOutside).busy = s.busy := (rfl)
@[simp] theorem State.respondOutside_done (s : State) : (s.respondOutside).done = s.done := (rfl)
@[simp] theorem State.respondOutside_ovr (s : State) : (s.respondOutside).ovr = s.ovr := (rfl)
@[simp] theorem State.respondOutside_res (s : State) : (s.respondOutside).res = s.res := (rfl)
@[simp] theorem State.respondOutside_ie (s : State) : (s.respondOutside).ie = s.ie := (rfl)
@[simp] theorem State.respondOutside_capLen (s : State) : (s.respondOutside).capLen = s.capLen := (rfl)
@[simp] theorem State.respondOutside_capRate (s : State) : (s.respondOutside).capRate = s.capRate := (rfl)
@[simp] theorem State.respondOutside_capFreqLo (s : State) : (s.respondOutside).capFreqLo = s.capFreqLo := (rfl)
@[simp] theorem State.respondOutside_capFreqHi (s : State) : (s.respondOutside).capFreqHi = s.capFreqHi := (rfl)
@[simp] theorem State.respondOutside_capTsLo (s : State) : (s.respondOutside).capTsLo = s.capTsLo := (rfl)
@[simp] theorem State.respondOutside_capTsHi (s : State) : (s.respondOutside).capTsHi = s.capTsHi := (rfl)
@[simp] theorem State.respondOutside_bdNfound (s : State) : (s.respondOutside).bdNfound = s.bdNfound := (rfl)
@[simp] theorem State.respondOutside_bdNcand (s : State) : (s.respondOutside).bdNcand = s.bdNcand := (rfl)
@[simp] theorem State.respondOutside_bdLastoff (s : State) : (s.respondOutside).bdLastoff = s.bdLastoff := (rfl)
@[simp] theorem State.respondOutside_cfoStart (s : State) : (s.respondOutside).cfoStart = s.cfoStart := (rfl)
@[simp] theorem State.respondOutside_cfoEnd (s : State) : (s.respondOutside).cfoEnd = s.cfoEnd := (rfl)
@[simp] theorem State.respondOutside_cfoOffset (s : State) : (s.respondOutside).cfoOffset = s.cfoOffset := (rfl)
@[simp] theorem State.respondOutside_cfoFound (s : State) : (s.respondOutside).cfoFound = s.cfoFound := (rfl)
@[simp] theorem State.respondOutside_cfoComputable (s : State) : (s.respondOutside).cfoComputable = s.cfoComputable := (rfl)
@[simp] theorem State.respondOutside_cand0 (s : State) : (s.respondOutside).cand0 = s.cand0 := (rfl)
@[simp] theorem State.respondOutside_cand1 (s : State) : (s.respondOutside).cand1 = s.cand1 := (rfl)
@[simp] theorem State.respondOutside_cand2 (s : State) : (s.respondOutside).cand2 = s.cand2 := (rfl)
@[simp] theorem State.respondOutside_burLen (s : State) : (s.respondOutside).burLen = s.burLen := (rfl)
@[simp] theorem State.respondOutside_sxNgrp (s : State) : (s.respondOutside).sxNgrp = s.sxNgrp := (rfl)
@[simp] theorem State.respondOutside_symCount (s : State) : (s.respondOutside).symCount = s.symCount := (rfl)
@[simp] theorem State.respondOutside_goldSeed (s : State) : (s.respondOutside).goldSeed = s.goldSeed := (rfl)
@[simp] theorem State.respondOutside_rawLen (s : State) : (s.respondOutside).rawLen = s.rawLen := (rfl)
@[simp] theorem State.respondOutside_demLen (s : State) : (s.respondOutside).demLen = s.demLen := (rfl)
@[simp] theorem State.respondOutside_dscLen (s : State) : (s.respondOutside).dscLen = s.dscLen := (rfl)
@[simp] theorem State.respondOutside_frmLen (s : State) : (s.respondOutside).frmLen = s.frmLen := (rfl)
@[simp] theorem State.respondOutside_pdHyp (s : State) : (s.respondOutside).pdHyp = s.pdHyp := (rfl)
@[simp] theorem State.respondOutside_pdOk (s : State) : (s.respondOutside).pdOk = s.pdOk := (rfl)
@[simp] theorem State.respondOutside_pdLenx (s : State) : (s.respondOutside).pdLenx = s.pdLenx := (rfl)
@[simp] theorem State.respondOutside_pdAtt (s : State) : (s.respondOutside).pdAtt = s.pdAtt := (rfl)
@[simp] theorem State.respondOutside_crcCalc (s : State) : (s.respondOutside).crcCalc = s.crcCalc := (rfl)
@[simp] theorem State.respondOutside_crcRx (s : State) : (s.respondOutside).crcRx = s.crcRx := (rfl)
@[simp] theorem State.respondOutside_crcValid (s : State) : (s.respondOutside).crcValid = s.crcValid := (rfl)
@[simp] theorem State.respondOutside_cap (s : State) : (s.respondOutside).cap = s.cap := (rfl)
@[simp] theorem State.respondOutside_bur (s : State) : (s.respondOutside).bur = s.bur := (rfl)
@[simp] theorem State.respondOutside_sym (s : State) : (s.respondOutside).sym = s.sym := (rfl)
@[simp] theorem State.respondOutside_glen (s : State) : (s.respondOutside).glen = s.glen := (rfl)
@[simp] theorem State.respondOutside_raw (s : State) : (s.respondOutside).raw = s.raw := (rfl)
@[simp] theorem State.respondOutside_dem (s : State) : (s.respondOutside).dem = s.dem := (rfl)
@[simp] theorem State.respondOutside_dsc (s : State) : (s.respondOutside).dsc = s.dsc := (rfl)
@[simp] theorem State.respondOutside_frm (s : State) : (s.respondOutside).frm = s.frm := (rfl)
@[simp] theorem State.respondOutside_host (s : State) : (s.respondOutside).host = s.host := (rfl)
@[simp] theorem State.respondOutside_busData (s : State) : (s.respondOutside).busData = Config.outsideRead s.draws := (rfl)
@[simp] theorem State.respondOutside_delay (s : State) : (s.respondOutside).delay = s.delay := (rfl)
@[simp] theorem State.respondOutside_draws (s : State) : (s.respondOutside).draws = s.draws + 1 := (rfl)
@[simp] theorem State.respondOutside_resets (s : State) : (s.respondOutside).resets = s.resets := (rfl)

end Sys2Proof.Machine
end

