-- ==== Sys2Proof/Laws/Ops.lean ====
section
/-! SUPPORT. What the shared operations do: reading a space after each of them, and which registers each leaves alone.
The provers cite these instead of unfolding an operation. -/

namespace Sys2Proof.Machine

/-! ### Reading depends on the contents of a space and on the reset count only -/

theorem State.byte_eq_of_mem {s t : State} {sp : Space} (hm : t.mem sp = s.mem sp) (hr : t.resets = s.resets) (a : Nat) :
    t.byte sp a = s.byte sp a := by simp [State.byte, hm, hr]

theorem State.word_eq_of_mem {s t : State} {sp : Space} (hm : t.mem sp = s.mem sp) (hr : t.resets = s.resets) (w : Nat) :
    t.word sp w = s.word sp w := by simp [State.word, hm, hr]

theorem State.bit_eq_of_mem {s t : State} {sp : Space} (hm : t.mem sp = s.mem sp) (hr : t.resets = s.resets) (i : Nat) :
    t.bit sp i = s.bit sp i := by simp [State.bit, hm, hr]

/-- A word is made of its four bytes. -/
theorem State.word_eq_of_bytes {s t : State} {sp : Space} {w : Nat}
    (h : ∀ k, k < 4 → t.byte sp (4 * w + k) = s.byte sp (4 * w + k)) : t.word sp w = s.word sp w :=
  Memory.word_congr h

/-- A bit is a bit of its byte. -/
theorem State.bit_eq_of_byte {s t : State} {sp : Space} {i : Nat} (h : t.byte sp (i / 8) = s.byte sp (i / 8)) :
    t.bit sp i = s.bit sp i := congrArg (fun b : Byte => b.getLsbD (i % 8)) h

theorem State.sample_eq_of_mem {s t : State} {sp : Space} (hm : t.mem sp = s.mem sp) (hr : t.resets = s.resets)
    (i : Nat) : t.sample sp i = s.sample sp i := by
  simp [State.sample, State.word_eq_of_mem hm hr]

theorem State.samples_eq_of_mem {s t : State} {sp : Space} (hm : t.mem sp = s.mem sp) (hr : t.resets = s.resets)
    (a b : Nat) : t.samples sp a b = s.samples sp a b := by
  simp only [State.samples]; congr 1; funext i; exact State.sample_eq_of_mem hm hr i

theorem State.bits_eq_of_mem {s t : State} {sp : Space} (hm : t.mem sp = s.mem sp) (hr : t.resets = s.resets)
    (a b : Nat) : t.bits sp a b = s.bits sp a b := by
  simp only [State.bits]; congr 1; funext i; exact State.bit_eq_of_mem hm hr i

theorem State.bytes_eq_of_mem {s t : State} {sp : Space} (hm : t.mem sp = s.mem sp) (hr : t.resets = s.resets)
    (a b : Nat) : t.bytes sp a b = s.bytes sp a b := by
  simp only [State.bytes]; congr 1; funext i; exact State.byte_eq_of_mem hm hr i

/-- A register is a function of the register fields. -/
@[simp] theorem State.reg_complete (s : State) (c : ResultCode) {r : Reg} (h : r ≠ .status) :
    (s.complete c).reg r = s.reg r := by
  cases r <;> first | rfl | exact absurd rfl h

/-- The flags in `STATUS` (R24). -/
theorem statusWord_bits (s : State) : (statusWord s).getLsbD 0 = s.busy ∧ (statusWord s).getLsbD 1 = s.done ∧
    (statusWord s).getLsbD 2 = s.ovr ∧ (statusWord s).getLsbD 3 = false ∧ (statusWord s).extractLsb' 4 4 = s.res.bits := by
  unfold statusWord
  generalize s.res.bits = r
  generalize s.busy = b
  generalize s.done = d
  generalize s.ovr = o
  revert r b d o
  decide

/-- `CTRL` holds the enable bit and nothing else (R25). -/
theorem ctrlWord_bit (s : State) : (ctrlWord s).getLsbD 0 = s.ie := by
  unfold ctrlWord; cases s.ie <;> decide

theorem ctrlWord_eq_and (v : Word) : 0#31 ++ BitVec.ofBool (v.getLsbD 0) = v &&& 1#32 := by
  apply BitVec.eq_of_getLsbD_eq
  intro i _
  rw [BitVec.getLsbD_append, BitVec.getLsbD_and]
  cases i with
  | zero => simp
  | succ i => simp [BitVec.getLsbD_one]

/-! ### Frames compose -/

theorem KeepsRegs.refl (l : List Reg) (s : State) : KeepsRegs l s s := fun _ _ => rfl

theorem KeepsRegs.trans {l : List Reg} {s t u : State} (h : KeepsRegs l s t) (h' : KeepsRegs l t u) :
    KeepsRegs l s u := fun r hr => (h' r hr).trans (h r hr)

theorem KeepsRegs.mono {l l' : List Reg} {s t : State} (h : KeepsRegs l s t) (hl : ∀ r ∈ l, r ∈ l') :
    KeepsRegs l' s t := fun r hr => h r fun hm => hr (hl r hm)

theorem KeepsBytes.refl (l : List Space) (s : State) : KeepsBytes l s s := fun _ _ _ => rfl

theorem KeepsBytes.trans {l : List Space} {s t u : State} (h : KeepsBytes l s t) (h' : KeepsBytes l t u) :
    KeepsBytes l s u := fun sp a hs => (h' sp a hs).trans (h sp a hs)

theorem KeepsBytes.mono {l l' : List Space} {s t : State} (h : KeepsBytes l s t) (hl : ∀ sp ∈ l, sp ∈ l') :
    KeepsBytes l' s t := fun sp a hs => h sp a fun hm => hs (hl sp hm)

theorem keepsBytes_of_mem {l : List Space} {s t : State} (hm : ∀ sp, sp ∉ l → t.mem sp = s.mem sp)
    (hr : t.resets = s.resets) : KeepsBytes l s t := fun sp a hs => State.byte_eq_of_mem (hm sp hs) hr a

/-! ### Completion -/

theorem keepsRegs_complete (s : State) (c : ResultCode) : KeepsRegs [.status] s (s.complete c) := fun _ hr =>
  State.reg_complete s c fun h => hr (h ▸ List.mem_singleton_self _)

theorem keepsBytes_complete (l : List Space) (s : State) (c : ResultCode) : KeepsBytes l s (s.complete c) :=
  keepsBytes_of_mem (fun sp _ => State.mem_complete s c sp) rfl

/-- Completing after a change that touches registers `regs` and spaces `spaces`. -/
theorem completesKeeping_complete {regs : List Reg} {spaces : List Space} {s u : State} (c : ResultCode)
    (hr : KeepsRegs regs s u) (hb : KeepsBytes spaces s u) (ho : u.ovr = s.ovr) (hp : KeepsPort s u) :
    CompletesKeeping c regs spaces s (u.complete c) :=
  ⟨⟨rfl, rfl, rfl, ho⟩,
   (hr.mono fun _ h => List.mem_cons_of_mem _ h).trans
     ((keepsRegs_complete u c).mono fun _ h => by rw [List.mem_singleton.1 h]; exact List.mem_cons_self),
   hb.trans (keepsBytes_complete spaces u c), hp⟩

theorem KeepsPort.refl (s : State) : KeepsPort s s := ⟨rfl, rfl, rfl, rfl, rfl⟩

theorem KeepsPort.trans {s t u : State} (h : KeepsPort s t) (h' : KeepsPort t u) : KeepsPort s u :=
  ⟨h'.1.trans h.1, h'.2.1.trans h.2.1, h'.2.2.1.trans h.2.2.1, h'.2.2.2.1.trans h.2.2.2.1,
   h'.2.2.2.2.trans h.2.2.2.2⟩

/-! ### What each store leaves alone -/

theorem State.reg_setMem (s : State) (sp : Space) (m : Memory) (r : Reg) : (s.setMem sp m).reg r = s.reg r := by
  cases r <;> simp [State.reg, statusWord, ctrlWord, cfoStatWord, pdStatWord, crcStatWord]

theorem keepsRegs_setMem (s : State) (sp : Space) (m : Memory) : KeepsRegs [] s (s.setMem sp m) := fun r _ =>
  State.reg_setMem s sp m r

theorem keepsRegs_storeRaw (bits : List Bool) (h : BitVec 2) (s : State) :
    KeepsRegs [.rawLen, .pdStat] s (storeRaw bits h s) := fun r hr => by
  cases r <;> first
    | exact absurd hr (by decide)
    | simp [State.reg, statusWord, ctrlWord, cfoStatWord, crcStatWord]

theorem keepsRegs_storeDem (bits : List Bool) (s : State) :
    KeepsRegs [.demLen, .pdStat] s (storeDem bits s) := fun r hr => by
  cases r <;> first
    | exact absurd hr (by decide)
    | simp [State.reg, statusWord, ctrlWord, cfoStatWord, crcStatWord]

theorem keepsRegs_storeDsc (bits : List Bool) (s : State) :
    KeepsRegs [.dscLen] s (storeDsc bits s) := fun r hr => by
  cases r <;> first
    | exact absurd hr (by decide)
    | simp [State.reg, statusWord, ctrlWord, cfoStatWord, pdStatWord, crcStatWord]

theorem keepsRegs_storeFrm (bytes : List Byte) (s : State) :
    KeepsRegs [.frmLen, .crcCalc, .crcRx, .crcStat] s (storeFrm bytes s) := fun r hr => by
  cases r <;> first
    | exact absurd hr (by decide)
    | simp [State.reg, statusWord, ctrlWord, cfoStatWord, pdStatWord]

theorem keepsRegs_storeVerdict (ok : Bool) (s : State) :
    KeepsRegs [.pdStat] s (storeVerdict ok s) := fun r hr => by
  cases r <;> first
    | exact absurd hr (by decide)
    | simp [State.reg, statusWord, ctrlWord, cfoStatWord, crcStatWord]

theorem keepsRegs_storeAttempts (n : Nat) (s : State) :
    KeepsRegs [.pdStat] s (storeAttempts n s) := fun r hr => by
  cases r <;> first
    | exact absurd hr (by decide)
    | simp [State.reg, statusWord, ctrlWord, cfoStatWord, crcStatWord]

theorem keepsRegs_storeCrc (sum rx : BitVec 16) (s : State) :
    KeepsRegs [.crcCalc, .crcRx, .crcStat] s (storeCrc sum rx s) := fun r hr => by
  cases r <;> first
    | exact absurd hr (by decide)
    | simp [State.reg, statusWord, ctrlWord, cfoStatWord, pdStatWord]

theorem keepsRegs_storeCounts (groups points : Nat) (s : State) :
    KeepsRegs [.sxNgrp, .symCount] s (storeCounts groups points s) := fun r hr => by
  cases r <;> first
    | exact absurd hr (by decide)
    | simp [State.reg, statusWord, ctrlWord, cfoStatWord, pdStatWord, crcStatWord]

theorem keepsRegs_storeCfo (offset : Word) (found computable : Bool) (s : State) :
    KeepsRegs [.cfoOffset, .cfoStat] s (storeCfo offset found computable s) := fun r hr => by
  cases r <;> first
    | exact absurd hr (by decide)
    | simp [State.reg, statusWord, ctrlWord, pdStatWord, crcStatWord]

theorem keepsRegs_storeCandidates (n : Nat) (lastoff : Word) (out : List Cand) (s : State) :
    KeepsRegs ([.bdNfound, .bdNcand, .bdLastoff] ++ candWords.map .cand0 ++ candWords.map .cand1
      ++ candWords.map .cand2) s (storeCandidates n lastoff out s) := fun r hr => by
  cases r with
  | cand0 f => cases f <;> exact absurd (by decide) hr
  | cand1 f => cases f <;> exact absurd (by decide) hr
  | cand2 f => cases f <;> exact absurd (by decide) hr
  | _ => first
    | exact absurd (by decide) hr
    | simp [State.reg, statusWord, ctrlWord, cfoStatWord, pdStatWord, crcStatWord]

theorem keepsBytes_setMem (s : State) (sp : Space) (m : Memory) : KeepsBytes [sp] s (s.setMem sp m) :=
  keepsBytes_of_mem (fun _ h => State.mem_setMem_ne s (by simpa using h) m) (State.setMem_resets s sp m)

theorem keepsBytes_putBits (s : State) (sp : Space) (bits : List Bool) : KeepsBytes [sp] s (s.putBits sp bits) :=
  keepsBytes_setMem s sp _

theorem keepsBytes_storeRaw (bits : List Bool) (h : BitVec 2) (s : State) : KeepsBytes [.raw] s (storeRaw bits h s) :=
  fun sp a hs => (State.byte_eq_of_mem (t := storeRaw bits h s) (s := s.putBits .raw bits)
    (storeRaw_mem bits h s sp) (by simp) a).trans (keepsBytes_putBits s .raw bits sp a hs)

theorem keepsBytes_storeDem (bits : List Bool) (s : State) : KeepsBytes [.dem] s (storeDem bits s) :=
  fun sp a hs => (State.byte_eq_of_mem (t := storeDem bits s) (s := s.putBits .dem bits)
    (storeDem_mem bits s sp) (by simp) a).trans (keepsBytes_putBits s .dem bits sp a hs)

theorem keepsBytes_storeDsc (bits : List Bool) (s : State) : KeepsBytes [.dsc] s (storeDsc bits s) :=
  fun sp a hs => (State.byte_eq_of_mem (t := storeDsc bits s) (s := s.putBits .dsc bits)
    (storeDsc_mem bits s sp) (by simp) a).trans (keepsBytes_putBits s .dsc bits sp a hs)

theorem keepsBytes_storeFrm (bytes : List Byte) (s : State) : KeepsBytes [.frm] s (storeFrm bytes s) :=
  fun sp a hs => (State.byte_eq_of_mem (t := storeFrm bytes s) (s := s.putBytes .frm bytes)
    (storeFrm_mem bytes s sp) (by simp) a).trans (keepsBytes_setMem s .frm _ sp a hs)

/-! ### Capacities -/

@[simp] theorem capacityBits_raw : capacityBits .raw = 2 * Config.symDepth := by simp [capacityBits, bitDepth]
@[simp] theorem capacityBits_dem : capacityBits .dem = 2 * Config.symDepth := by simp [capacityBits, bitDepth]
@[simp] theorem capacityBits_dsc : capacityBits .dsc = 2 * Config.symDepth := by simp [capacityBits, bitDepth]
@[simp] theorem capacityBits_sym : capacityBits .sym = 64 * Config.symDepth := by simp [capacityBits]
@[simp] theorem capacityBits_glen : capacityBits .glen = 32 * Config.maxGroups := by simp [capacityBits]
@[simp] theorem capacityBits_frm : capacityBits .frm = 8 * (2 * Config.symDepth / 8) := by simp [capacityBits, bitDepth, frmDepth]

theorem capDepth_bounds : 1 ≤ Config.capDepth ∧ Config.capDepth < 2 ^ 32 := by
  have := Config.capDepthExtra.isLt; unfold Config.capDepth; omega

theorem burDepth_bounds : 1 ≤ Config.burDepth ∧ Config.burDepth < 2 ^ 32 := by
  have := Config.burDepthExtra.isLt; unfold Config.burDepth; omega

theorem symDepth_bounds : 706 ≤ Config.symDepth ∧ Config.symDepth < 2 ^ 31 := by
  have := Config.symDepthExtra.isLt; unfold Config.symDepth; omega

theorem maxGroups_bounds : 1 ≤ Config.maxGroups ∧ Config.maxGroups < 2 ^ 32 := by
  have := Config.maxGroupsExtra.isLt; unfold Config.maxGroups; omega

/-! ### Sequences read from a space -/

@[simp] theorem indices_length (a b : Nat) : (indices a b).length = b - a := by simp [indices]

theorem indices_getElem? {a b k : Nat} (h : a + k < b) : (indices a b)[k]? = some (a + k) := by
  rw [indices, List.getElem?_range' (by omega), Nat.one_mul]

@[simp] theorem State.samples_length (s : State) (sp : Space) (a b : Nat) : (s.samples sp a b).length = b - a := by
  simp [State.samples]

@[simp] theorem State.bits_length (s : State) (sp : Space) (a b : Nat) : (s.bits sp a b).length = b - a := by
  simp [State.bits]

@[simp] theorem State.bytes_length (s : State) (sp : Space) (a b : Nat) : (s.bytes sp a b).length = b - a := by
  simp [State.bytes]

theorem State.samples_getElem? (s : State) (sp : Space) {a b k : Nat} (h : a + k < b) :
    (s.samples sp a b)[k]? = some (s.sample sp (a + k)) := by
  rw [State.samples, List.getElem?_map, indices_getElem? h]; rfl

theorem State.bits_getElem? (s : State) (sp : Space) {a b k : Nat} (h : a + k < b) :
    (s.bits sp a b)[k]? = some (s.bit sp (a + k)) := by
  rw [State.bits, List.getElem?_map, indices_getElem? h]; rfl

theorem State.bytes_getElem? (s : State) (sp : Space) {a b k : Nat} (h : a + k < b) :
    (s.bytes sp a b)[k]? = some (s.byte sp (a + k)) := by
  rw [State.bytes, List.getElem?_map, indices_getElem? h]; rfl

/-! ### Reading a bit space after a stream was stored in it -/

theorem State.bit_putBits_inside {s : State} {sp : Space} {bits : List Bool} {k : Nat} {v : Bool}
    (hc : bits.length ≤ capacityBits sp) (hk : bits[k]? = some v) : (s.putBits sp bits).bit sp k = v := by
  have := Memory.bit_putBits_inside (sp := sp) (ep := s.resets) (m := s.mem sp) (i := 0) (by omega) hk
  simpa [State.bit, State.mem_putBits] using this

theorem State.bit_putBits_outside {s : State} {sp : Space} {bits : List Bool} {k : Nat}
    (hc : bits.length ≤ capacityBits sp) (hk : bits.length ≤ k) : (s.putBits sp bits).bit sp k = s.bit sp k := by
  have := Memory.bit_putBits_outside (sp := sp) (ep := s.resets) (m := s.mem sp) (i := 0) (vs := bits) (x := k)
    (by omega) (by omega)
  simpa [State.bit, State.mem_putBits] using this

theorem State.byte_putBits_outside {s : State} {sp : Space} {bits : List Bool} {a : Nat} (h : bits.length ≤ 8 * a) :
    (s.putBits sp bits).byte sp a = s.byte sp a := by
  have := Memory.byte_putBits_outside (sp := sp) (ep := s.resets) (m := s.mem sp) (i := 0) (vs := bits) (x := a)
    (by omega)
  simpa [State.byte, State.mem_putBits] using this

theorem State.byte_putBytes_inside {s : State} {sp : Space} {bytes : List Byte} {k : Nat} {b : Byte}
    (hc : 8 * bytes.length ≤ capacityBits sp) (hk : bytes[k]? = some b) : (s.putBytes sp bytes).byte sp k = b := by
  have := Memory.byte_putBytes_inside (sp := sp) (m := s.mem sp) (a := 0) s.resets (by omega) hk
  simpa [State.byte, State.mem_putBytes] using this

theorem State.byte_putBytes_outside {s : State} {sp : Space} {bytes : List Byte} {k : Nat} (hk : bytes.length ≤ k) :
    (s.putBytes sp bytes).byte sp k = s.byte sp k := by
  have := Memory.byte_putBytes_outside (sp := sp) (m := s.mem sp) (a := 0) (bs := bytes) (x := k) s.resets (by omega)
  simpa [State.byte, State.mem_putBytes] using this

/-! ### Packing -/

theorem packBits_length (bits : List Bool) : (packBits bits).length = bits.length / 8 := by
  fun_induction packBits bits with
  | case1 b0 b1 b2 b3 b4 b5 b6 b7 rest ih => simp [ih]; omega
  | case2 bits h =>
    simp only [List.length_nil]
    symm
    apply Nat.div_eq_of_lt
    match bits, h with
    | [], _ => simp
    | [_], _ => simp
    | [_, _], _ => simp
    | [_, _, _], _ => simp
    | [_, _, _, _], _ => simp
    | [_, _, _, _, _], _ => simp
    | [_, _, _, _, _, _], _ => simp
    | [_, _, _, _, _, _, _], _ => simp
    | b0 :: b1 :: b2 :: b3 :: b4 :: b5 :: b6 :: b7 :: rest, h => exact absurd rfl (h b0 b1 b2 b3 b4 b5 b6 b7 rest)

/-- Byte `j` of a packed stream is made of the stream's elements `8j` to `8j + 7`. -/
theorem packBits_getElem? (f : Nat → Bool) (n : Nat) : ∀ (bits : List Bool) (j : Nat), 8 * j + 8 ≤ bits.length →
    (∀ k, k < bits.length → bits[k]? = some (f (n + k))) →
    (packBits bits)[j]? = some (packByte (f (n + 8 * j)) (f (n + 8 * j + 1)) (f (n + 8 * j + 2)) (f (n + 8 * j + 3))
      (f (n + 8 * j + 4)) (f (n + 8 * j + 5)) (f (n + 8 * j + 6)) (f (n + 8 * j + 7))) := by
  intro bits
  fun_induction packBits bits generalizing n with
  | case1 b0 b1 b2 b3 b4 b5 b6 b7 rest ih =>
    intro j hj hf
    cases j with
    | zero =>
      have h0 := hf 0 (by simp)
      have h1 := hf 1 (by simp)
      have h2 := hf 2 (by simp)
      have h3 := hf 3 (by simp)
      have h4 := hf 4 (by simp)
      have h5 := hf 5 (by simp)
      have h6 := hf 6 (by simp)
      have h7 := hf 7 (by simp)
      simp at h0 h1 h2 h3 h4 h5 h6 h7
      simp [h0, h1, h2, h3, h4, h5, h6, h7]
    | succ j =>
      have hrest := ih (n + 8) j (by simp at hj; omega) (fun k hk => by
        have := hf (k + 8) (by simp; omega)
        simpa [Nat.add_assoc, Nat.add_comm 8 k] using this)
      rw [List.getElem?_cons_succ, hrest]
      simp only [show n + 8 + 8 * j = n + 8 * (j + 1) by omega]
  | case2 bits h =>
    intro j hj _
    match bits, h with
    | [], _ => simp at hj
    | [_], _ => simp at hj
    | [_, _], _ => simp at hj
    | [_, _, _], _ => simp at hj
    | [_, _, _, _], _ => simp at hj
    | [_, _, _, _, _], _ => simp at hj
    | [_, _, _, _, _, _], _ => simp at hj
    | [_, _, _, _, _, _, _], _ => simp at hj
    | b0 :: b1 :: b2 :: b3 :: b4 :: b5 :: b6 :: b7 :: rest, h => exact absurd rfl (h b0 b1 b2 b3 b4 b5 b6 b7 rest)

/-- The value of a packed byte (R154). -/
theorem packByte_toNat (b0 b1 b2 b3 b4 b5 b6 b7 : Bool) :
    (packByte b0 b1 b2 b3 b4 b5 b6 b7).toNat = b0.toNat * 128 + b1.toNat * 64 + b2.toNat * 32 + b3.toNat * 16
      + b4.toNat * 8 + b5.toNat * 4 + b6.toNat * 2 + b7.toNat := by
  revert b0 b1 b2 b3 b4 b5 b6 b7; decide

/-! ### The streams the decoder steps store -/

@[simp] theorem mappedBits_length (lut : BitVec 2 → BitVec 2 → BitVec 2) (h : BitVec 2) (s : State) :
    (mappedBits lut h s).length = 2 * s.symCount.toNat := by
  simp [mappedBits, List.length_flatMap, pointBits, List.map_const', Nat.mul_comm]

@[simp] theorem dematchedBits_length (dummy : Nat → Nat → Nat → Bool) (s : State) :
    (dematchedBits dummy s).length = (dematchPerm dummy s.rawLen.toNat).length := by
  simp [dematchedBits]

theorem goldBits_length (poly : GoldPoly) (r1 r2 : BitVec 31) (n : Nat) : (goldBits poly r1 r2 n).length = n := by
  induction n generalizing r1 r2 with
  | zero => rfl
  | succ n ih => simp [goldBits, ih]

@[simp] theorem descrambledBits_length (poly : GoldPoly) (s : State) :
    (descrambledBits poly s).length = s.demLen.toNat := by
  simp [descrambledBits, gold, goldBits_length]

/-! ### The decoder steps -/

theorem keepsRegs_mapBits (lut : BitVec 2 → BitVec 2 → BitVec 2) (h : BitVec 2) (s : State) :
    KeepsRegs [.rawLen, .pdStat] s (mapBits lut h s) := keepsRegs_storeRaw _ h s

theorem keepsRegs_dematch (dummy : Nat → Nat → Nat → Bool) (s : State) :
    KeepsRegs [.demLen, .pdStat] s (dematch dummy s) := keepsRegs_storeDem _ s

theorem keepsRegs_descramble (poly : GoldPoly) (s : State) : KeepsRegs [.dscLen] s (descramble poly s) :=
  keepsRegs_storeDsc _ s

theorem keepsRegs_packFrame (s : State) : KeepsRegs [.frmLen, .crcCalc, .crcRx, .crcStat] s (packFrame s) :=
  keepsRegs_storeFrm _ s

theorem keepsRegs_packBytes (struct : List Byte → Bool) (s : State) :
    KeepsRegs [.frmLen, .pdStat, .crcCalc, .crcRx, .crcStat] s (packBytes struct s) :=
  ((keepsRegs_packFrame s).mono (by decide)).trans
    ((keepsRegs_storeVerdict (frameOk struct (packFrame s)) (packFrame s)).mono (by decide))

theorem keepsRegs_attempt (p : DecoderParams) (h : BitVec 2) (s : State) :
    KeepsRegs [.rawLen, .demLen, .dscLen, .frmLen, .pdStat, .crcCalc, .crcRx, .crcStat] s (attempt p h s) :=
  ((keepsRegs_mapBits p.lut h s).mono (by decide)).trans
    (((keepsRegs_dematch p.dummy _).mono (by decide)).trans
      (((keepsRegs_descramble p.poly _).mono (by decide)).trans ((keepsRegs_packBytes p.struct _).mono (by decide))))

theorem keepsRegs_checkCrc (s : State) : KeepsRegs [.crcCalc, .crcRx, .crcStat] s (checkCrc s) :=
  keepsRegs_storeCrc _ _ s

theorem keepsBytes_mapBits (lut : BitVec 2 → BitVec 2 → BitVec 2) (h : BitVec 2) (s : State) :
    KeepsBytes [.raw] s (mapBits lut h s) := keepsBytes_storeRaw _ h s

theorem keepsBytes_dematch (dummy : Nat → Nat → Nat → Bool) (s : State) :
    KeepsBytes [.dem] s (dematch dummy s) := keepsBytes_storeDem _ s

theorem keepsBytes_descramble (poly : GoldPoly) (s : State) : KeepsBytes [.dsc] s (descramble poly s) :=
  keepsBytes_storeDsc _ s

theorem keepsBytes_packFrame (s : State) : KeepsBytes [.frm] s (packFrame s) := keepsBytes_storeFrm _ s

/-- A store that writes registers only. -/
theorem keepsBytes_storeVerdict (l : List Space) (ok : Bool) (s : State) : KeepsBytes l s (storeVerdict ok s) :=
  keepsBytes_of_mem (fun sp _ => by cases sp <;> rfl) rfl

theorem keepsBytes_storeAttempts (l : List Space) (n : Nat) (s : State) : KeepsBytes l s (storeAttempts n s) :=
  keepsBytes_of_mem (fun sp _ => by cases sp <;> rfl) rfl

theorem keepsBytes_storeCrc (l : List Space) (sum rx : BitVec 16) (s : State) : KeepsBytes l s (storeCrc sum rx s) :=
  keepsBytes_of_mem (fun sp _ => by cases sp <;> rfl) rfl

theorem keepsBytes_storeCounts (l : List Space) (groups points : Nat) (s : State) :
    KeepsBytes l s (storeCounts groups points s) := keepsBytes_of_mem (fun sp _ => by cases sp <;> rfl) rfl

theorem keepsBytes_storeCfo (l : List Space) (offset : Word) (found computable : Bool) (s : State) :
    KeepsBytes l s (storeCfo offset found computable s) := keepsBytes_of_mem (fun sp _ => by cases sp <;> rfl) rfl

theorem keepsBytes_storeCandidates (l : List Space) (n : Nat) (lastoff : Word) (out : List Cand) (s : State) :
    KeepsBytes l s (storeCandidates n lastoff out s) := keepsBytes_of_mem (fun sp _ => by cases sp <;> rfl) rfl

theorem keepsBytes_packBytes (struct : List Byte → Bool) (s : State) : KeepsBytes [.frm] s (packBytes struct s) :=
  (keepsBytes_packFrame s).trans (keepsBytes_storeVerdict _ (frameOk struct (packFrame s)) (packFrame s))

theorem keepsBytes_attempt (p : DecoderParams) (h : BitVec 2) (s : State) :
    KeepsBytes [.raw, .dem, .dsc, .frm] s (attempt p h s) :=
  ((keepsBytes_mapBits p.lut h s).mono (by decide)).trans
    (((keepsBytes_dematch p.dummy _).mono (by decide)).trans
      (((keepsBytes_descramble p.poly _).mono (by decide)).trans
        ((keepsBytes_packBytes p.struct _).mono (by decide))))

theorem keepsBytes_checkCrc (l : List Space) (s : State) : KeepsBytes l s (checkCrc s) := keepsBytes_storeCrc l _ _ s

/-! ### The model's own fields, and `OVR` -/

theorem keepsPort_storeRaw (bits : List Bool) (h : BitVec 2) (s : State) : KeepsPort s (storeRaw bits h s) :=
  ⟨storeRaw_host bits h s, storeRaw_busData bits h s, storeRaw_delay bits h s, storeRaw_draws bits h s,
   storeRaw_resets bits h s⟩

theorem keepsPort_storeDem (bits : List Bool) (s : State) : KeepsPort s (storeDem bits s) :=
  ⟨storeDem_host bits s, storeDem_busData bits s, storeDem_delay bits s, storeDem_draws bits s,
   storeDem_resets bits s⟩

theorem keepsPort_storeDsc (bits : List Bool) (s : State) : KeepsPort s (storeDsc bits s) :=
  ⟨storeDsc_host bits s, storeDsc_busData bits s, storeDsc_delay bits s, storeDsc_draws bits s,
   storeDsc_resets bits s⟩

theorem keepsPort_storeFrm (bytes : List Byte) (s : State) : KeepsPort s (storeFrm bytes s) :=
  ⟨storeFrm_host bytes s, storeFrm_busData bytes s, storeFrm_delay bytes s, storeFrm_draws bytes s,
   storeFrm_resets bytes s⟩

theorem keepsPort_storeVerdict (ok : Bool) (s : State) : KeepsPort s (storeVerdict ok s) := ⟨rfl, rfl, rfl, rfl, rfl⟩

theorem keepsPort_storeAttempts (n : Nat) (s : State) : KeepsPort s (storeAttempts n s) := ⟨rfl, rfl, rfl, rfl, rfl⟩

theorem keepsPort_storeCrc (sum rx : BitVec 16) (s : State) : KeepsPort s (storeCrc sum rx s) :=
  ⟨rfl, rfl, rfl, rfl, rfl⟩

theorem keepsPort_storeCounts (groups points : Nat) (s : State) : KeepsPort s (storeCounts groups points s) :=
  ⟨rfl, rfl, rfl, rfl, rfl⟩

theorem keepsPort_storeCfo (offset : Word) (found computable : Bool) (s : State) :
    KeepsPort s (storeCfo offset found computable s) := ⟨rfl, rfl, rfl, rfl, rfl⟩

theorem keepsPort_storeCandidates (n : Nat) (lastoff : Word) (out : List Cand) (s : State) :
    KeepsPort s (storeCandidates n lastoff out s) := ⟨rfl, rfl, rfl, rfl, rfl⟩

theorem keepsPort_attempt (p : DecoderParams) (h : BitVec 2) (s : State) : KeepsPort s (attempt p h s) :=
  (keepsPort_storeRaw _ h s).trans ((keepsPort_storeDem _ _).trans ((keepsPort_storeDsc _ _).trans
    ((keepsPort_storeFrm _ _).trans (keepsPort_storeVerdict _ _))))

@[simp] theorem attempt_cmd (p : DecoderParams) (h : BitVec 2) (s : State) : (attempt p h s).cmd = s.cmd := by simp [attempt]
@[simp] theorem attempt_ovr (p : DecoderParams) (h : BitVec 2) (s : State) : (attempt p h s).ovr = s.ovr := by simp [attempt]
@[simp] theorem attempt_symCount (p : DecoderParams) (h : BitVec 2) (s : State) : (attempt p h s).symCount = s.symCount := by simp [attempt]
@[simp] theorem attempt_goldSeed (p : DecoderParams) (h : BitVec 2) (s : State) : (attempt p h s).goldSeed = s.goldSeed := by simp [attempt]
@[simp] theorem attempt_pdHyp (p : DecoderParams) (h : BitVec 2) (s : State) : (attempt p h s).pdHyp = h := by simp [attempt]
@[simp] theorem attempt_rawLen (p : DecoderParams) (h : BitVec 2) (s : State) :
    (attempt p h s).rawLen = BitVec.ofNat 32 (2 * s.symCount.toNat) := by simp [attempt]
@[simp] theorem attempt_demLen (p : DecoderParams) (h : BitVec 2) (s : State) :
    (attempt p h s).demLen = BitVec.ofNat 32 (2 * s.symCount.toNat) := by simp [attempt]
@[simp] theorem attempt_dscLen (p : DecoderParams) (h : BitVec 2) (s : State) :
    (attempt p h s).dscLen = BitVec.ofNat 32 (2 * s.symCount.toNat) := by simp [attempt]
@[simp] theorem attempt_crcCalc (p : DecoderParams) (h : BitVec 2) (s : State) : (attempt p h s).crcCalc = 0#16 := by simp [attempt]
@[simp] theorem attempt_crcRx (p : DecoderParams) (h : BitVec 2) (s : State) : (attempt p h s).crcRx = 0#16 := by simp [attempt]
@[simp] theorem attempt_crcValid (p : DecoderParams) (h : BitVec 2) (s : State) : (attempt p h s).crcValid = false := by simp [attempt]

/-- When a packed buffer is structurally valid (R157). -/
theorem frameOk_iff (struct : List Byte → Bool) (s : State) :
    frameOk struct s = true ↔ 91 ≤ s.frmLen.toNat ∧ struct (s.bytes .frm 0 91) = true := by
  rw [frameOk, Bool.and_eq_true, decide_eq_true_iff]; exact Iff.rfl

/-- The verdict `PackBytes()` records is that of the bytes it leaves (R153, R157). -/
theorem packBytes_pdOk_iff (struct : List Byte → Bool) (s : State) :
    (packBytes struct s).pdOk = true ↔
      91 ≤ (packBytes struct s).frmLen.toNat ∧ struct ((packBytes struct s).bytes .frm 0 91) = true := by
  have hb : (packBytes struct s).bytes .frm 0 91 = (packFrame s).bytes .frm 0 91 :=
    State.bytes_eq_of_mem (s := packFrame s) (t := packBytes struct s) (sp := .frm) rfl rfl 0 91
  rw [packBytes_pdOk, frameOk_iff, hb, packBytes_frmLen, packFrame_frmLen]

theorem attempt_frmLen (p : DecoderParams) (h : BitVec 2) (s : State) :
    (attempt p h s).frmLen = BitVec.ofNat 32 ((BitVec.ofNat 32 (2 * s.symCount.toNat)).toNat / 8) := by simp [attempt]

/-- When an attempt succeeds (R155, R157). -/
theorem attempt_pdOk_iff (p : DecoderParams) (h : BitVec 2) (s : State) :
    (attempt p h s).pdOk = true ↔
      91 ≤ (attempt p h s).frmLen.toNat ∧ p.struct ((attempt p h s).bytes .frm 0 91) = true :=
  packBytes_pdOk_iff _ _

/-! ### A result code does not enter a computation -/

theorem storeRaw_complete (bits : List Bool) (h : BitVec 2) (s : State) (c : ResultCode) :
    storeRaw bits h (s.complete c) = (storeRaw bits h s).complete c := rfl

theorem storeDem_complete (bits : List Bool) (s : State) (c : ResultCode) :
    storeDem bits (s.complete c) = (storeDem bits s).complete c := rfl

theorem storeDsc_complete (bits : List Bool) (s : State) (c : ResultCode) :
    storeDsc bits (s.complete c) = (storeDsc bits s).complete c := rfl

theorem storeFrm_complete (bytes : List Byte) (s : State) (c : ResultCode) :
    storeFrm bytes (s.complete c) = (storeFrm bytes s).complete c := rfl

theorem storeVerdict_complete (ok : Bool) (s : State) (c : ResultCode) :
    storeVerdict ok (s.complete c) = (storeVerdict ok s).complete c := rfl

theorem mapBits_complete (lut : BitVec 2 → BitVec 2 → BitVec 2) (h : BitVec 2) (s : State) (c : ResultCode) :
    mapBits lut h (s.complete c) = (mapBits lut h s).complete c := by
  have : mappedBits lut h (s.complete c) = mappedBits lut h s := by
    unfold mappedBits
    rw [State.samples_eq_of_mem (s := s) (State.mem_complete s c .sym) rfl, State.complete_symCount]
  rw [mapBits, this, storeRaw_complete, mapBits]

theorem dematch_complete (dummy : Nat → Nat → Nat → Bool) (s : State) (c : ResultCode) :
    dematch dummy (s.complete c) = (dematch dummy s).complete c := by
  have : dematchedBits dummy (s.complete c) = dematchedBits dummy s := by
    unfold dematchedBits
    rw [State.complete_rawLen]
    congr 1
  rw [dematch, this, storeDem_complete, dematch]

theorem descramble_complete (poly : GoldPoly) (s : State) (c : ResultCode) :
    descramble poly (s.complete c) = (descramble poly s).complete c := by
  have : descrambledBits poly (s.complete c) = descrambledBits poly s := by
    unfold descrambledBits
    rw [State.bits_eq_of_mem (s := s) (State.mem_complete s c .dem) rfl, State.complete_demLen, State.complete_goldSeed]
  rw [descramble, this, storeDsc_complete, descramble]

theorem packFrame_complete (s : State) (c : ResultCode) : packFrame (s.complete c) = (packFrame s).complete c := by
  rw [packFrame, State.bits_eq_of_mem (s := s) (State.mem_complete s c .dsc) rfl, State.complete_dscLen,
    storeFrm_complete, packFrame]

theorem packBytes_complete (struct : List Byte → Bool) (s : State) (c : ResultCode) :
    packBytes struct (s.complete c) = (packBytes struct s).complete c := by
  have : frameOk struct ((packFrame s).complete c) = frameOk struct (packFrame s) := by
    unfold frameOk
    rw [State.bytes_eq_of_mem (s := packFrame s) (State.mem_complete _ c .frm) rfl, State.complete_frmLen]
  rw [packBytes, packFrame_complete, this, storeVerdict_complete, packBytes]

theorem attempt_complete (p : DecoderParams) (h : BitVec 2) (s : State) (c : ResultCode) :
    attempt p h (s.complete c) = (attempt p h s).complete c := by
  rw [attempt, mapBits_complete, dematch_complete, descramble_complete, packBytes_complete, attempt]

@[simp] theorem State.complete_complete (s : State) (c d : ResultCode) : (s.complete c).complete d = s.complete d := (rfl)

theorem completeByFrame_complete (s : State) (c : ResultCode) : completeByFrame (s.complete c) = completeByFrame s := by
  rw [completeByFrame, State.complete_pdOk, State.complete_complete, completeByFrame]

theorem completeByCrc_complete (s : State) (c : ResultCode) : completeByCrc (s.complete c) = completeByCrc s := by
  rw [completeByCrc, State.complete_crcValid, State.complete_complete, completeByCrc]

theorem checkCrc_complete (s : State) (c : ResultCode) : checkCrc (s.complete c) = (checkCrc s).complete c := by
  have hb : ∀ a, (s.complete c).byte .frm a = s.byte .frm a := State.byte_eq_of_mem (State.mem_complete s c .frm) rfl
  have h1 : crcOfPayload (s.complete c) = crcOfPayload s := by
    rw [crcOfPayload, State.bytes_eq_of_mem (s := s) (State.mem_complete s c .frm) rfl, crcOfPayload]
  have h2 : crcEmbedded (s.complete c) = crcEmbedded s := by rw [crcEmbedded, hb, hb, crcEmbedded]
  rw [checkCrc, h1, h2, checkCrc]
  generalize crcOfPayload s = x
  generalize crcEmbedded s = y
  rfl

/-- How many attempts were counted does not enter an attempt. -/
theorem storeRaw_storeAttempts (bits : List Bool) (h : BitVec 2) (n : Nat) (s : State) :
    storeRaw bits h (storeAttempts n s) = storeAttempts n (storeRaw bits h s) := rfl

theorem storeDem_storeAttempts (bits : List Bool) (n : Nat) (s : State) :
    storeDem bits (storeAttempts n s) = storeAttempts n (storeDem bits s) := rfl

theorem storeDsc_storeAttempts (bits : List Bool) (n : Nat) (s : State) :
    storeDsc bits (storeAttempts n s) = storeAttempts n (storeDsc bits s) := rfl

theorem storeFrm_storeAttempts (bytes : List Byte) (n : Nat) (s : State) :
    storeFrm bytes (storeAttempts n s) = storeAttempts n (storeFrm bytes s) := rfl

theorem storeVerdict_storeAttempts (ok : Bool) (n : Nat) (s : State) :
    storeVerdict ok (storeAttempts n s) = storeAttempts n (storeVerdict ok s) := rfl

theorem State.mem_storeAttempts (n : Nat) (s : State) (sp : Space) : (storeAttempts n s).mem sp = s.mem sp := by
  cases sp <;> rfl

theorem mapBits_storeAttempts (lut : BitVec 2 → BitVec 2 → BitVec 2) (h : BitVec 2) (n : Nat) (s : State) :
    mapBits lut h (storeAttempts n s) = storeAttempts n (mapBits lut h s) := by
  have : mappedBits lut h (storeAttempts n s) = mappedBits lut h s := by
    unfold mappedBits
    rw [State.samples_eq_of_mem (s := s) (State.mem_storeAttempts n s .sym) rfl, storeAttempts_symCount]
  rw [mapBits, this, storeRaw_storeAttempts, mapBits]

theorem dematch_storeAttempts (dummy : Nat → Nat → Nat → Bool) (n : Nat) (s : State) :
    dematch dummy (storeAttempts n s) = storeAttempts n (dematch dummy s) := by
  have : dematchedBits dummy (storeAttempts n s) = dematchedBits dummy s := by
    unfold dematchedBits
    rw [storeAttempts_rawLen]
    congr 1
  rw [dematch, this, storeDem_storeAttempts, dematch]

theorem descramble_storeAttempts (poly : GoldPoly) (n : Nat) (s : State) :
    descramble poly (storeAttempts n s) = storeAttempts n (descramble poly s) := by
  have : descrambledBits poly (storeAttempts n s) = descrambledBits poly s := by
    unfold descrambledBits
    rw [State.bits_eq_of_mem (s := s) (State.mem_storeAttempts n s .dem) rfl, storeAttempts_demLen,
      storeAttempts_goldSeed]
  rw [descramble, this, storeDsc_storeAttempts, descramble]

theorem packFrame_storeAttempts (n : Nat) (s : State) :
    packFrame (storeAttempts n s) = storeAttempts n (packFrame s) := by
  rw [packFrame, State.bits_eq_of_mem (s := s) (State.mem_storeAttempts n s .dsc) rfl, storeAttempts_dscLen,
    storeFrm_storeAttempts, packFrame]

theorem packBytes_storeAttempts (struct : List Byte → Bool) (n : Nat) (s : State) :
    packBytes struct (storeAttempts n s) = storeAttempts n (packBytes struct s) := by
  have : frameOk struct (storeAttempts n (packFrame s)) = frameOk struct (packFrame s) := by
    unfold frameOk
    rw [State.bytes_eq_of_mem (s := packFrame s) (State.mem_storeAttempts n _ .frm) rfl, storeAttempts_frmLen]
  rw [packBytes, packFrame_storeAttempts, this, storeVerdict_storeAttempts, packBytes]

theorem attempt_storeAttempts (p : DecoderParams) (h : BitVec 2) (n : Nat) (s : State) :
    attempt p h (storeAttempts n s) = storeAttempts n (attempt p h s) := by
  rw [attempt, mapBits_storeAttempts, dematch_storeAttempts, descramble_storeAttempts, packBytes_storeAttempts, attempt]

@[simp] theorem storeAttempts_storeAttempts (m n : Nat) (s : State) :
    storeAttempts m (storeAttempts n s) = storeAttempts m s := (rfl)

theorem storeAttempts_complete (n : Nat) (s : State) (c : ResultCode) :
    storeAttempts n (s.complete c) = (storeAttempts n s).complete c := rfl

/-- Setting `PD_STAT.ATT` of a counted state counts again. -/
theorem storeAttempts_with (m n : Nat) (s : State) :
    { storeAttempts m s with pdAtt := BitVec.ofNat 3 n } = storeAttempts n s := rfl

/-! ### The attempt loop -/

theorem keepsRegs_attemptLoop (p : DecoderParams) (hs : List (BitVec 2)) (n : Nat) (s : State) :
    KeepsRegs [.rawLen, .demLen, .dscLen, .frmLen, .pdStat, .crcCalc, .crcRx, .crcStat] s (attemptLoop p hs n s) := by
  induction hs generalizing n s with
  | nil => exact (keepsRegs_storeAttempts n s).mono (by decide)
  | cons h hs ih =>
    rw [attemptLoop]
    split
    · exact (keepsRegs_attempt p h s).trans ((keepsRegs_storeAttempts (n + 1) _).mono (by decide))
    · exact (keepsRegs_attempt p h s).trans (ih _ _)

theorem keepsBytes_attemptLoop (p : DecoderParams) (hs : List (BitVec 2)) (n : Nat) (s : State) :
    KeepsBytes [.raw, .dem, .dsc, .frm] s (attemptLoop p hs n s) := by
  induction hs generalizing n s with
  | nil => exact keepsBytes_storeAttempts _ n s
  | cons h hs ih =>
    rw [attemptLoop]
    split
    · exact (keepsBytes_attempt p h s).trans (keepsBytes_storeAttempts _ (n + 1) _)
    · exact (keepsBytes_attempt p h s).trans (ih _ _)

theorem keepsPort_attemptLoop (p : DecoderParams) (hs : List (BitVec 2)) (n : Nat) (s : State) : KeepsPort s (attemptLoop p hs n s) := by
  induction hs generalizing n s with
  | nil => exact keepsPort_storeAttempts n s
  | cons h hs ih =>
    rw [attemptLoop]
    split
    · exact (keepsPort_attempt p h s).trans (keepsPort_storeAttempts (n + 1) _)
    · exact (keepsPort_attempt p h s).trans (ih _ _)

theorem attemptLoop_cmd (p : DecoderParams) (hs : List (BitVec 2)) (n : Nat) (s : State) : (attemptLoop p hs n s).cmd = s.cmd := by
  induction hs generalizing n s with
  | nil => rfl
  | cons h hs ih =>
    rw [attemptLoop]
    split
    · exact attempt_cmd p h s
    · exact (ih _ _).trans (attempt_cmd p h s)

theorem attemptLoop_ovr (p : DecoderParams) (hs : List (BitVec 2)) (n : Nat) (s : State) : (attemptLoop p hs n s).ovr = s.ovr := by
  induction hs generalizing n s with
  | nil => rfl
  | cons h hs ih =>
    rw [attemptLoop]
    split
    · exact attempt_ovr p h s
    · exact (ih _ _).trans (attempt_ovr p h s)

/-! ### The bodies of `SXTR` and `PDEC` -/

theorem keepsRegs_storeSymbols (groups : List (List Sample)) (s : State) :
    KeepsRegs [.sxNgrp, .symCount] s (storeSymbols groups s) :=
  (((keepsRegs_setMem s .glen _).trans (keepsRegs_setMem _ .sym _)).mono (by simp)).trans
    (keepsRegs_storeCounts _ _ _)

theorem keepsBytes_storeSymbols (groups : List (List Sample)) (s : State) :
    KeepsBytes [.sym, .glen] s (storeSymbols groups s) :=
  (((keepsBytes_setMem s .glen _).mono (by decide)).trans ((keepsBytes_setMem _ .sym _).mono (by decide))).trans
    (keepsBytes_storeCounts _ _ _ _)

theorem keepsPort_storeSymbols (groups : List (List Sample)) (s : State) : KeepsPort s (storeSymbols groups s) := by
  unfold storeSymbols
  refine KeepsPort.trans ?_ (keepsPort_storeCounts _ _ _)
  exact ⟨by simp, by simp, by simp, by simp, by simp⟩

/-- The two things `SXTR` can do in range (R140). -/
theorem sxtrBody_cases (skipZc : Bool) (s : State) :
    (∃ groups, sxDemod (s.samples .bur 0 s.burLen.toNat) skipZc = some groups ∧ symbolsFit groups = true ∧
      sxtrBody skipZc s = (storeSymbols groups s).complete .ok) ∨
    ((∀ groups, sxDemod (s.samples .bur 0 s.burLen.toNat) skipZc = some groups → symbolsFit groups = false) ∧
      sxtrBody skipZc s = (symbolsFailed s).complete .symx) := by
  unfold sxtrBody
  split
  · next groups h =>
    cases hf : symbolsFit groups with
    | true => exact .inl ⟨groups, h, hf, if_pos rfl⟩
    | false => exact .inr ⟨fun g hg => by rw [h] at hg; cases hg; exact hf, if_neg (by simp)⟩
  · next h => exact .inr ⟨fun g hg => (by rw [h] at hg; cases hg), rfl⟩

/-- The two things `PDEC` can do in range, after its loop (R156). -/
theorem pdecBody_cases (p : DecoderParams) (s : State) :
    ((attemptLoop p hypotheses 0 s).pdOk = true ∧
      pdecBody p s = completeByCrc (checkCrc (attemptLoop p hypotheses 0 s))) ∨
    ((attemptLoop p hypotheses 0 s).pdOk = false ∧ pdecBody p s = (attemptLoop p hypotheses 0 s).complete .phase) := by
  cases h : (attemptLoop p hypotheses 0 s).pdOk with
  | true => exact .inl ⟨rfl, if_pos h⟩
  | false => exact .inr ⟨rfl, if_neg (by simp [h])⟩

/-! ### What the decoder steps leave in their spaces -/

theorem bit_storeRaw {bits : List Bool} (h : BitVec 2) {s : State} (hc : bits.length ≤ 2 * Config.symDepth) {k : Nat}
    {v : Bool} (hk : bits[k]? = some v) : (storeRaw bits h s).bit .raw k = v :=
  (State.bit_eq_of_mem (s := s.putBits .raw bits) (storeRaw_mem bits h s .raw) (by simp) k).trans
    (State.bit_putBits_inside (by rw [capacityBits_raw]; exact hc) hk)

theorem bit_storeRaw_outside {bits : List Bool} (h : BitVec 2) {s : State} (hc : bits.length ≤ 2 * Config.symDepth)
    {k : Nat} (hk : bits.length ≤ k) : (storeRaw bits h s).bit .raw k = s.bit .raw k :=
  (State.bit_eq_of_mem (s := s.putBits .raw bits) (storeRaw_mem bits h s .raw) (by simp) k).trans
    (State.bit_putBits_outside (by rw [capacityBits_raw]; exact hc) hk)

theorem byte_storeRaw_outside {bits : List Bool} (h : BitVec 2) {s : State} {a : Nat} (hk : bits.length ≤ 8 * a) :
    (storeRaw bits h s).byte .raw a = s.byte .raw a :=
  (State.byte_eq_of_mem (s := s.putBits .raw bits) (storeRaw_mem bits h s .raw) (by simp) a).trans
    (State.byte_putBits_outside hk)

theorem bit_storeDem {bits : List Bool} {s : State} (hc : bits.length ≤ 2 * Config.symDepth) {k : Nat}
    {v : Bool} (hk : bits[k]? = some v) : (storeDem bits s).bit .dem k = v :=
  (State.bit_eq_of_mem (s := s.putBits .dem bits) (storeDem_mem bits s .dem) (by simp) k).trans
    (State.bit_putBits_inside (by rw [capacityBits_dem]; exact hc) hk)

theorem bit_storeDem_outside {bits : List Bool} {s : State} (hc : bits.length ≤ 2 * Config.symDepth)
    {k : Nat} (hk : bits.length ≤ k) : (storeDem bits s).bit .dem k = s.bit .dem k :=
  (State.bit_eq_of_mem (s := s.putBits .dem bits) (storeDem_mem bits s .dem) (by simp) k).trans
    (State.bit_putBits_outside (by rw [capacityBits_dem]; exact hc) hk)

theorem byte_storeDem_outside {bits : List Bool} {s : State} {a : Nat} (hk : bits.length ≤ 8 * a) :
    (storeDem bits s).byte .dem a = s.byte .dem a :=
  (State.byte_eq_of_mem (s := s.putBits .dem bits) (storeDem_mem bits s .dem) (by simp) a).trans
    (State.byte_putBits_outside hk)

theorem bit_storeDsc {bits : List Bool} {s : State} (hc : bits.length ≤ 2 * Config.symDepth) {k : Nat}
    {v : Bool} (hk : bits[k]? = some v) : (storeDsc bits s).bit .dsc k = v :=
  (State.bit_eq_of_mem (s := s.putBits .dsc bits) (storeDsc_mem bits s .dsc) (by simp) k).trans
    (State.bit_putBits_inside (by rw [capacityBits_dsc]; exact hc) hk)

theorem bit_storeDsc_outside {bits : List Bool} {s : State} (hc : bits.length ≤ 2 * Config.symDepth)
    {k : Nat} (hk : bits.length ≤ k) : (storeDsc bits s).bit .dsc k = s.bit .dsc k :=
  (State.bit_eq_of_mem (s := s.putBits .dsc bits) (storeDsc_mem bits s .dsc) (by simp) k).trans
    (State.bit_putBits_outside (by rw [capacityBits_dsc]; exact hc) hk)

theorem byte_storeDsc_outside {bits : List Bool} {s : State} {a : Nat} (hk : bits.length ≤ 8 * a) :
    (storeDsc bits s).byte .dsc a = s.byte .dsc a :=
  (State.byte_eq_of_mem (s := s.putBits .dsc bits) (storeDsc_mem bits s .dsc) (by simp) a).trans
    (State.byte_putBits_outside hk)

theorem byte_storeFrm {bytes : List Byte} {s : State} (hc : bytes.length ≤ 2 * Config.symDepth / 8) {k : Nat}
    {b : Byte} (hk : bytes[k]? = some b) : (storeFrm bytes s).byte .frm k = b :=
  (State.byte_eq_of_mem (s := s.putBytes .frm bytes) (storeFrm_mem bytes s .frm) (by simp) k).trans
    (State.byte_putBytes_inside (by rw [capacityBits_frm]; omega) hk)

theorem byte_storeFrm_outside {bytes : List Byte} {s : State} {a : Nat} (hk : bytes.length ≤ a) :
    (storeFrm bytes s).byte .frm a = s.byte .frm a :=
  (State.byte_eq_of_mem (s := s.putBytes .frm bytes) (storeFrm_mem bytes s .frm) (by simp) a).trans
    (State.byte_putBytes_outside hk)

theorem mappedBits_getElem? (lut : BitVec 2 → BitVec 2 → BitVec 2) (h : BitVec 2) (s : State) {k : Nat}
    (hk : k < s.symCount.toNat) :
    (mappedBits lut h s)[2 * k]? = some ((lut h (quadrant (s.sample .sym k))).getLsbD 1) ∧
      (mappedBits lut h s)[2 * k + 1]? = some ((lut h (quadrant (s.sample .sym k))).getLsbD 0) := by
  have pairs : ∀ (l : List Sample) (j : Nat) (p : Sample), l[j]? = some p →
      (l.flatMap (pointBits lut h))[2 * j]? = some ((lut h (quadrant p)).getLsbD 1) ∧
      (l.flatMap (pointBits lut h))[2 * j + 1]? = some ((lut h (quadrant p)).getLsbD 0) := by
    intro l
    induction l with
    | nil => intro j p hp; simp at hp
    | cons q l ih =>
      intro j p hp
      cases j with
      | zero =>
        obtain rfl : q = p := by simpa using hp
        exact ⟨rfl, rfl⟩
      | succ j =>
        have := ih j p (by simpa using hp)
        rw [List.flatMap_cons, show 2 * (j + 1) = 2 * j + 1 + 1 by omega]
        exact this
  have hs := State.samples_getElem? s .sym (a := 0) (b := s.symCount.toNat) (k := k) (by omega)
  rw [Nat.zero_add] at hs
  exact pairs _ k _ hs

theorem packBits_bits_getElem? (s : State) (sp : Space) {n j : Nat} (hj : j < n / 8) :
    (packBits (s.bits sp 0 n))[j]? = some (packByte (s.bit sp (8 * j)) (s.bit sp (8 * j + 1)) (s.bit sp (8 * j + 2))
      (s.bit sp (8 * j + 3)) (s.bit sp (8 * j + 4)) (s.bit sp (8 * j + 5)) (s.bit sp (8 * j + 6))
      (s.bit sp (8 * j + 7))) := by
  have := packBits_getElem? (s.bit sp) 0 (s.bits sp 0 n) j (by rw [State.bits_length]; omega) (fun k hk => by
    rw [State.bits_length] at hk
    exact State.bits_getElem? s sp (by omega))
  simpa only [Nat.zero_add] using this

end Sys2Proof.Machine
end

