-- ==== Sys2Proof/Laws/Exec.lean ====
section
/-! SUPPORT. What `exec` answers for each command, by its range check: `exec_<command>_range` out of range,
`exec_<command>_body` in range. A proof about a command cites these and never unfolds `exec`. -/

namespace Sys2Proof.Machine

@[simp] theorem exec_nop (s : State) : exec .nop s = .next (s.complete .ok) := rfl

@[simp] theorem exec_clr (s : State) : exec .clr s = .next (clr s) := rfl

theorem bdetOutOfRange_iff (s : State) : bdetOutOfRange s = true ↔ Config.capDepth < s.capLen.toNat ∨ s.capRate = 0#32 := by
  unfold bdetOutOfRange; rw [Bool.or_eq_true, decide_eq_true_iff, beq_iff_eq]

theorem exec_bdet_range (ptype : PacketType) (legacy skipBw : Bool) {s : State} (hr : bdetOutOfRange s = true) :
    exec (.bdet ptype legacy skipBw) s = .next (s.complete .range) := by
  simp only [exec, execBdet]; rw [if_pos hr]

theorem exec_bdet_body (ptype : PacketType) (legacy skipBw : Bool) {s : State} (hr : ¬ bdetOutOfRange s = true) :
    exec (.bdet ptype legacy skipBw) s = .next (bdetBody ptype legacy skipBw s) := by
  simp only [exec, execBdet]; rw [if_neg hr]

theorem cfoeOutOfRange_iff (s : State) : cfoeOutOfRange s = true ↔
    Config.capDepth < s.capLen.toNat ∨ s.capRate = 0#32 ∨ s.cfoEnd.toNat < s.cfoStart.toNat ∨ s.capLen.toNat < s.cfoEnd.toNat := by
  unfold cfoeOutOfRange
  rw [Bool.or_eq_true, Bool.or_eq_true, Bool.or_eq_true, decide_eq_true_iff, decide_eq_true_iff, decide_eq_true_iff,
    beq_iff_eq, or_assoc, or_assoc]

theorem exec_cfoe_range (skipBw : Bool) {s : State} (hr : cfoeOutOfRange s = true) :
    exec (.cfoe skipBw) s = .next (s.complete .range) := by
  simp only [exec, execCfoe]; rw [if_pos hr]

theorem exec_cfoe_body (skipBw : Bool) {s : State} (hr : ¬ cfoeOutOfRange s = true) :
    exec (.cfoe skipBw) s = .next (cfoeBody skipBw s) := by
  simp only [exec, execCfoe]; rw [if_neg hr]

theorem sxtrOutOfRange_iff (s : State) : sxtrOutOfRange s = true ↔ Config.burDepth < s.burLen.toNat := decide_eq_true_iff

theorem exec_sxtr_range (skipZc : Bool) {s : State} (hr : sxtrOutOfRange s = true) :
    exec (.sxtr skipZc) s = .next (s.complete .range) := by
  simp only [exec, execSxtr]; rw [if_pos hr]

theorem exec_sxtr_body (skipZc : Bool) {s : State} (hr : ¬ sxtrOutOfRange s = true) :
    exec (.sxtr skipZc) s = .next (sxtrBody skipZc s) := by
  simp only [exec, execSxtr]; rw [if_neg hr]

theorem symOutOfRange_iff (s : State) : symOutOfRange s = true ↔ Config.symDepth < s.symCount.toNat := decide_eq_true_iff

theorem exec_qmap_range (h : BitVec 2) {s : State} (hr : symOutOfRange s = true) :
    exec (.qmap h) s = .next (s.complete .range) := by
  simp only [exec, execQmap, qmapWith]; rw [if_pos hr]

theorem exec_qmap_body (h : BitVec 2) {s : State} (hr : ¬ symOutOfRange s = true) :
    exec (.qmap h) s = .next ((mapBits implParams.lut h s).complete .ok) := by
  simp only [exec, execQmap, qmapWith]; rw [if_neg hr]

theorem rdmOutOfRange_iff (s : State) : rdmOutOfRange s = true ↔ 2 * Config.symDepth < s.rawLen.toNat := decide_eq_true_iff

theorem exec_rdm_range {s : State} (hr : rdmOutOfRange s = true) :
    exec .rdm s = .next (s.complete .range) := by
  simp only [exec, execRdm, rdmWith]; rw [if_pos hr]

theorem exec_rdm_body {s : State} (hr : ¬ rdmOutOfRange s = true) :
    exec .rdm s = .next ((dematch implParams.dummy s).complete .ok) := by
  simp only [exec, execRdm, rdmWith]; rw [if_neg hr]

theorem dscrOutOfRange_iff (s : State) : dscrOutOfRange s = true ↔ 2 * Config.symDepth < s.demLen.toNat := decide_eq_true_iff

theorem exec_dscr_range {s : State} (hr : dscrOutOfRange s = true) :
    exec .dscr s = .next (s.complete .range) := by
  simp only [exec, execDscr, dscrWith]; rw [if_pos hr]

theorem exec_dscr_body {s : State} (hr : ¬ dscrOutOfRange s = true) :
    exec .dscr s = .next ((descramble implParams.poly s).complete .ok) := by
  simp only [exec, execDscr, dscrWith]; rw [if_neg hr]

theorem packOutOfRange_iff (s : State) : packOutOfRange s = true ↔ 2 * Config.symDepth < s.dscLen.toNat := decide_eq_true_iff

theorem exec_pack_range {s : State} (hr : packOutOfRange s = true) :
    exec .pack s = .next (s.complete .range) := by
  simp only [exec, execPack, packWith]; rw [if_pos hr]

theorem exec_pack_body {s : State} (hr : ¬ packOutOfRange s = true) :
    exec .pack s = .next (completeByFrame (packBytes implParams.struct s)) := by
  simp only [exec, execPack, packWith]; rw [if_neg hr]

theorem exec_pdat_range (h : BitVec 2) {s : State} (hr : symOutOfRange s = true) :
    exec (.pdat h) s = .next (s.complete .range) := by
  simp only [exec, execPdat, pdatWith]; rw [if_pos hr]

theorem exec_pdat_body (h : BitVec 2) {s : State} (hr : ¬ symOutOfRange s = true) :
    exec (.pdat h) s = .next (pdatBody implParams h s) := by
  simp only [exec, execPdat, pdatWith]; rw [if_neg hr]

theorem exec_pdec_range {s : State} (hr : symOutOfRange s = true) :
    exec .pdec s = .next (s.complete .range) := by
  simp only [exec, execPdec, pdecWith]; rw [if_pos hr]

theorem exec_pdec_body {s : State} (hr : ¬ symOutOfRange s = true) :
    exec .pdec s = .next (pdecBody implParams s) := by
  simp only [exec, execPdec, pdecWith]; rw [if_neg hr]

theorem crccOutOfRange_iff (s : State) : crccOutOfRange s = true ↔
    s.frmLen.toNat < 91 ∨ 2 * Config.symDepth / 8 < s.frmLen.toNat := by
  unfold crccOutOfRange; rw [Bool.or_eq_true, decide_eq_true_iff, decide_eq_true_iff]; unfold frmDepth bitDepth frameLen; exact Iff.rfl

theorem exec_crcc_range {s : State} (hr : crccOutOfRange s = true) :
    exec .crcc s = .next (s.complete .range) := by
  simp only [exec, execCrcc]; rw [if_pos hr]

theorem exec_crcc_body {s : State} (hr : ¬ crccOutOfRange s = true) :
    exec .crcc s = .next (completeByCrc (checkCrc s)) := by
  simp only [exec, execCrcc]; rw [if_neg hr]

/-- A result code an earlier command left does not enter `CRCC` (R190). -/
theorem exec_crcc_complete {s : State} (hr : ¬ crccOutOfRange s = true) (c : ResultCode) :
    exec .crcc (s.complete c) = .next (completeByCrc (checkCrc s)) := by
  have h : ¬ crccOutOfRange (s.complete c) = true := by
    rw [crccOutOfRange_iff] at hr ⊢
    rwa [State.complete_frmLen]
  rw [exec_crcc_body h, checkCrc_complete, completeByCrc_complete]

end Sys2Proof.Machine
end

