-- ==== Sys2Proof/Laws/PerInstr.lean ====
section
/-! SUPPORT. Facts about every command as syntax, one lemma per constructor. -/

namespace Sys2Proof.Laws

open Sys2Proof

/-- The command is well formed, its row stands in the opcode map, and its fields have bits 31:13 zero and the row's
opcode (30_encoding.md R91, R93). -/
def EncodesItsRow.Statement (i : Instr) : Prop :=
  i.wellFormed = true ∧ opcodeRow i ∈ opcodeRows ∧ (encodeFields i).zero = 0#19 ∧
    (encodeFields i).op = (opcodeRow i).pattern.extractLsb' 0 8

theorem EncodesItsRow.nop : EncodesItsRow.Statement .nop := by unfold EncodesItsRow.Statement; decide
theorem EncodesItsRow.clr : EncodesItsRow.Statement .clr := by unfold EncodesItsRow.Statement; decide
theorem EncodesItsRow.bdet (ptype : PacketType) (legacy skipBw : Bool) :
    EncodesItsRow.Statement (.bdet ptype legacy skipBw) :=
  ⟨rfl, by show opcodeRow (.bdet .droneid false false) ∈ opcodeRows; decide, rfl, by
    show (0x10#8) = (opcodeRow (.bdet .droneid false false)).pattern.extractLsb' 0 8; decide⟩
theorem EncodesItsRow.cfoe (skipBw : Bool) : EncodesItsRow.Statement (.cfoe skipBw) := by
  revert skipBw; unfold EncodesItsRow.Statement; decide
theorem EncodesItsRow.sxtr (skipZc : Bool) : EncodesItsRow.Statement (.sxtr skipZc) := by
  revert skipZc; unfold EncodesItsRow.Statement; decide
theorem EncodesItsRow.qmap (h : BitVec 2) : EncodesItsRow.Statement (.qmap h) := by
  revert h; unfold EncodesItsRow.Statement; decide
theorem EncodesItsRow.rdm : EncodesItsRow.Statement .rdm := by unfold EncodesItsRow.Statement; decide
theorem EncodesItsRow.dscr : EncodesItsRow.Statement .dscr := by unfold EncodesItsRow.Statement; decide
theorem EncodesItsRow.pack : EncodesItsRow.Statement .pack := by unfold EncodesItsRow.Statement; decide
theorem EncodesItsRow.pdat (h : BitVec 2) : EncodesItsRow.Statement (.pdat h) := by
  revert h; unfold EncodesItsRow.Statement; decide
theorem EncodesItsRow.pdec : EncodesItsRow.Statement .pdec := by unfold EncodesItsRow.Statement; decide
theorem EncodesItsRow.crcc : EncodesItsRow.Statement .crcc := by unfold EncodesItsRow.Statement; decide

end Sys2Proof.Laws
end

