-- ==== Sys2Proof/Laws/Step.lean ====
section
/-! SUPPORT. The two kinds of step, the host actions one by one, and runs. -/

namespace Sys2Proof.Machine

/-! ### Steps and runs -/

theorem step_block {s : State} (h : s.blockTurn = true) : step s = blockStep s := if_pos h

/-- A word that selects no command completes in the step after its acceptance (30_encoding.md R94). -/
theorem step_accept_illegal {s : State} {w : Word} {e : DecodeError} (h : decode w = .error e) :
    step (s.accept w) = .next ((s.accept w).complete .illcmd) := by
  rw [step_block (by simp [State.blockTurn, commandTime, h]), blockStep]
  simp [h]

theorem step_host {s : State} {a : HostAction} {rest : List HostAction} (h : s.blockTurn = false)
    (hl : s.host = a :: rest) : step s = hostAct a (s.takeAction rest) := by
  simp only [step, h, hostStep, hl, Bool.false_eq_true, if_false]

theorem blockStep_ok {s : State} {i : Instr} (h : decode s.cmd = .ok i) : blockStep s = exec i s := by
  simp only [blockStep, h]

theorem blockStep_error {s : State} {e : DecodeError} (h : decode s.cmd = .error e) :
    blockStep s = .next (s.complete .illcmd) := by simp only [blockStep, h]

theorem blockTurn_idle {s : State} (h : s.busy = false) : s.blockTurn = false := by simp [State.blockTurn, h]

theorem run_succ {s t : State} (n : Nat) (h : step s = .next t) : core.run (n + 1) s = core.run n t := by
  have hs : core.step s = .next t := h
  simp only [Host.Core.run]
  rw [hs]

/-! ### Register offsets -/

theorem mem_allRegs (r : Reg) : r ∈ allRegs := by
  cases r with
  | cand0 f => cases f <;> decide
  | cand1 f => cases f <;> decide
  | cand2 f => cases f <;> decide
  | _ => decide

/-- Distinct registers have distinct offsets, each a multiple of 4 inside the register window (R40). -/
theorem allRegs_offsets :
    (∀ r ∈ allRegs, r.offset % 4 = 0 ∧ r.offset < 256) ∧
      ∀ r ∈ allRegs, ∀ q ∈ allRegs, r.offset = q.offset → r = q := by
  constructor <;> decide

theorem Reg.offset_ok (r : Reg) : r.offset % 4 = 0 ∧ r.offset < 256 := allRegs_offsets.1 r (mem_allRegs r)

theorem Reg.offset_injective {r q : Reg} (h : r.offset = q.offset) : r = q :=
  allRegs_offsets.2 r (mem_allRegs r) q (mem_allRegs q) h

/-- The register at a register's offset is that register. -/
@[simp] theorem regAt_offset (r : Reg) : regAt r.offset = some r := by
  unfold regAt
  cases h : allRegs.find? (fun q => q.offset == r.offset) with
  | none =>
    have := List.find?_eq_none.1 h r (mem_allRegs r)
    simp at this
  | some q =>
    have hq : q.offset = r.offset := by simpa using List.find?_some h
    rw [Reg.offset_injective hq]

theorem regAt_eq_some {off : Nat} {r : Reg} (h : regAt off = some r) : r.offset = off := by
  have := List.find?_some h
  simpa using this

theorem regAt_eq_none {off : Nat} (h : ∀ r : Reg, r.offset ≠ off) : regAt off = none := by
  cases hr : regAt off with
  | none => rfl
  | some r => exact absurd (regAt_eq_some hr) (h r)

/-! ### Host actions -/

theorem hostAct_regRead {off : Nat} (h : off % 4 = 0 ∧ off < 256) (s : State) :
    hostAct (.regRead off) s = .next (hostRegRead off s) :=
  if_pos (by simp [HostAction.wellFormed, regOffsetOk, h])

theorem hostAct_regWrite {off : Nat} (h : off % 4 = 0 ∧ off < 256) (v : Word) (s : State) :
    hostAct (.regWrite off v) s = .next (hostRegWrite off v s) :=
  if_pos (by simp [HostAction.wellFormed, regOffsetOk, h])

theorem hostAct_bufRead (sp : Space) (w : Nat) (s : State) :
    hostAct (.bufRead sp w) s = .next (hostBufRead sp w s) := rfl

theorem hostAct_bufWrite (sp : Space) (w : Nat) (v : Word) (s : State) :
    hostAct (.bufWrite sp w v) s = .next (hostBufWrite sp w v s) := rfl

theorem hostAct_memRead {addr : Nat} (h : addr % 4 = 0) (s : State) :
    hostAct (.memRead addr 4) s = .next (hostMemRead addr s) :=
  if_pos (by simp [HostAction.wellFormed, busAccessOk, h])

theorem hostAct_memWrite {addr : Nat} (h : addr % 4 = 0) (v : Word) (s : State) :
    hostAct (.memWrite addr 4 v) s = .next (hostMemWrite addr v s) :=
  if_pos (by simp [HostAction.wellFormed, busAccessOk, h])

theorem hostAct_wait (s : State) : hostAct .wait s = .next (hostWait s) := rfl

theorem hostAct_reset (s : State) : hostAct .reset s = .next s.assertReset := rfl

/-- What an action that is not an aligned word access meets (R64). -/
theorem hostAct_refused {a : HostAction} (h : a.wellFormed = false) (s : State) :
    hostAct a s = .refused .notAWordAccess := if_neg (by simp [h])

/-- A host action that is part of the interface takes its effect. -/
theorem hostAct_ok {a : HostAction} (h : a.wellFormed = true) (s : State) : hostAct a s = .next (hostEffect a s) :=
  if_pos h

/-- Everything a bus read can be (R66). -/
theorem hostMemRead_cases (addr : Nat) (s : State) :
    (∃ off, busTarget addr = some (.register off) ∧ hostMemRead addr s = hostRegRead off s) ∨
      (∃ sp w, busTarget addr = some (.word sp w) ∧ hostMemRead addr s = hostBufRead sp w s) ∨
      (busTarget addr = none ∧ hostMemRead addr s = s.respondOutside) := by
  unfold hostMemRead
  cases busTarget addr with
  | none => exact .inr (.inr ⟨rfl, rfl⟩)
  | some x => cases x with
    | register off => exact .inl ⟨off, rfl, rfl⟩
    | word sp w => exact .inr (.inl ⟨sp, w, rfl, rfl⟩)

/-- Everything a bus write can be (R66). -/
theorem hostMemWrite_cases (addr : Nat) (v : Word) (s : State) :
    (∃ off, busTarget addr = some (.register off) ∧ hostMemWrite addr v s = hostRegWrite off v s) ∨
      (∃ sp w, busTarget addr = some (.word sp w) ∧ hostMemWrite addr v s = hostBufWrite sp w v s) ∨
      (busTarget addr = none ∧ hostMemWrite addr v s = s) := by
  unfold hostMemWrite
  cases busTarget addr with
  | none => exact .inr (.inr ⟨rfl, rfl⟩)
  | some x => cases x with
    | register off => exact .inl ⟨off, rfl, rfl⟩
    | word sp w => exact .inr (.inl ⟨sp, w, rfl, rfl⟩)

/-- An address leads nowhere exactly when it lies in no window (R66). -/
theorem busTarget_eq_none_iff (addr : Nat) : busTarget addr = none ↔ ∀ x ∈ windows, inWindow addr x = false := by
  simp [busTarget, List.find?_eq_none]

/-- Everything a host action can leave: a register or buffer access, an access that reaches nothing, a poll, or reset. -/
theorem hostEffect_cases (a : HostAction) (s : State) :
    (∃ off, hostEffect a s = hostRegRead off s) ∨ (∃ off v, hostEffect a s = hostRegWrite off v s) ∨
      (∃ sp w, hostEffect a s = hostBufRead sp w s) ∨ (∃ sp w v, hostEffect a s = hostBufWrite sp w v s) ∨
      hostEffect a s = s.respondOutside ∨ hostEffect a s = s ∨ hostEffect a s = hostWait s ∨
      hostEffect a s = s.assertReset := by
  cases a with
  | regRead off => exact .inl ⟨off, rfl⟩
  | regWrite off v => exact .inr (.inl ⟨off, v, rfl⟩)
  | bufRead sp w => exact .inr (.inr (.inl ⟨sp, w, rfl⟩))
  | bufWrite sp w v => exact .inr (.inr (.inr (.inl ⟨sp, w, v, rfl⟩)))
  | wait => exact .inr (.inr (.inr (.inr (.inr (.inr (.inl rfl))))))
  | reset => exact .inr (.inr (.inr (.inr (.inr (.inr (.inr rfl))))))
  | memRead addr size =>
    obtain ⟨off, -, h⟩ | ⟨sp, w, -, h⟩ | ⟨-, h⟩ := hostMemRead_cases addr s
    · exact .inl ⟨off, h⟩
    · exact .inr (.inr (.inl ⟨sp, w, h⟩))
    · exact .inr (.inr (.inr (.inr (.inl h))))
  | memWrite addr size v =>
    obtain ⟨off, -, h⟩ | ⟨sp, w, -, h⟩ | ⟨-, h⟩ := hostMemWrite_cases addr v s
    · exact .inr (.inl ⟨off, v, h⟩)
    · exact .inr (.inr (.inr (.inl ⟨sp, w, v, h⟩)))
    · exact .inr (.inr (.inr (.inr (.inr (.inl h)))))

/-- A host action that answers a next state answers its effect. -/
theorem hostAct_next {a : HostAction} {s t : State} (h : hostAct a s = .next t) :
    a.wellFormed = true ∧ t = hostEffect a s := by
  unfold hostAct at h
  split at h
  · next hw => exact ⟨hw, (Host.Outcome.next.inj h).symm⟩
  · cases h

end Sys2Proof.Machine
end

