-- ==== Sys2Proof/Tests/Slice0.lean ====
section
/-! SUPPORT. Tests on fixed values, taken from 95_test_vectors.md or worked out by hand from the rules, and for every
obligation with hypotheses a state and operands that meet them. -/

namespace Sys2Proof.Tests

open Sys2Proof Sys2Proof.Machine

/-! ### Well-formedness: an ill-formed term for each check, which the check refuses -/

theorem test_wf_offset_misaligned : (HostAction.regRead 2).wellFormed = false := by decide
theorem test_wf_offset_outside_window : (HostAction.regWrite 0x100 0#32).wellFormed = false := by decide
theorem test_wf_bus_byte_access : (HostAction.memRead 0x100 1).wellFormed = false := by decide
theorem test_wf_bus_misaligned : (HostAction.memWrite 0x102 4 0#32).wellFormed = false := by decide
theorem test_wf_last_register_offset : (HostAction.regRead 0xFC).wellFormed = true := by decide

/-! ### Decoding: a word written out from R91 and R93 for every command (95 V48, R98) -/

theorem test_decode_nop : decode 0b0000000000000000000_0_0_0_00_00000000#32 = .ok .nop := by decide
theorem test_decode_clr : decode 0b0000000000000000000_0_0_0_00_00000001#32 = .ok .clr := by decide
theorem test_decode_bdet : decode 0b0000000000000000000_0_1_0_11_00010000#32 = .ok (.bdet .video false true) := by decide
theorem test_decode_cfoe : decode 0b0000000000000000000_0_1_0_00_00010001#32 = .ok (.cfoe true) := by decide
theorem test_decode_sxtr : decode 0b0000000000000000000_1_0_0_00_00100000#32 = .ok (.sxtr true) := by decide
theorem test_decode_qmap : decode 0b0000000000000000000_0_0_0_10_00110000#32 = .ok (.qmap 2#2) := by decide
theorem test_decode_rdm : decode 0b0000000000000000000_0_0_0_00_00110001#32 = .ok .rdm := by decide
theorem test_decode_dscr : decode 0b0000000000000000000_0_0_0_00_00110010#32 = .ok .dscr := by decide
theorem test_decode_pack : decode 0b0000000000000000000_0_0_0_00_00110011#32 = .ok .pack := by decide
theorem test_decode_pdat : decode 0b0000000000000000000_0_0_0_11_00110100#32 = .ok (.pdat 3#2) := by decide
theorem test_decode_pdec : decode 0b0000000000000000000_0_0_0_00_00110101#32 = .ok .pdec := by decide
theorem test_decode_crcc : decode 0b0000000000000000000_0_0_0_00_01000000#32 = .ok .crcc := by decide

/-- The illegal words of 95 V48. -/
theorem test_decode_illegal : decode 0x00000002#32 = .error .unknownOpcode ∧ decode 0x00000131#32 = .error .unusedField ∧
    decode 0x00001010#32 = .error .unusedField ∧ decode 0x00002035#32 = .error .highBits ∧
    decode 0x80000000#32 = .error .highBits := by decide

theorem test_table_word : decodeTableWord 32 0x00000334 = some (.pdat 3#2) := by decide

theorem test_assembly : (Instr.bdet .video true true).assembly = "BDET video, legacy, skipbw" := by decide

/-! ### Commands -/

/-- What a command leaves. -/
def after (i : Instr) (s : State) : State :=
  match exec i s with
  | .next t => t
  | _ => s

/-- What a host action leaves. -/
def afterAct (a : HostAction) (s : State) : State :=
  match hostAct a s with
  | .next t => t
  | _ => s

/-- A state just after reset with the bit spaces' first two bytes written. -/
def blank : State :=
  { State.reset with raw := [(0, 0#8), (1, 0#8)], dem := [(0, 0#8), (1, 0#8)], dsc := [(0, 0#8), (1, 0#8)] }

/-- A bit string, first element first. -/
def bitsOf (l : List Nat) : List Bool := l.map (fun b => b == 1)

/-- 95 V48 -/
theorem test_nop_status : statusWord (after .nop State.reset) = 0x00000002#32 := by decide
/-- 95 V48, P5 -/
theorem test_clr_registers :
    let t := after .clr { State.reset with cmd := 1#32, goldSeed := 7#32, ovr := true, ie := true, capLen := 9#32 }
    statusWord t = 0x00000002#32 ∧ t.goldSeed = 0x12345678#32 ∧ t.cmd = 1#32 ∧ t.capLen = 0#32 ∧ t.ie = false := by
  decide

/-- 95 V40: `CAP_RATE = 0` -/
theorem test_bdet_range :
    statusWord (after (.bdet .droneid false false) { State.reset with capLen := 1#32 }) = 0x00000022#32 := by
  decide +kernel
/-- 95 V40: 63 samples are no time step -/
theorem test_bdet_no_step :
    let t := after (.bdet .droneid false false) { State.reset with capRate := 6400000#32 }
    statusWord t = 0x00000072#32 ∧ t.bdNfound = 0#2 ∧ t.cand0 = Cand.zero := by
  decide +kernel

/-- 95 V41: `CFO_START = 5`, `CFO_END = 4` -/
theorem test_cfoe_range :
    statusWord (after (.cfoe false) { State.reset with capRate := 6400000#32, cfoStart := 5#32, cfoEnd := 4#32 })
      = 0x00000022#32 := by
  decide +kernel
/-- 95 V41: with `S = 1` every slice is found -/
theorem test_cfoe_skip : (cfoCall [] 6400000#32 true).2 = true := by decide

/-- R143: no groups leave both counts 0 -/
theorem test_sxtr_no_groups : (storeSymbols [] { State.reset with symCount := 9#32 }).symCount = 0#32 := by decide
/-- R143: two points in one group -/
theorem test_sxtr_one_group :
    let p : Sample := ⟨0x3F800000#32, 0xBF800000#32⟩
    let t := storeSymbols [[p, p]] State.reset
    t.sxNgrp = 1#32 ∧ t.symCount = 2#32 ∧ t.groupLen 0 = 2 ∧ t.sample .sym 1 = p := by
  decide +kernel

/-- The six points of 95 V43. -/
def sixPoints : State :=
  { blank with
    symCount := 6#32
    sym := (Memory.putWords .sym [] 0 [0x3F800000#32, 0x3F800000#32, 0xBF800000#32, 0x3F800000#32, 0x3F800000#32,
      0xBF800000#32, 0xBF800000#32, 0xBF800000#32, 0x80000000#32, 0x00000000#32, 0x7FC00000#32, 0xFFC00000#32]) }

/-- 95 V43, default tables -/
theorem test_qmap_0 :
    let t := qmapWith qpskLutDefault 0#2 sixPoints
    t.bits .raw 0 12 = bitsOf [0, 0, 1, 0, 0, 1, 1, 1, 1, 0, 0, 1] ∧ t.rawLen = 12#32 := by
  decide +kernel
/-- 95 V43, default tables -/
theorem test_qmap_3 :
    let t := qmapWith qpskLutDefault 3#2 sixPoints
    t.bits .raw 0 12 = bitsOf [1, 0, 1, 1, 0, 0, 0, 1, 1, 1, 0, 0] ∧ t.pdHyp = 3#2 := by
  decide +kernel

/-- 95 V44, length 33, default placement -/
theorem test_rdm_perm_33 :
    dematchPerm rdmDummyDefault 33 = (List.range 17).map (fun i => 2 * i) ++ (List.range 16).map (fun i => 2 * i + 1) := by
  decide +kernel
/-- 95 V44: up to 32 bits the order stays, and `LENX` is set -/
theorem test_rdm_short :
    let t := rdmWith rdmDummyDefault { blank with rawLen := 3#32, raw := [(0, 0b00000101#8)] }
    t.bits .dem 0 3 = bitsOf [1, 0, 1] ∧ t.demLen = 3#32 ∧ t.pdLenx = true := by
  decide +kernel

/-- R181 by hand, before any bit is dropped: `x1[31] = x1[3] + x1[0] = 1`, `x2[31] = x2[3] + x2[2] + x2[1] + x2[0] = 1`,
`x1[32] = 0`, `x2[32] = x2[4] + x2[3] + x2[2] + x2[1] = 0` for the seed whose bits 7:0 are `01111000`. -/
theorem test_gold_first_feedback :
    (goldBits goldPolyDefault 1#31 (seedOf 0x12345678#32) 33).drop 31 = [false, false] := by decide +kernel
/-- R180: an empty stream; 95 V45: bit 31 of the seed is not used -/
theorem test_dscr_empty :
    let t := after .dscr { blank with dscLen := 5#32 }
    t.dscLen = 0#32 ∧ statusWord t = 2#32 ∧ seedOf 0x92345678#32 = seedOf 0x12345678#32 := by
  decide +kernel

/-- 95 V47: 19 bits -/
theorem test_pack_19 :
    let t := after .pack { blank with dscLen := 19#32, dsc := [(0, 0x01#8), (1, 0x80#8), (2, 0x07#8)], crcCalc := 5#16 }
    t.bytes .frm 0 2 = [0x80#8, 0x01#8] ∧ t.frmLen = 2#32 ∧ t.res = .phase ∧ t.crcCalc = 0#16 := by
  decide +kernel
/-- 95 V47: 7 bits -/
theorem test_pack_7 : (after .pack { blank with dscLen := 7#32 }).frmLen = 0#32 := by decide +kernel

/-- R155: a short frame ends with `PHASE` after one attempt -/
theorem test_pdat_short :
    let t := after (.pdat 1#2) { sixPoints with symCount := 4#32 }
    statusWord t = 0x00000052#32 ∧ pdStatWord t = 0x00000019#32 ∧ t.frmLen = 1#32 := by
  decide +kernel
/-- R158: a short frame ends with `PHASE` after four attempts -/
theorem test_pdec_empty :
    let t := after .pdec blank
    statusWord t = 0x00000052#32 ∧ pdStatWord t = 0x0000004B#32 := by
  decide +kernel

/-- 95 V46 -/
theorem test_crc16_digits :
    crc16 [0x31#8, 0x32#8, 0x33#8, 0x34#8, 0x35#8, 0x36#8, 0x37#8, 0x38#8, 0x39#8] = 0x7109#16 := by decide +kernel
/-- 95 V46: `FRM_LEN = 90` -/
theorem test_crcc_range : statusWord (after .crcc { State.reset with frmLen := 90#32 }) = 0x00000022#32 := by
  decide +kernel

/-! ### Host port and steps -/

/-- 95 V49, item 1 -/
theorem test_frame_byte_order :
    (afterAct (.bufWrite .frm 0 0x23021058#32) State.reset).bytes .frm 0 4 = [0x58#8, 0x10#8, 0x02#8, 0x23#8] := by
  decide +kernel
/-- 95 V49, item 2 -/
theorem test_bit_space_word :
    (afterAct (.bufWrite .raw 0 0x00000005#32) State.reset).bits .raw 0 4 = [true, false, true, false] := by
  decide +kernel
/-- 95 V49, item 3 -/
theorem test_symbol_word :
    ((afterAct (.bufWrite .sym 3 0xBF800000#32) State.reset).sample .sym 1).im = 0xBF800000#32 := by decide +kernel
/-- 95 V49, item 4 -/
theorem test_busy_write_dropped :
    let t := afterAct (.regWrite 0x00C 7#32) { State.reset with busy := true }
    t.capLen = 0#32 ∧ t.ovr = true := by decide
/-- 95 V49, item 6 -/
theorem test_read_only_write_ignored :
    let t := afterAct (.regWrite 0x028 5#32) State.reset
    t.bdNcand = 0#2 ∧ t.ovr = false := by decide
/-- R39: a reserved offset reads 0 -/
theorem test_reserved_reads_zero : (afterAct (.regRead 0x054) { State.reset with busData := 9#32 }).busData = 0#32 := by
  decide
/-- R24: the flags' places -/
theorem test_status_bits :
    statusWord { State.reset with busy := true, ovr := true, res := .noburst } = 0x00000075#32 := by decide

/-- What a step leaves. -/
def afterStep (s : State) : State :=
  match Sys2Proof.Machine.step s with
  | .next t => t
  | _ => s

/-- 95 V48: a step accepts the command word 2, the next one completes it with `ILLCMD`. -/
theorem test_accept_then_complete :
    let t := afterStep { State.reset with host := [.regWrite 0 2#32] }
    t.cmd = 2#32 ∧ t.busy = true ∧ statusWord (afterStep t) = 0x00000012#32 := by decide

/-- The word 1 placed where the next step runs it is `CLR`. -/
theorem test_fetch_word :
    let t := afterStep (State.withFetchWord { State.reset with burLen := 3#32 } 32 1)
    t.burLen = 0#32 ∧ statusWord t = 2#32 := by decide

/-- R196: longitude of program P1 -/
theorem test_field_longitude :
    FrameField.longitude.value (List.replicate 23 0#8 ++ [0xB2#8, 0xA1#8, 0x1A#8, 0x00#8]) = 1745330 := by decide
/-- R196: a negative field -/
theorem test_field_negative : FrameField.vEast.value (List.replicate 37 0#8 ++ [0xFB#8, 0xFF#8]) = -5 := by decide

/-! ### Obligations with hypotheses: a state and operands that meet them -/

theorem witness_ConstantsAreTheSpecs : 0 < 16 ∧ 15 < 16 := by decide

theorem witness_DecodeInvertsEncode : (Instr.bdet .video true true).wellFormed = true := by decide

theorem witness_EncodeInvertsDecode : decode 0x00000F10#32 = .ok (.bdet .video true true) := by decide

theorem witness_DecodeFollowsOpcodeTable :
    decode 0x00000F10#32 = .ok (.bdet .video true true) ∧
    (opcodeRow (.bdet .droneid false false) ∈ opcodeRows ∧
      (opcodeRow (.bdet .droneid false false)).selects 0x00000F10#32 = true) ∧
    (opcodeRow .crcc ∈ opcodeRows ∧ (opcodeRow .crcc).selects 0x00000040#32 = true) := by decide

theorem witness_StepRunsDecodedCommand :
    let s : State := { State.reset with busy := true, cmd := 0x00000334#32, host := [.regRead 0x0C0] }
    let t : State := { State.reset with busy := true, cmd := 0x00000334#32, delay := 7 }
    (s.busy = true ∧ s.delay = 0 ∧ decode s.cmd = .ok (.pdat 3#2)) ∧
      (t.busy = true ∧ t.host = [] ∧ decode t.cmd = .ok (.pdat 3#2)) := by decide

theorem witness_IdleCmdWriteIsAccepted :
    let s : State := { State.reset with done := true, host := [.regWrite 0 0x35#32, .wait] }
    s.busy = false ∧ s.host = .regWrite 0 0x35#32 :: [.wait] := by decide

theorem witness_IllegalWordCompletesIllcmd :
    let s : State := { State.reset with host := [.regWrite 0 0x00000131#32, .regRead 4] }
    s.busy = false ∧ s.host = .regWrite 0 0x00000131#32 :: [.regRead 4] ∧ ∀ r ∈ opcodeRows, r.selects 0x00000131#32 = false := by
  decide

/-- Five actions, each part of the interface, one of them on the bus. -/
theorem witness_CommandInFlightCompletes :
    let s : State :=
      { State.reset with
        busy := true, cmd := 0x35#32, delay := 2
        host := [.regRead 4, .regWrite 0x00C 7#32, .bufWrite .raw 0 1#32, .memRead 0xFFFC 4, .wait] }
    s.busy = true ∧ ∀ a ∈ s.host, a.wellFormed = true ∧ a ≠ .reset := by decide

theorem witness_QualifiesIsDurationWindow : 0 < 15360000 := by decide

/-- A region that touches the start of the capture and its end. -/
theorem witness_SpanIsGuardedAndClamped : 0 ≤ 99 ∧ 64 * (99 + 1) ≤ 6400 := by decide

theorem witness_BdetFillsCandidateTable :
    let s : State := { State.reset with capLen := 1#32, capRate := 15360000#32 }
    s.capLen.toNat ≤ Config.capDepth ∧ s.capRate ≠ 0#32 :=
  ⟨capDepth_bounds.1, by decide⟩

theorem witness_BdetSkipBwDropsNothing :
    let s : State := { State.reset with capLen := 1#32, capRate := 0xFFFFFFFF#32 }
    s.capLen.toNat ≤ Config.capDepth ∧ s.capRate ≠ 0#32 :=
  ⟨capDepth_bounds.1, by decide⟩

/-- The empty slice at the end of the capture is legal (95 V41). -/
theorem witness_CfoeReportsEstimate :
    let s : State := { State.reset with capLen := 1#32, capRate := 1#32, cfoStart := 1#32, cfoEnd := 1#32 }
    s.capLen.toNat ≤ Config.capDepth ∧ s.capRate ≠ 0#32 ∧ s.cfoStart.toNat ≤ s.cfoEnd.toNat ∧
      s.cfoEnd.toNat ≤ s.capLen.toNat :=
  ⟨capDepth_bounds.1, by decide, by decide, by decide⟩

theorem witness_SymbolFrameIsStored :
    let groups : List (List Sample) := [[⟨0x3F800000#32, 0xBF800000#32⟩, ⟨0#32, 0x80000000#32⟩]]
    groups.length ≤ Config.maxGroups ∧ groups.flatten.length ≤ Config.symDepth ∧ groups[0]? ≠ none :=
  ⟨maxGroups_bounds.1, Nat.le_trans (by decide : 2 ≤ 706) symDepth_bounds.1, by decide⟩

theorem witness_SxtrStoresSymbolFrame :
    ({ State.reset with burLen := 1#32 } : State).burLen.toNat ≤ Config.burDepth := burDepth_bounds.1

theorem witness_QmapMapsEveryPoint :
    ({ State.reset with symCount := 706#32 } : State).symCount.toNat ≤ Config.symDepth := symDepth_bounds.1

theorem witness_RdmReadsPermutedStream :
    ({ State.reset with rawLen := 1412#32 } : State).rawLen.toNat ≤ 2 * Config.symDepth := by
  have := symDepth_bounds.1
  show 1412 ≤ 2 * Config.symDepth
  omega

theorem witness_DematchIsPermutation :
    ((cellsByColumn (rdmRows 33)).filter (fun cell => rdmDummyAlt 33 cell.1 cell.2)).length = 32 * rdmRows 33 - 33 := by
  decide +kernel

theorem witness_DefaultDematchReadsRowByRow :
    ({ State.reset with rawLen := 33#32 } : State).rawLen.toNat ≤ 2 * Config.symDepth ∧
      (dematchPerm rdmDummyDefault 33)[32]? = some 31 := by
  have := symDepth_bounds.1
  refine ⟨?_, by decide +kernel⟩
  show 33 ≤ 2 * Config.symDepth
  omega

theorem witness_DscrXorsGoldSequence :
    ({ State.reset with demLen := 1412#32 } : State).demLen.toNat ≤ 2 * Config.symDepth := by
  have := symDepth_bounds.1
  show 1412 ≤ 2 * Config.symDepth
  omega

theorem witness_GoldSeedsDifferInEveryWindow :
    (5 ≤ 8) ∧ ((0x12345678#31 ≠ 0x12345679#31) ∧ 33 + 31 ≤ 64) ∧ (State.reset.demLen.toNat ≤ 2 * Config.symDepth) :=
  ⟨by decide, by decide, Nat.zero_le _⟩

theorem witness_PackMakesBytes :
    ({ State.reset with dscLen := 1412#32 } : State).dscLen.toNat ≤ 2 * Config.symDepth := by
  have := symDepth_bounds.1
  show 1412 ≤ 2 * Config.symDepth
  omega

theorem witness_PdatIsTheMicroCommands :
    ({ State.reset with symCount := 364#32 } : State).symCount.toNat ≤ Config.symDepth :=
  Nat.le_trans (by decide : 364 ≤ 706) symDepth_bounds.1

theorem witness_PdecTriesHypothesesInOrder :
    ({ State.reset with symCount := 706#32 } : State).symCount.toNat ≤ Config.symDepth := symDepth_bounds.1

theorem witness_PdecStopsAtHypothesisZero :
    let s : State := { State.reset with symCount := 364#32 }
    (∀ frame, defaultParams.struct frame = true) ∧ 364 ≤ s.symCount.toNat ∧ s.symCount.toNat ≤ Config.symDepth :=
  ⟨fun _ => rfl, by decide, Nat.le_trans (by decide : 364 ≤ 706) symDepth_bounds.1⟩

theorem witness_PdecFailsAfterFourAttempts :
    ({ State.reset with symCount := 363#32 } : State).symCount.toNat < 364 := by decide

/-- One point, `(1.0, -1.0)` in one state and `(0.5, -2.0)` in the other; the seeds differ in bit 31. -/
theorem witness_PdecReadsOnlySignBits :
    let s : State :=
      { State.reset with
        symCount := 1#32, sym := Memory.putWords .sym [] 0 [0x3F800000#32, 0xBF800000#32] }
    let t : State :=
      { State.reset with
        symCount := 1#32, goldSeed := 0x92345678#32
        sym := Memory.putWords .sym [] 0 [0x3F000000#32, 0xC0000000#32] }
    s.symCount.toNat ≤ Config.symDepth ∧ t.symCount = s.symCount ∧
      t.goldSeed.extractLsb' 0 31 = s.goldSeed.extractLsb' 0 31 ∧
      (∀ k, k < s.symCount.toNat → (t.sample .sym k).re.getLsbD 31 = (s.sample .sym k).re.getLsbD 31 ∧
        (t.sample .sym k).im.getLsbD 31 = (s.sample .sym k).im.getLsbD 31) := by
  refine ⟨Nat.le_trans (by decide : 1 ≤ 706) symDepth_bounds.1, rfl, by decide, fun k hk => ?_⟩
  obtain rfl : k = 0 := by simpa using hk
  decide +kernel

theorem witness_CrccComparesChecksums :
    let s : State := { State.reset with frmLen := 91#32 }
    91 ≤ s.frmLen.toNat ∧ s.frmLen.toNat ≤ 2 * Config.symDepth / 8 := by
  have := symDepth_bounds.1
  refine ⟨by decide, ?_⟩
  show 91 ≤ 2 * Config.symDepth / 8
  omega

theorem witness_CrcDetectsSingleBitFlip : 7 < 8 := by decide

theorem witness_FrameFieldsFillFrame : frameFields[22]? = some .crc ∧ frameFields[0]? = some .pktLen := by decide

theorem witness_BusyWritesAreDropped :
    let s : State := { State.reset with busy := true }
    s.busy = true ∧
      (∃ off v, HostAction.regWrite 0xFC 1#32 = .regWrite off v ∧ off % 4 = 0 ∧ off < 256 ∧ off ≠ 4) ∧
      (∃ off v, HostAction.regWrite 0 1#32 = .regWrite off v ∧ off % 4 = 0 ∧ off < 256 ∧ off ≠ 4) ∧
      (∃ sp w v, HostAction.bufWrite .frm 0 1#32 = .bufWrite sp w v) :=
  ⟨rfl, ⟨0xFC, 1#32, rfl, by decide⟩, ⟨0, 1#32, rfl, by decide⟩, ⟨.frm, 0, 1#32, rfl⟩⟩

/-- The first and the last offset, `STATUS`, a register and a reserved offset. -/
theorem witness_ReadsHaveNoSideEffect :
    (0 % 4 = 0 ∧ 0 < 256) ∧ (0xFC % 4 = 0 ∧ 0xFC < 256) ∧ (4 % 4 = 0 ∧ 4 < 256) ∧ State.reset.busy = false ∧
      Reg.crcStat.offset = 0xCC ∧ regAt 0xD0 = none := by decide

/-- The first reserved word inside the candidate table and the first above the registers. -/
theorem witness_RegisterMapFollowsSummary : (0x054 % 4 = 0 ∧ 0x054 < 256) ∧ (0x0D0 % 4 = 0 ∧ 0x0D0 < 256) := by decide

theorem witness_BufferWriteThenRead : State.reset.busy = false := by decide

theorem witness_WordsHoldElements : 31 < 32 ∧ 3 < 4 ∧ capacityBits .raw ≤ 32 * Config.symDepth + 31 := by
  refine ⟨by decide, by decide, ?_⟩
  rw [capacityBits_raw]
  omega

/-- A read-write register, `CTRL`, a read-only register and a reserved offset. -/
theorem witness_IdleRegisterWrite :
    State.reset.busy = false ∧
      (Reg.frmLen.offset % 4 = 0 ∧ Reg.frmLen.offset < 256 ∧ Reg.frmLen.offset ≠ 0 ∧ Reg.frmLen.offset ≠ 4) ∧
      (Reg.ctrl.offset % 4 = 0 ∧ Reg.ctrl.offset < 256 ∧ Reg.ctrl.offset ≠ 0 ∧ Reg.ctrl.offset ≠ 4) ∧
      (Reg.crcStat.offset % 4 = 0 ∧ Reg.crcStat.offset < 256 ∧ Reg.crcStat.offset ≠ 0 ∧ Reg.crcStat.offset ≠ 4) ∧
      (0xFC % 4 = 0 ∧ 0xFC < 256 ∧ 0xFC ≠ 0 ∧ 0xFC ≠ 4) := by decide

theorem witness_IrqFollowsDoneAndEnable :
    let s : State := { State.reset with done := true, ie := true }
    s.irq = true ∧ s.busy = false ∧ (2#32).getLsbD 1 = true ∧ (0#32).getLsbD 0 = false := by decide

theorem witness_BusMapReachesEveryWindow :
    (0xFC % 4 = 0 ∧ 0xFC < 256) ∧ 0 < (capacityBits .glen + 31) / 32 ∧
      (Window.registers ∈ windows ∧ Window.buffer .frm ∈ windows ∧ Window.registers ≠ Window.buffer .frm) := by
  have := maxGroups_bounds.1
  refine ⟨by decide, ?_, by decide⟩
  rw [capacityBits_glen]
  omega

/-- A word-aligned address above every window, whatever the bases. -/
theorem witness_AccessesOutsideTheInterface :
    ((4 ≠ 4 ∨ 0x102 % 4 ≠ 0) ∧ (2 ≠ 4 ∨ 0x100 % 4 ≠ 0)) ∧
      ∃ addr, addr % 4 = 0 ∧ ∀ x ∈ windows, inWindow addr x = false := by
  refine ⟨by decide, 4 * (windows.map (fun x => windowBase x + windowBytes x)).sum, by omega, fun x hx => ?_⟩
  have h : windowBase x + windowBytes x ≤ (windows.map (fun x => windowBase x + windowBytes x)).sum :=
    List.le_sum_of_mem (List.mem_map.2 ⟨x, hx, rfl⟩)
  simp only [inWindow, Bool.and_eq_false_iff, decide_eq_false_iff_not]
  right
  omega

theorem witness_IdleBlockHoldsState : State.reset.busy = false ∧ State.reset.host = [] := by decide

/-- A stream of one byte, descrambled, and a state that holds the result as its stream. -/
theorem witness_DscrTwiceRestores :
    ∃ s t u : State, s.demLen = 8#32 ∧ s.demLen.toNat ≤ 2 * Config.symDepth ∧ exec .dscr s = .next t ∧
      u.goldSeed = s.goldSeed ∧ u.demLen = s.demLen ∧
      (∀ i, i < s.demLen.toNat → u.bit .dem i = t.bit .dsc i) := by
  have hd := symDepth_bounds.1
  let s : State := { State.reset with demLen := 8#32, rawLen := 8#32, dem := [(0, 0x5A#8)] }
  have h8 : s.demLen.toNat = 8 := rfl
  have h0 : ¬ dscrOutOfRange s = true := by rw [dscrOutOfRange_iff]; omega
  refine ⟨s, (descramble implParams.poly s).complete .ok, storeDem (((descramble implParams.poly s).complete .ok).bits .dsc 0 8) s,
    rfl, by omega, exec_dscr_body h0, storeDem_goldSeed _ s, storeDem_demLen _ s, fun i hi => ?_⟩
  generalize (descramble implParams.poly s).complete .ok = t
  have hb := State.bits_getElem? t .dsc (a := 0) (b := 8) (k := i) (by omega)
  rw [Nat.zero_add] at hb
  exact bit_storeDem (by rw [State.bits_length]; omega) hb

/-- Eighty-nine zero bytes and their checksum. -/
theorem witness_AppendedCrcVerifies :
    ∃ s : State, 91 ≤ s.frmLen.toNat ∧ s.frmLen.toNat ≤ 2 * Config.symDepth / 8 ∧
      s.byte .frm 89 = (crc16 ((List.range 89).map (s.byte .frm))).extractLsb' 0 8 ∧
      s.byte .frm 90 = (crc16 ((List.range 89).map (s.byte .frm))).extractLsb' 8 8 := by
  have hd := symDepth_bounds.1
  generalize hc : crc16 (List.replicate 89 0#8) = c
  let bytes : List Byte := List.replicate 89 0#8 ++ [c.extractLsb' 0 8, c.extractLsb' 8 8]
  have hlen : bytes.length ≤ 2 * Config.symDepth / 8 := by
    show 91 ≤ 2 * Config.symDepth / 8
    omega
  have hl : (storeFrm bytes { State.reset with dscLen := 728#32 }).frmLen.toNat = 91 := by
    rw [storeFrm_frmLen]; rfl
  have hb : ∀ k b, bytes[k]? = some b → (storeFrm bytes { State.reset with dscLen := 728#32 }).byte .frm k = b :=
    fun k b hk => byte_storeFrm hlen hk
  generalize storeFrm bytes { State.reset with dscLen := 728#32 } = s at hl hb
  have hp : (List.range 89).map (s.byte .frm) = List.replicate 89 0#8 := by
    apply List.ext_getElem
    · simp
    · intro k h1 h2
      rw [List.getElem_map, List.getElem_range, List.getElem_replicate]
      apply hb
      simp only [List.length_map, List.length_range] at h1
      rw [List.getElem?_append_left (by simpa using h1), List.getElem?_replicate, if_pos h1]
  refine ⟨s, by omega, by omega, ?_, ?_⟩
  · rw [hp, hc]; exact hb 89 _ rfl
  · rw [hp, hc]; exact hb 90 _ rfl

/-- A command in flight on a stream of three bits, and the step that completes it. -/
theorem witness_StepKeepsInv :
    ∃ s t : State, s.busy = true ∧ s.raw ≠ [] ∧ Inv s ∧ Sys2Proof.Machine.step s = .next t := by
  have hd := symDepth_bounds.1
  let s : State := { State.reset with busy := true, cmd := 0x31#32, rawLen := 3#32, raw := [(0, 5#8)] }
  have h0 : ¬ rdmOutOfRange s = true := by
    rw [rdmOutOfRange_iff]
    show ¬ 2 * Config.symDepth < 3
    omega
  have hs : Sys2Proof.Machine.step s = .next ((dematch implParams.dummy s).complete .ok) := by
    rw [step_block rfl, blockStep_ok (i := .rdm) (by decide)]
    exact exec_rdm_body h0
  refine ⟨s, _, rfl, by decide, ?_, hs⟩
  refine ⟨fun sp => ?_, fun _ => rfl, Nat.le_refl _, fun i hi => absurd hi (Nat.not_lt_zero i), fun i _ _ => ?_,
    fun _ => rfl, fun h => absurd h (by decide), by decide⟩
  · cases sp with
    | raw =>
      refine ⟨by simp [State.mem, s], fun c hm => ?_⟩
      obtain rfl : c = (0, 5#8) := by simpa [State.mem, s] using hm
      refine ⟨by rw [capacityBits_raw]; omega, ?_⟩
      rw [byteMask_full (by rw [capacityBits_raw]; omega)]
      decide
    | _ => exact Memory.wf_nil _
  · unfold State.cand
    split
    · rfl
    · split <;> rfl

end Sys2Proof.Tests
end

section
/-! PROOFS. The constants of 00_scope.md R7. -/

namespace Sys2Proof.Proofs.Scope

open Sys2Proof Sys2Proof.Machine

/-- R191 takes the low 16 coefficients of `CRC_POLY` in reverse order: the leading coefficient is dropped first. -/
theorem crcPolyReversed_eq_reverse : crcPolyReversed = (crcPoly.setWidth 16).reverse := by decide

theorem getLsbD_crcPolyReversed {i : Nat} (hi : i < 16) :
    crcPolyReversed.getLsbD i = crcPoly.getLsbD (15 - i) := by
  have hlow : 15 - i < 16 := by omega
  rw [crcPolyReversed_eq_reverse, BitVec.getLsbD_reverse, BitVec.getMsbD_eq_getLsbD, BitVec.getLsbD_setWidth]
  simp [hi, hlow]

/-- The hypotheses `PDEC` tries are the `N_HYP` numbers from 0, in order. -/
theorem hypotheses_toNat : hypotheses.map BitVec.toNat = List.range nHyp := by decide

/-- Settles O1: each constant is its definition's value; the clause on the CRC step's constant is the reversal of
`CRC_POLY`'s low coefficients. -/
theorem constantsAreTheSpecs : Obligations.ConstantsAreTheSpecs :=
  ⟨rfl, rfl, rfl, rfl,
    -- the duration windows
    rfl, rfl, rfl, rfl, rfl,
    -- `CANON_RATE` to `FRAME_LEN`
    rfl, rfl, hypotheses_toNat, rfl, rfl, rfl, rfl, rfl, rfl,
    -- the CRC
    rfl, rfl, fun _ => getLsbD_crcPolyReversed⟩

end Sys2Proof.Proofs.Scope
end

section
/-! PROOFS. What the commands write (10_state.md R40, R41; 20_memory.md R74): every command ends with `RANGE` or with
its body, and each body keeps what it does not write. -/

namespace Sys2Proof.Proofs.Commands

open Sys2Proof Sys2Proof.Machine

/-- What a command leaves when its range check passes (30_encoding.md R97); `NOP` and `CLR` have no check. -/
def commandBody : Instr → State → State
  | .nop, s => s.complete .ok
  | .clr, s => clr s
  | .bdet ptype legacy skipBw, s => bdetBody ptype legacy skipBw s
  | .cfoe skipBw, s => cfoeBody skipBw s
  | .sxtr skipZc, s => sxtrBody skipZc s
  | .qmap h, s => (mapBits implParams.lut h s).complete .ok
  | .rdm, s => (dematch implParams.dummy s).complete .ok
  | .dscr, s => (descramble implParams.poly s).complete .ok
  | .pack, s => completeByFrame (packBytes implParams.struct s)
  | .pdat h, s => pdatBody implParams h s
  | .pdec, s => pdecBody implParams s
  | .crcc, s => completeByCrc (checkCrc s)

/-- The two things any command can do. -/
theorem exec_range_or_body (i : Instr) (s : State) :
    exec i s = .next (s.complete .range) ∨ exec i s = .next (commandBody i s) := by
  have byCheck {check : Bool} (hr : check = true → exec i s = .next (s.complete .range))
      (hb : ¬ check = true → exec i s = .next (commandBody i s)) :
      exec i s = .next (s.complete .range) ∨ exec i s = .next (commandBody i s) :=
    (Decidable.em (check = true)).imp hr hb
  cases i with
  | nop => exact .inr (exec_nop s)
  | clr => exact .inr (exec_clr s)
  | bdet ptype legacy skipBw => exact byCheck (exec_bdet_range ptype legacy skipBw) (exec_bdet_body ptype legacy skipBw)
  | cfoe skipBw => exact byCheck (exec_cfoe_range skipBw) (exec_cfoe_body skipBw)
  | sxtr skipZc => exact byCheck (exec_sxtr_range skipZc) (exec_sxtr_body skipZc)
  | qmap h => exact byCheck (exec_qmap_range h) (exec_qmap_body h)
  | rdm => exact byCheck exec_rdm_range exec_rdm_body
  | dscr => exact byCheck exec_dscr_range exec_dscr_body
  | pack => exact byCheck exec_pack_range exec_pack_body
  | pdat h => exact byCheck (exec_pdat_range h) (exec_pdat_body h)
  | pdec => exact byCheck exec_pdec_range exec_pdec_body
  | crcc => exact byCheck exec_crcc_range exec_crcc_body

/-- The registers a command writes beside `STATUS` (R40 and each command's Writes line); `CLR`, which writes every
register but `CMD`, is not described here. -/
def writtenRegs : Instr → List Reg
  | .nop => []
  | .clr => []
  | .bdet _ _ _ => [.bdNfound, .bdNcand, .bdLastoff] ++ candWords.map .cand0 ++ candWords.map .cand1
      ++ candWords.map .cand2
  | .cfoe _ => [.cfoOffset, .cfoStat]
  | .sxtr _ => [.sxNgrp, .symCount]
  | .qmap _ => [.rawLen, .pdStat]
  | .rdm => [.demLen, .pdStat]
  | .dscr => [.dscLen]
  | .pack => [.frmLen, .pdStat, .crcCalc, .crcRx, .crcStat]
  | .pdat _ => [.rawLen, .demLen, .dscLen, .frmLen, .pdStat, .crcCalc, .crcRx, .crcStat]
  | .pdec => [.rawLen, .demLen, .dscLen, .frmLen, .pdStat, .crcCalc, .crcRx, .crcStat]
  | .crcc => [.crcCalc, .crcRx, .crcStat]

/-- The buffer spaces a command writes (R41, R74). -/
def writtenSpaces : Instr → List Space
  | .nop => []
  | .clr => []
  | .bdet _ _ _ => []
  | .cfoe _ => []
  | .sxtr _ => [.sym, .glen]
  | .qmap _ => [.raw]
  | .rdm => [.dem]
  | .dscr => [.dsc]
  | .pack => [.frm]
  | .pdat _ => [.raw, .dem, .dsc, .frm]
  | .pdec => [.raw, .dem, .dsc, .frm]
  | .crcc => []

/-- Completing at once changes nothing but `STATUS`. -/
theorem completesKeeping_self (c : ResultCode) (regs : List Reg) (spaces : List Space) (s : State) :
    CompletesKeeping c regs spaces s (s.complete c) :=
  completesKeeping_complete c (.refl regs s) (.refl spaces s) rfl (.refl s)

theorem sxtrBody_keeping (skipZc : Bool) (s : State) :
    ∃ code, CompletesKeeping code [.sxNgrp, .symCount] [.sym, .glen] s (sxtrBody skipZc s) := by
  obtain ⟨groups, -, -, hb⟩ | ⟨-, hb⟩ := sxtrBody_cases skipZc s <;> rw [hb]
  · exact ⟨_, completesKeeping_complete .ok (keepsRegs_storeSymbols groups s) (keepsBytes_storeSymbols groups s)
      (by simp [storeSymbols]) (keepsPort_storeSymbols groups s)⟩
  · exact ⟨_, completesKeeping_complete .symx (keepsRegs_storeCounts 0 0 s) (keepsBytes_storeCounts _ 0 0 s) rfl
      (keepsPort_storeCounts 0 0 s)⟩

theorem completeByFrame_keeping {regs : List Reg} {spaces : List Space} {s u : State} (hr : KeepsRegs regs s u)
    (hb : KeepsBytes spaces s u) (ho : u.ovr = s.ovr) (hp : KeepsPort s u) :
    ∃ code, CompletesKeeping code regs spaces s (completeByFrame u) := ⟨_, completesKeeping_complete _ hr hb ho hp⟩

theorem completeByCrc_keeping {regs : List Reg} {spaces : List Space} {s u : State} (hr : KeepsRegs regs s u)
    (hb : KeepsBytes spaces s u) (ho : u.ovr = s.ovr) (hp : KeepsPort s u) :
    ∃ code, CompletesKeeping code regs spaces s (completeByCrc u) := ⟨_, completesKeeping_complete _ hr hb ho hp⟩

theorem keepsPort_packBytes (struct : List Byte → Bool) (s : State) : KeepsPort s (packBytes struct s) :=
  (keepsPort_storeFrm _ s).trans (keepsPort_storeVerdict _ _)

theorem keepsPort_checkCrc (s : State) : KeepsPort s (checkCrc s) := keepsPort_storeCrc _ _ s

theorem pdatBody_keeping (p : DecoderParams) (h : BitVec 2) (s : State) :
    ∃ code, CompletesKeeping code [.rawLen, .demLen, .dscLen, .frmLen, .pdStat, .crcCalc, .crcRx, .crcStat]
      [.raw, .dem, .dsc, .frm] s (pdatBody p h s) :=
  completeByFrame_keeping
    ((keepsRegs_attempt p h s).trans ((keepsRegs_storeAttempts 1 _).mono (by decide)))
    ((keepsBytes_attempt p h s).trans (keepsBytes_storeAttempts _ 1 _))
    ((storeAttempts_ovr 1 _).trans (attempt_ovr p h s))
    ((keepsPort_attempt p h s).trans (keepsPort_storeAttempts 1 _))

theorem pdecBody_keeping (p : DecoderParams) (s : State) :
    ∃ code, CompletesKeeping code [.rawLen, .demLen, .dscLen, .frmLen, .pdStat, .crcCalc, .crcRx, .crcStat]
      [.raw, .dem, .dsc, .frm] s (pdecBody p s) := by
  have hregs := keepsRegs_attemptLoop p hypotheses 0 s
  have hbytes := keepsBytes_attemptLoop p hypotheses 0 s
  have hport := keepsPort_attemptLoop p hypotheses 0 s
  have hovr := attemptLoop_ovr p hypotheses 0 s
  obtain ⟨-, hb⟩ | ⟨-, hb⟩ := pdecBody_cases p s <;> rw [hb]
  · exact completeByCrc_keeping (hregs.trans ((keepsRegs_checkCrc _).mono (by decide)))
      (hbytes.trans (keepsBytes_checkCrc _ _)) ((checkCrc_ovr _).trans hovr) (hport.trans (keepsPort_checkCrc _))
  · exact ⟨_, completesKeeping_complete .phase hregs hbytes hovr hport⟩

/-- In range, every command but `CLR` changes no register and no byte beyond its lists. -/
theorem commandBody_keeping {i : Instr} (hi : i ≠ .clr) (s : State) :
    ∃ code, CompletesKeeping code (writtenRegs i) (writtenSpaces i) s (commandBody i s) := by
  cases i with
  | nop => exact ⟨_, completesKeeping_self .ok _ _ s⟩
  | clr => exact absurd rfl hi
  | bdet ptype legacy skipBw => exact ⟨_, completesKeeping_complete _ (keepsRegs_storeCandidates _ _ _ s)
      (keepsBytes_storeCandidates _ _ _ _ s) rfl (keepsPort_storeCandidates _ _ _ s)⟩
  | cfoe skipBw => exact ⟨_, completesKeeping_complete _ (keepsRegs_storeCfo _ _ _ s)
      (keepsBytes_storeCfo _ _ _ _ s) rfl (keepsPort_storeCfo _ _ _ s)⟩
  | sxtr skipZc => exact sxtrBody_keeping skipZc s
  | qmap h => exact ⟨_, completesKeeping_complete _ (keepsRegs_mapBits _ h s) (keepsBytes_mapBits _ h s)
      (mapBits_ovr _ h s) (keepsPort_storeRaw _ h s)⟩
  | rdm => exact ⟨_, completesKeeping_complete _ (keepsRegs_dematch _ s) (keepsBytes_dematch _ s)
      (dematch_ovr _ s) (keepsPort_storeDem _ s)⟩
  | dscr => exact ⟨_, completesKeeping_complete _ (keepsRegs_descramble _ s) (keepsBytes_descramble _ s)
      (descramble_ovr _ s) (keepsPort_storeDsc _ s)⟩
  | pack =>
    exact completeByFrame_keeping (keepsRegs_packBytes _ s) (keepsBytes_packBytes _ s) (packBytes_ovr _ s)
      (keepsPort_packBytes _ s)
  | pdat h => exact pdatBody_keeping _ h s
  | pdec => exact pdecBody_keeping _ s
  | crcc =>
    exact completeByCrc_keeping (keepsRegs_checkCrc s) (keepsBytes_checkCrc _ s) (checkCrc_ovr s)
      (keepsPort_checkCrc s)

/-- Every command but `CLR` completes, and changes no register and no byte beyond its lists. -/
theorem exec_keeping {i : Instr} (hi : i ≠ .clr) (s : State) :
    ∃ code t, exec i s = .next t ∧ CompletesKeeping code (writtenRegs i) (writtenSpaces i) s t := by
  obtain he | he := exec_range_or_body i s
  · exact ⟨.range, _, he, completesKeeping_self .range _ _ s⟩
  · obtain ⟨code, hk⟩ := commandBody_keeping hi s
    exact ⟨code, _, he, hk⟩

/-- `CLR` keeps every buffer byte (R211). -/
theorem keepsBytes_clr (s : State) : KeepsBytes [] s (clr s) :=
  keepsBytes_of_mem (fun sp _ => by simp [clr]) rfl

/-- Settles O12: the lists of `writtenRegs` are the summary's. -/
theorem registerWritesFollowSummary : Obligations.RegisterWritesFollowSummary := by
  intro i s
  by_cases hi : i = .clr
  · subst hi
    exact ⟨clr s, exec_clr s, rfl⟩
  · obtain ⟨code, t, he, -, hregs, -, -⟩ := exec_keeping hi s
    refine ⟨t, he, ?_⟩
    cases i with
    | clr => exact absurd rfl hi
    | _ => exact hregs

/-- Settles O13: the lists of `writtenSpaces` are the table's, and `CLR` keeps every buffer. -/
theorem bufferWritesFollowTable : Obligations.BufferWritesFollowTable := by
  intro i s
  by_cases hi : i = .clr
  · subst hi
    exact ⟨clr s, exec_clr s, keepsBytes_clr s⟩
  · obtain ⟨code, t, he, -, -, hbytes, -⟩ := exec_keeping hi s
    refine ⟨t, he, ?_⟩
    cases i <;> exact hbytes

end Sys2Proof.Proofs.Commands
end

section
/-! PROOFS. The register window (10_state.md R23 to R40): the offsets, the fields in the words, and what the host's
writes store. -/

namespace Sys2Proof.Proofs.Registers

open Sys2Proof Sys2Proof.Machine

/-! ### Fields in words -/

/-- A field of width `w` with zeros above it reads back at bit 0, and the bits above it read 0. -/
theorem extractLsb'_zeroExtend {w n : Nat} (x : BitVec w) :
    (x.zeroExtend (n + w)).extractLsb' 0 w = x ∧ (x.zeroExtend (n + w)).extractLsb' w n = 0#n := by
  constructor
  · ext i hi
    simp [hi]
    omega
  · ext i hi
    simp

/-- One flag in bit 0, zeros above. -/
theorem oneFlag_fields (a : Bool) :
    (0#31 ++ BitVec.ofBool a).getLsbD 0 = a ∧ (0#31 ++ BitVec.ofBool a).extractLsb' 1 31 = 0#31 := by
  revert a; decide

/-- Two flags in bits 1 and 0, zeros above. -/
theorem twoFlags_fields (a b : Bool) :
    (0#30 ++ BitVec.ofBool a ++ BitVec.ofBool b).getLsbD 0 = b ∧
      (0#30 ++ BitVec.ofBool a ++ BitVec.ofBool b).getLsbD 1 = a ∧
      (0#30 ++ BitVec.ofBool a ++ BitVec.ofBool b).extractLsb' 2 30 = 0#30 := by
  revert a b; decide

/-- `PD_STAT` (R37). -/
theorem pdStatWord_fields (s : State) :
    (pdStatWord s).extractLsb' 0 2 = s.pdHyp ∧ (pdStatWord s).getLsbD 2 = s.pdOk ∧
      (pdStatWord s).getLsbD 3 = s.pdLenx ∧ (pdStatWord s).extractLsb' 4 3 = s.pdAtt ∧
      (pdStatWord s).extractLsb' 7 25 = 0#25 := by
  unfold pdStatWord
  generalize s.pdAtt = att
  generalize s.pdLenx = lenx
  generalize s.pdOk = ok
  generalize s.pdHyp = hyp
  revert att lenx ok hyp
  decide

/-- The bits of `STATUS` above the result code (R24). -/
theorem statusWord_high (s : State) : (statusWord s).extractLsb' 8 24 = 0#24 := by
  unfold statusWord
  generalize s.res.bits = r
  generalize s.busy = b
  generalize s.done = d
  generalize s.ovr = o
  revert r b d o
  decide

/-- The words of a candidate-table entry (R32). -/
theorem cand_fields (c : Cand) :
    c.word .start = c.start ∧ c.word .stop = c.stop ∧ c.word .dur = c.dur ∧ c.word .offset = c.offset ∧
      (c.word .flags).getLsbD 0 = c.valid ∧ (c.word .flags).getLsbD 1 = c.forced ∧
      (c.word .flags).extractLsb' 2 30 = 0#30 :=
  ⟨rfl, rfl, rfl, rfl, twoFlags_fields c.forced c.valid⟩

/-- Settles O48: a `STATUS` read answers `statusWord` whether a command runs or not; the other words are their fields
side by side. -/
theorem registerWordsHoldFields : Obligations.RegisterWordsHoldFields := by
  refine ⟨fun s => ?_, fun s => ?_⟩
  · obtain ⟨hbusy, hdone, hovr, hzero, hres⟩ := statusWord_bits s
    refine ⟨_, hostAct_regRead (by decide) s, hbusy, hdone, hovr, hzero, hres.trans ?_, statusWord_high s⟩
    cases s.res <;> rfl
  · refine ⟨oneFlag_fields s.ie, extractLsb'_zeroExtend (n := 30) s.bdNfound,
      extractLsb'_zeroExtend (n := 30) s.bdNcand, twoFlags_fields s.cfoComputable s.cfoFound, ?_, pdStatWord_fields s, extractLsb'_zeroExtend (n := 16) s.crcCalc,
      extractLsb'_zeroExtend (n := 16) s.crcRx, oneFlag_fields s.crcValid⟩
    intro x hx
    obtain rfl | rfl | rfl : x = (Reg.cand0, s.cand0) ∨ x = (Reg.cand1, s.cand1) ∨ x = (Reg.cand2, s.cand2) := by
      simpa using hx
    · exact cand_fields s.cand0
    · exact cand_fields s.cand1
    · exact cand_fields s.cand2

/-! ### Offsets -/

/-- No register has the offset exactly when it is one of R39's: the last three words of each candidate-table entry's
block of eight, and everything from 0x0D0 on. -/
theorem reservedOffsets (k : Nat) (hk : k < 64) :
    (∀ r ∈ allRegs, r.offset ≠ 4 * k) ↔
      4 * k ∈ [0x054, 0x058, 0x05C, 0x074, 0x078, 0x07C, 0x094, 0x098, 0x09C] ∨ 0x0D0 ≤ 4 * k := by
  revert k
  decide

/-- Settles O49: the map is read off the definitions; a word-aligned offset of the window is one of 64. -/
theorem registerMapFollowsSummary : Obligations.RegisterMapFollowsSummary := by
  refine ⟨mem_allRegs, by decide, fun off halign hoff => ?_⟩
  obtain ⟨k, rfl⟩ := Nat.dvd_of_mod_eq_zero halign
  have hall : (∀ r : Reg, r.offset ≠ 4 * k) ↔ ∀ r ∈ allRegs, r.offset ≠ 4 * k :=
    ⟨fun h r _ => h r, fun h r => h r (mem_allRegs r)⟩
  exact hall.trans (reservedOffsets k (by omega))

/-! ### Host writes -/

/-- The registers a host write stores whole (R50); `CTRL` keeps only bit 0. -/
def wordRegs : List Reg :=
  [.capLen, .capRate, .capFreqLo, .capFreqHi, .capTsLo, .capTsHi, .cfoStart, .cfoEnd, .burLen, .sxNgrp, .symCount,
   .goldSeed, .rawLen, .demLen, .dscLen, .frmLen]

theorem reg_storeReg_ctrl (s : State) (v : Word) : (s.storeReg .ctrl v).reg .ctrl = v &&& 1#32 := ctrlWord_eq_and v

theorem reg_storeReg_word (s : State) {r : Reg} (hr : r ∈ wordRegs) (v : Word) : (s.storeReg r v).reg r = v := by
  unfold wordRegs at hr
  fin_cases hr <;> rfl

theorem storeReg_readOnly (s : State) {r : Reg} (hc : r ≠ .ctrl) (hr : r ∉ wordRegs) (v : Word) :
    s.storeReg r v = s := by
  cases r <;> first | rfl | exact absurd rfl hc | exact absurd (by decide) hr

theorem keepsRegs_storeReg (s : State) (r : Reg) (v : Word) : KeepsRegs [r] s (s.storeReg r v) := fun q hq => by
  have hne : q ≠ r := fun e => hq (List.mem_singleton.2 e)
  by_cases hw : r = .ctrl ∨ r ∈ wordRegs
  · obtain rfl | hw := hw
    · cases q <;> first | rfl | exact absurd rfl hne
    · unfold wordRegs at hw
      fin_cases hw <;> cases q <;> first | rfl | exact absurd rfl hne
  · rw [storeReg_readOnly s (fun hc => hw (.inl hc)) fun hr => hw (.inr hr)]

theorem keepsBytes_storeReg (s : State) (r : Reg) (v : Word) : KeepsBytes [] s (s.storeReg r v) :=
  keepsBytes_of_mem (fun sp _ => by cases r <;> rfl) (by cases r <;> rfl)

theorem keepsPort_storeReg (s : State) (r : Reg) (v : Word) : KeepsPort s (s.storeReg r v) := by
  cases r <;> exact .refl s

/-- A write to an idle block reaches the register map, `STATUS` apart (R263). -/
theorem hostAct_regWrite_idle {s : State} {off : Nat} (h : off % 4 = 0 ∧ off < 256) (hs : off ≠ Reg.status.offset)
    (hidle : s.busy = false) (v : Word) : hostAct (.regWrite off v) s = .next (s.regWrite off v) := by
  rw [hostAct_regWrite h, hostRegWrite, if_neg hs, hidle, if_neg Bool.false_ne_true]

theorem regWrite_offset (s : State) {r : Reg} (hcmd : r ≠ .cmd) (hstatus : r ≠ .status) (v : Word) :
    s.regWrite r.offset v = s.storeReg r v := by
  rw [State.regWrite, regAt_offset]
  cases r <;> first | rfl | exact absurd rfl hcmd | exact absurd rfl hstatus

theorem regWrite_reserved (s : State) {off : Nat} (h : ∀ r : Reg, r.offset ≠ off) (v : Word) :
    s.regWrite off v = s := by
  rw [State.regWrite, regAt_eq_none h]

/-- What a register reads after a write to it (R50). -/
theorem reg_storeReg_same (s : State) (r : Reg) (v : Word) : (s.storeReg r v).reg r =
    if r = .ctrl then v &&& 1#32 else if r ∈ wordRegs then v else s.reg r := by
  split
  · next hc => exact hc ▸ reg_storeReg_ctrl s v
  · next hc =>
    split
    · next hr => exact reg_storeReg_word s hr v
    · next hr => rw [storeReg_readOnly s hc hr]

/-- Settles O52: the offset is a register's, which `storeReg` writes, or a reserved one, whose write does nothing. -/
theorem idleRegisterWrite : Obligations.IdleRegisterWrite := by
  intro s off v hidle halign hoff hcmd hstatus
  have hact := hostAct_regWrite_idle ⟨halign, hoff⟩ hstatus hidle v
  by_cases hreg : ∃ r : Reg, r.offset = off
  · obtain ⟨r, rfl⟩ := hreg
    rw [regWrite_offset s (fun e => hcmd (congrArg Reg.offset e)) (fun e => hstatus (congrArg Reg.offset e))] at hact
    refine ⟨_, hact, fun q hq => ?_, fun q hq => ?_, keepsBytes_storeReg s r v, keepsPort_storeReg s r v⟩
    · obtain rfl := Reg.offset_injective hq
      exact reg_storeReg_same s q v
    · exact keepsRegs_storeReg s r v q fun hm => hq (List.mem_singleton.1 hm ▸ rfl)
  · have hreserved : ∀ r : Reg, r.offset ≠ off := fun r hr => hreg ⟨r, hr⟩
    rw [regWrite_reserved s hreserved] at hact
    exact ⟨s, hact, fun r hr => absurd hr (hreserved r), fun _ _ => rfl, .refl _ s, .refl s⟩

theorem keepsRegs_writeStatus (s : State) (v : Word) : KeepsRegs [.status] s (s.writeStatus v) := fun r hr => by
  cases r <;> first | rfl | exact absurd List.mem_cons_self hr

/-- Settles O46: a `STATUS` write is honoured busy or idle, so it is `writeStatus` in every state. -/
theorem statusWriteClearsFlags : Obligations.StatusWriteClearsFlags := fun s v =>
  ⟨s.writeStatus v, hostAct_regWrite (by decide) v s, rfl, rfl, rfl, rfl, keepsRegs_writeStatus s v,
    keepsBytes_of_mem (fun sp _ => State.mem_writeStatus s v sp) rfl, rfl, rfl, rfl, rfl, rfl⟩

end Sys2Proof.Proofs.Registers
end

section
/-! PROOFS. The state invariant of Sys2Proof/Safety.lean: reset has it, and every step keeps it. Each operation has its
own lemma `inv_<operation>`, which names the fields of `Inv` the operation touches and takes the others over from the
state before it. -/

namespace Sys2Proof.Proofs.Invariant

open Sys2Proof Sys2Proof.Machine Sys2Proof.Proofs.Commands

/-! ### Right after reset -/

/-- Zero registers and empty memories: nothing is counted, emitted, valid or attempted. -/
theorem inv_reset : Inv State.reset where
  memories sp := by cases sp <;> exact Memory.wf_nil _
  handshake := fun hb => Bool.noConfusion hb
  counts := Nat.le_refl _
  entries := fun i hi => absurd hi (Nat.not_lt_zero i)
  blanks := fun i _ _ => by unfold State.cand; split <;> [rfl; split <;> rfl]
  cfo := fun _ => rfl
  crc := fun _ => rfl
  attempts := Nat.zero_le _

/-- Settles O58: the base case beside `stepKeepsInv`. -/
theorem resetSatisfiesInv : Obligations.ResetSatisfiesInv := inv_reset

/-! ### Operations that touch no field of the invariant -/

theorem inv_takeAction {s : State} (h : Inv s) (rest : List HostAction) : Inv (s.takeAction rest) := { h with }

theorem inv_dropWrite {s : State} (h : Inv s) : Inv s.dropWrite := { h with }

theorem inv_respond {s : State} (h : Inv s) (v : Word) : Inv (s.respond v) := { h with }

theorem inv_respondFree {s : State} (h : Inv s) : Inv s.respondFree := { h with }

theorem inv_respondOutside {s : State} (h : Inv s) : Inv s.respondOutside := { h with }

theorem inv_storeVerdict {s : State} (h : Inv s) (ok : Bool) : Inv (storeVerdict ok s) := { h with }

theorem inv_storeCounts {s : State} (h : Inv s) (groups points : Nat) : Inv (storeCounts groups points s) :=
  { h with }

/-- The registers the invariant speaks of are read-only to the host (R50). -/
theorem inv_storeReg {s : State} (h : Inv s) (r : Reg) (v : Word) : Inv (s.storeReg r v) := by
  cases r <;> exact { h with }

/-! ### Acceptance, completion, acknowledgement -/

theorem inv_accept {s : State} (h : Inv s) (w : Word) : Inv (s.accept w) := { h with handshake := fun _ => rfl }

theorem inv_complete {s : State} (h : Inv s) (code : ResultCode) : Inv (s.complete code) :=
  { h with handshake := fun hb => Bool.noConfusion hb }

/-- A `STATUS` write can only clear `DONE` (R24). -/
theorem inv_writeStatus {s : State} (h : Inv s) (v : Word) : Inv (s.writeStatus v) :=
  { h with handshake := fun hb => by rw [State.writeStatus_done, h.handshake hb, Bool.false_and] }

/-! ### Operations that write a memory -/

theorem inv_setMem {s : State} (h : Inv s) {sp : Space} {m : Memory} (hm : m.wf sp) : Inv (s.setMem sp m) := by
  have memories : ∀ q, ((s.setMem sp m).mem q).wf q := fun q => by
    rw [State.mem_setMem]
    split
    · next hq => exact hq ▸ hm
    · exact h.memories q
  cases sp <;> exact { h with memories }

theorem inv_putWord {s : State} (h : Inv s) (sp : Space) (w : Nat) (v : Word) : Inv (s.putWord sp w v) :=
  inv_setMem h (Memory.wf_putWord (h.memories sp) w v)

theorem inv_putBits {s : State} (h : Inv s) (sp : Space) (bits : List Bool) : Inv (s.putBits sp bits) :=
  inv_setMem h (Memory.wf_putBits (h.memories sp))

theorem inv_putBytes {s : State} (h : Inv s) (sp : Space) (bytes : List Byte) : Inv (s.putBytes sp bytes) :=
  inv_setMem h (Memory.wf_putBytes (h.memories sp))

theorem inv_putWords {s : State} (h : Inv s) (sp : Space) (words : List Word) : Inv (s.putWords sp words) :=
  inv_setMem h (Memory.wf_putWords (h.memories sp))

theorem inv_storeRaw {s : State} (h : Inv s) (bits : List Bool) (hyp : BitVec 2) : Inv (storeRaw bits hyp s) :=
  { inv_putBits h .raw bits with }

theorem inv_storeDem {s : State} (h : Inv s) (bits : List Bool) : Inv (storeDem bits s) :=
  { inv_putBits h .dem bits with }

theorem inv_storeDsc {s : State} (h : Inv s) (bits : List Bool) : Inv (storeDsc bits s) :=
  { inv_putBits h .dsc bits with }

theorem inv_clearCrc {s : State} (h : Inv s) : Inv s.clearCrc := { h with crc := fun _ => rfl }

theorem inv_storeFrm {s : State} (h : Inv s) (bytes : List Byte) : Inv (storeFrm bytes s) :=
  { inv_putBytes (inv_clearCrc h) .frm bytes with }

theorem inv_storeSymbols {s : State} (h : Inv s) (groups : List (List Sample)) : Inv (storeSymbols groups s) :=
  inv_storeCounts (inv_putWords (inv_putWords h .glen _) .sym _) _ _

/-! ### The registers of `CFOE`, `CRCC` and the attempts -/

theorem inv_storeCfo {s : State} (h : Inv s) {offset : Word} {computable : Bool} (found : Bool)
    (hc : computable = false → offset = 0#32) : Inv (storeCfo offset found computable s) := { h with cfo := hc }

/-- `VALID` is stored as the equality of the two CRC registers (R190). -/
theorem inv_storeCrc {s : State} (h : Inv s) (sum rx : BitVec 16) : Inv (storeCrc sum rx s) :=
  { h with crc := eq_of_beq }

theorem inv_checkCrc {s : State} (h : Inv s) : Inv (checkCrc s) := inv_storeCrc h _ _

theorem inv_storeAttempts {s : State} (h : Inv s) {n : Nat} (hn : n ≤ 4) : Inv (storeAttempts n s) :=
  { h with attempts := by rw [storeAttempts_pdAtt, BitVec.toNat_ofNat, Nat.mod_eq_of_lt (by omega)]; exact hn }

/-! ### The candidate table -/

/-- The maximal runs of a mask that begins at step `t` are not empty and end inside it. -/
theorem regionsFrom_bounds (mask : List Bool) (t : Nat) (start : Option Nat) (hs : ∀ a, start = some a → a < t) :
    ∀ r ∈ regionsFrom mask t start, r.1 ≤ r.2 ∧ r.2 < t + mask.length := by
  fun_induction regionsFrom mask t start with
  | case1 t a =>
    intro r hr
    obtain rfl : r = (a, t - 1) := List.mem_singleton.1 hr
    have := hs a rfl
    simp only [List.length_nil]; omega
  | case2 => simp
  | case3 m t a ih =>
    intro r hr
    have := ih (fun b hb => Nat.lt_succ_of_lt (hs b hb)) r hr
    simp only [List.length_cons]; omega
  | case4 m t ih =>
    intro r hr
    have := ih (fun b hb => by cases hb; exact Nat.lt_succ_self t) r hr
    simp only [List.length_cons]; omega
  | case5 m t a ih =>
    intro r hr
    simp only [List.length_cons]
    rcases List.mem_cons.1 hr with rfl | hr
    · have := hs a rfl
      simp only; omega
    · have := ih (fun _ hb => by cases hb) r hr
      omega
  | case6 m t ih =>
    intro r hr
    have := ih (fun _ hb => by cases hb) r hr
    simp only [List.length_cons]; omega

/-- Every region of a mask is a run `a ≤ b` of its steps (R112). -/
theorem regions_bounds {mask : List Bool} {r : Nat × Nat} (hr : r ∈ regions mask) :
    r.1 ≤ r.2 ∧ r.2 < mask.length := by
  have := regionsFrom_bounds mask 0 none (fun _ ha => by cases ha) r hr
  omega

/-- The mask has one entry for every 64 samples (R111). -/
theorem bdMask_length (samples : List Sample) : (bdMask samples).length = samples.length / 64 := by
  simp [bdMask, timeSteps, stftN]

/-- A collected region lies inside the capture (R112, R114). -/
theorem bdetFound_bounds {ptype : PacketType} {legacy : Bool} {s : State} {r : Nat × Nat}
    (hr : r ∈ bdetFound ptype legacy s) : r.1 ≤ r.2 ∧ 64 * (r.2 + 1) ≤ s.capLen.toNat := by
  have hreg := regions_bounds (List.mem_of_mem_filter (List.mem_of_mem_take hr))
  rw [bdMask_length, State.samples_length] at hreg
  omega

/-- At most `BD_MAXCAND` regions are collected (R114). -/
theorem bdetFound_length (ptype : PacketType) (legacy : Bool) (s : State) : (bdetFound ptype legacy s).length ≤ 3 :=
  List.length_take_le _ _

/-- The span of a region inside a capture of `n` samples is not empty and stays inside it (R115). -/
theorem span_bounds {a b n : Nat} (rate : Nat) (hab : a ≤ b) (hb : 64 * (b + 1) ≤ n) :
    (span a b rate n).1 < (span a b rate n).2 ∧ (span a b rate n).2 ≤ n := by
  simp only [span, stftN]; omega

/-- A region whose span is not empty and fits 32 bits gives an emitted candidate, or none (R117). -/
theorem candidate_emitted {legacy : Bool} {e : Examined} {c : Cand} (hc : candidate legacy e = some c)
    (hspan : e.start < e.stop) (hstop : e.stop < 2 ^ 32) : c.emitted := by
  have hstart : (BitVec.ofNat 32 e.start).toNat = e.start := Nat.mod_eq_of_lt (by omega)
  have hend : (BitVec.ofNat 32 e.stop).toNat = e.stop := Nat.mod_eq_of_lt hstop
  have hdur : (BitVec.ofNat 32 (e.stop - e.start)).toNat = e.stop - e.start := Nat.mod_eq_of_lt (by omega)
  unfold candidate at hc
  split at hc
  · cases hc
    exact ⟨rfl, by rw [hstart, hend]; exact hspan, by rw [hdur, hstart, hend], fun hf => Bool.noConfusion hf⟩
  · split at hc
    · cases hc
      exact ⟨rfl, by rw [hstart, hend]; exact hspan, by rw [hdur, hstart, hend], fun _ => rfl⟩
    · cases hc

theorem bdetOut_emitted {ptype : PacketType} {legacy skipBw : Bool} {s : State} {c : Cand}
    (hc : c ∈ bdetOut ptype legacy skipBw s) : c.emitted := by
  obtain ⟨e, he, hec⟩ := List.mem_filterMap.1 hc
  obtain ⟨r, hr, rfl⟩ := List.mem_map.1 he
  obtain ⟨hab, hb⟩ := bdetFound_bounds hr
  obtain ⟨hlt, hle⟩ := span_bounds s.capRate.toNat hab hb
  exact candidate_emitted hec hlt (Nat.lt_of_le_of_lt hle s.capLen.isLt)

/-- Each collected region gives at most one candidate (R117). -/
theorem bdetOut_length (ptype : PacketType) (legacy skipBw : Bool) (s : State) :
    (bdetOut ptype legacy skipBw s).length ≤ (bdetFound ptype legacy s).length :=
  calc (bdetOut ptype legacy skipBw s).length
      ≤ (bdetExamined ptype legacy skipBw s).length := List.length_filterMap_le _ _
    _ = (bdetFound ptype legacy s).length := List.length_map _

theorem cand_storeCandidates {n : Nat} {lastoff : Word} {out : List Cand} {s : State} {i : Nat} (hi : i < 3) :
    (storeCandidates n lastoff out s).cand i = candEntry out i := by
  match i, hi with
  | 0, _ => rfl
  | 1, _ => rfl
  | 2, _ => rfl

/-- Storing at most three emitted candidates of at least as many regions (R110). -/
theorem inv_storeCandidates {s : State} (h : Inv s) {n : Nat} {out : List Cand} (lastoff : Word) (hn : n ≤ 3)
    (hlen : out.length ≤ n) (hout : ∀ c ∈ out, c.emitted) : Inv (storeCandidates n lastoff out s) := by
  have hfound : (storeCandidates n lastoff out s).bdNfound.toNat = n := Nat.mod_eq_of_lt (by omega)
  have hcand : (storeCandidates n lastoff out s).bdNcand.toNat = out.length := Nat.mod_eq_of_lt (by omega)
  refine { h with counts := by rw [hfound, hcand]; exact hlen, entries := fun i hi => ?_, blanks := fun i hi h3 => ?_ }
  · rw [hcand] at hi
    rw [cand_storeCandidates (by omega), candEntry, List.getElem?_eq_getElem hi]
    exact hout _ (List.getElem_mem hi)
  · rw [hcand] at hi
    rw [cand_storeCandidates h3, candEntry, List.getElem?_eq_none hi, Option.getD_none]

/-! ### The commands -/

theorem inv_bdetBody {s : State} (h : Inv s) (ptype : PacketType) (legacy skipBw : Bool) :
    Inv (bdetBody ptype legacy skipBw s) :=
  inv_complete (inv_storeCandidates h _ (bdetFound_length ptype legacy s) (bdetOut_length ptype legacy skipBw s)
    fun _ hc => bdetOut_emitted hc) _

/-- Where no offset is computable `CfoCall` returns `+0.0` (R132). -/
theorem cfoCall_offset {slice : List Sample} {rate : Word} {skipBw : Bool}
    (hc : (cfoEst slice rate).computable = false) : (cfoCall slice rate skipBw).1 = 0#32 := by
  simp [cfoCall, hc]

theorem inv_cfoeBody {s : State} (h : Inv s) (skipBw : Bool) : Inv (cfoeBody skipBw s) :=
  inv_complete (inv_storeCfo h _ cfoCall_offset) _

theorem inv_sxtrBody {s : State} (h : Inv s) (skipZc : Bool) : Inv (sxtrBody skipZc s) := by
  obtain ⟨groups, -, -, hb⟩ | ⟨-, hb⟩ := sxtrBody_cases skipZc s
  · exact hb ▸ inv_complete (inv_storeSymbols h groups) .ok
  · exact hb ▸ inv_complete (inv_storeCounts h 0 0) .symx

theorem inv_packBytes {s : State} (h : Inv s) (struct : List Byte → Bool) : Inv (packBytes struct s) :=
  inv_storeVerdict (inv_storeFrm h _) _

theorem inv_attempt {s : State} (h : Inv s) (p : DecoderParams) (hyp : BitVec 2) : Inv (attempt p hyp s) :=
  inv_packBytes (inv_storeDsc (inv_storeDem (inv_storeRaw h _ hyp) _) _) p.struct

theorem inv_pdatBody {s : State} (h : Inv s) (p : DecoderParams) (hyp : BitVec 2) : Inv (pdatBody p hyp s) :=
  inv_complete (inv_storeAttempts (inv_attempt h p hyp) (by decide)) _

/-- The loop stops with at most as many attempts as it began with and hypotheses it had to try (R156). -/
theorem inv_attemptLoop (p : DecoderParams) (hyps : List (BitVec 2)) {n : Nat} {s : State} (h : Inv s)
    (hn : n + hyps.length ≤ 4) : Inv (attemptLoop p hyps n s) := by
  induction hyps generalizing n s with
  | nil => exact inv_storeAttempts h hn
  | cons hyp hyps ih =>
    rw [List.length_cons] at hn
    rw [attemptLoop]
    split
    · exact inv_storeAttempts (inv_attempt h p hyp) (by omega)
    · exact ih (inv_attempt h p hyp) (by omega)

theorem inv_pdecBody {s : State} (h : Inv s) (p : DecoderParams) : Inv (pdecBody p s) := by
  have hloop : Inv (attemptLoop p hypotheses 0 s) := inv_attemptLoop p hypotheses h (by decide)
  obtain ⟨-, hb⟩ | ⟨-, hb⟩ := pdecBody_cases p s
  · exact hb ▸ inv_complete (inv_checkCrc hloop) _
  · exact hb ▸ inv_complete hloop .phase

/-- Registers at their reset values satisfy what the invariant says of them (R211). -/
theorem inv_clr {s : State} (h : Inv s) : Inv (clr s) :=
  { inv_reset with
    memories := fun sp => by simpa [clr] using h.memories sp
    handshake := fun hb => Bool.noConfusion hb }

theorem inv_commandBody {s : State} (h : Inv s) (i : Instr) : Inv (commandBody i s) := by
  cases i with
  | nop => exact inv_complete h .ok
  | clr => exact inv_clr h
  | bdet ptype legacy skipBw => exact inv_bdetBody h ptype legacy skipBw
  | cfoe skipBw => exact inv_cfoeBody h skipBw
  | sxtr skipZc => exact inv_sxtrBody h skipZc
  | qmap hyp => exact inv_complete (inv_storeRaw h _ hyp) .ok
  | rdm => exact inv_complete (inv_storeDem h _) .ok
  | dscr => exact inv_complete (inv_storeDsc h _) .ok
  | pack => exact inv_complete (inv_packBytes h _) _
  | pdat hyp => exact inv_pdatBody h _ hyp
  | pdec => exact inv_pdecBody h _
  | crcc => exact inv_complete (inv_checkCrc h) _

/-- Every command, in range and out of range, keeps the invariant. -/
theorem inv_exec {i : Instr} {s t : State} (h : Inv s) (he : exec i s = .next t) : Inv t := by
  obtain hr | hb := exec_range_or_body i s
  · obtain rfl := Host.Outcome.next.inj (hr.symm.trans he)
    exact inv_complete h .range
  · obtain rfl := Host.Outcome.next.inj (hb.symm.trans he)
    exact inv_commandBody h i

/-! ### The host's actions -/

theorem inv_hostRegRead {s : State} (h : Inv s) (off : Nat) : Inv (hostRegRead off s) := by
  unfold hostRegRead
  split
  · exact inv_respond h _
  · split
    · exact inv_respondFree h
    · exact inv_respond h _

theorem inv_regWrite {s : State} (h : Inv s) (off : Nat) (v : Word) : Inv (s.regWrite off v) := by
  unfold State.regWrite
  split
  · next r _ =>
    unfold State.writeReg
    split
    · exact inv_accept h v
    · exact inv_writeStatus h v
    · exact inv_storeReg h r v
  · exact h

theorem inv_hostRegWrite {s : State} (h : Inv s) (off : Nat) (v : Word) : Inv (hostRegWrite off v s) := by
  unfold hostRegWrite
  split
  · exact inv_writeStatus h v
  · split
    · exact inv_dropWrite h
    · exact inv_regWrite h off v

theorem inv_hostBufRead {s : State} (h : Inv s) (sp : Space) (w : Nat) : Inv (hostBufRead sp w s) := by
  unfold hostBufRead
  split
  · exact inv_respondFree h
  · exact inv_respond h _

theorem inv_hostBufWrite {s : State} (h : Inv s) (sp : Space) (w : Nat) (v : Word) : Inv (hostBufWrite sp w v s) := by
  unfold hostBufWrite
  split
  · exact inv_dropWrite h
  · exact inv_putWord h sp w v

theorem inv_hostWait {s : State} (h : Inv s) : Inv (hostWait s) := by
  unfold hostWait
  split
  · exact inv_respond h _
  · exact { h with }

theorem inv_assertReset (s : State) : Inv s.assertReset := { inv_reset with }

theorem inv_hostEffect {s : State} (h : Inv s) (a : HostAction) : Inv (hostEffect a s) := by
  obtain ⟨off, e⟩ | ⟨off, v, e⟩ | ⟨sp, w, e⟩ | ⟨sp, w, v, e⟩ | e | e | e | e := hostEffect_cases a s <;> rw [e]
  · exact inv_hostRegRead h off
  · exact inv_hostRegWrite h off v
  · exact inv_hostBufRead h sp w
  · exact inv_hostBufWrite h sp w v
  · exact inv_respondOutside h
  · exact h
  · exact inv_hostWait h
  · exact inv_assertReset s

/-! ### The two kinds of step -/

theorem inv_blockStep {s t : State} (h : Inv s) (hs : blockStep s = .next t) : Inv t := by
  unfold blockStep at hs
  split at hs
  · exact inv_exec h hs
  · cases hs
    exact inv_complete h .illcmd

theorem inv_hostStep {s t : State} (h : Inv s) (hs : hostStep s = .next t) : Inv t := by
  unfold hostStep at hs
  split at hs
  · cases hs
    exact h
  · next a rest _ =>
    obtain ⟨-, rfl⟩ := hostAct_next hs
    exact inv_hostEffect (inv_takeAction h rest) a

/-- Settles O59: the block's step runs a command, the host's takes one action. -/
theorem stepKeepsInv : Obligations.StepKeepsInv := by
  intro s t h hs
  unfold step at hs
  split at hs
  · exact inv_blockStep h hs
  · exact inv_hostStep h hs

end Sys2Proof.Proofs.Invariant
end

section
/-! PROOFS. The words of the spaces and the host's accesses to them (20_memory.md R61 to R66, R73): what a word holds,
what a read and a write leave alone, and where the bus leads. -/

namespace Sys2Proof.Proofs.HostAccess

open Sys2Proof Sys2Proof.Machine

/-! ### The bus windows -/

theorem mem_windows (x : Window) : x ∈ windows := by
  cases x with
  | registers => decide
  | buffer sp => cases sp <;> decide

theorem inWindow_iff (addr : Nat) (x : Window) :
    inWindow addr x = true ↔ windowBase x ≤ addr ∧ addr < windowBase x + windowBytes x := by
  simp [inWindow]

theorem windowsApart_iff (base : Window → Nat) (x y : Window) : windowsApart base x y = true ↔
    base x + windowBytes x ≤ base y ∨ base y + windowBytes y ≤ base x := by
  simp [windowsApart]

theorem basesAdmissible_iff (base : Window → Nat) : basesAdmissible base = true ↔
    (∀ x, base x % 4 = 0) ∧ ∀ x y, x ≠ y → windowsApart base x y = true := by
  simp [basesAdmissible, mem_windows, or_iff_not_imp_left]

/-- In the packed layout each window ends before every later one begins. -/
theorem packedBase_rising : windows.Pairwise fun x y => packedBase x + windowBytes x ≤ packedBase y := by
  simp only [windows, List.pairwise_cons, List.forall_mem_cons, List.not_mem_nil, false_imp_iff, implies_true,
    List.Pairwise.nil, and_true, packedBase, windowBytes]
  omega

theorem packedBase_aligned (x : Window) : packedBase x % 4 = 0 := by
  cases x with
  | registers => rfl
  | buffer sp => cases sp <;> simp only [packedBase] <;> omega

theorem packedBase_apart {x y : Window} (h : x ≠ y) : windowsApart packedBase x y = true := by
  have hsymm : Std.Symm fun x y => windowsApart packedBase x y = true :=
    ⟨fun x y h => (windowsApart_iff _ y x).2 ((windowsApart_iff _ x y).1 h).symm⟩
  have hall : windows.Pairwise fun x y => windowsApart packedBase x y = true :=
    packedBase_rising.imp fun h => (windowsApart_iff _ _ _).2 (.inl h)
  exact hall.forall (mem_windows x) (mem_windows y) h

/-- The bases in use are admissible: the requested ones are used only where they are, the packed ones always are. -/
theorem windowBase_admissible : basesAdmissible windowBase = true := by
  by_cases hreq : basesAdmissible Config.requestedBase = true
  · rwa [show windowBase = Config.requestedBase from funext fun x => if_pos hreq]
  · rw [show windowBase = packedBase from funext fun x => if_neg hreq]
    exact (basesAdmissible_iff _).2 ⟨packedBase_aligned, fun _ _ => packedBase_apart⟩

theorem windowBase_aligned (x : Window) : windowBase x % 4 = 0 := ((basesAdmissible_iff _).1 windowBase_admissible).1 x

theorem inWindow_disjoint {x y : Window} (h : x ≠ y) {addr : Nat} (hx : inWindow addr x = true) :
    inWindow addr y = false := by
  have hapart := (windowsApart_iff _ _ _).1 (((basesAdmissible_iff _).1 windowBase_admissible).2 x y h)
  rw [inWindow_iff] at hx
  rw [Bool.eq_false_iff, Ne, inWindow_iff]
  omega

/-- The windows being disjoint, the search along the nine finds the one the address lies in. -/
theorem find?_inWindow {addr : Nat} {x : Window} (h : inWindow addr x = true) :
    windows.find? (inWindow addr) = some x := by
  cases hfind : windows.find? (inWindow addr) with
  | none => exact absurd h (List.find?_eq_none.1 hfind x (mem_windows x))
  | some y =>
    by_contra hne
    have hxy : x ≠ y := fun e => hne (e ▸ rfl)
    exact Bool.false_ne_true ((inWindow_disjoint hxy h).symm.trans (List.find?_some hfind))

theorem busTarget_register {off : Nat} (h : off < 256) :
    busTarget (windowBase .registers + off) = some (.register off) := by
  have hin : inWindow (windowBase .registers + off) .registers = true :=
    (inWindow_iff _ _).2 ⟨by omega, by simp only [windowBytes]; omega⟩
  simp [busTarget, find?_inWindow hin]

theorem busTarget_word {sp : Space} {w : Nat} (h : w < spaceWords sp) :
    busTarget (windowBase (.buffer sp) + 4 * w) = some (.word sp w) := by
  have hin : inWindow (windowBase (.buffer sp) + 4 * w) (.buffer sp) = true :=
    (inWindow_iff _ _).2 ⟨by omega, by simp only [windowBytes]; omega⟩
  simp [busTarget, find?_inWindow hin]

/-- At a register's bus address both accesses are those of its offset. -/
theorem hostMem_register {off : Nat} (h : off < 256) (v : Word) (s : State) :
    hostMemRead (windowBase .registers + off) s = hostRegRead off s ∧
      hostMemWrite (windowBase .registers + off) v s = hostRegWrite off v s := by
  rw [hostMemRead, hostMemWrite, busTarget_register h]
  exact ⟨rfl, rfl⟩

theorem hostMem_word {sp : Space} {w : Nat} (h : w < spaceWords sp) (v : Word) (s : State) :
    hostMemRead (windowBase (.buffer sp) + 4 * w) s = hostBufRead sp w s ∧
      hostMemWrite (windowBase (.buffer sp) + 4 * w) v s = hostBufWrite sp w v s := by
  rw [hostMemRead, hostMemWrite, busTarget_word h]
  exact ⟨rfl, rfl⟩

/-- Settles O55: the bases are admissible, so the bus target of an offset inside a window is that offset's register or
word. -/
theorem busMapReachesEveryWindow : Obligations.BusMapReachesEveryWindow := by
  refine ⟨fun x _ => windowBase_aligned x, fun x _ y _ hne addr => inWindow_disjoint hne,
    fun s off v halign hoff => ?_, fun s sp w v hw => ?_⟩
  · have haddr : (windowBase .registers + off) % 4 = 0 := by
      have := windowBase_aligned .registers
      omega
    obtain ⟨hread, hwrite⟩ := hostMem_register hoff v s
    rw [hostAct_memRead haddr, hostAct_memWrite haddr, hread, hwrite]
    exact ⟨(hostAct_regRead ⟨halign, hoff⟩ s).symm, (hostAct_regWrite ⟨halign, hoff⟩ v s).symm⟩
  · have haddr : (windowBase (.buffer sp) + 4 * w) % 4 = 0 := by
      have := windowBase_aligned (.buffer sp)
      omega
    obtain ⟨hread, hwrite⟩ := hostMem_word hw v s
    rw [hostAct_memRead haddr, hostAct_memWrite haddr, hread, hwrite]
    exact ⟨(hostAct_bufRead sp w s).symm, (hostAct_bufWrite sp w v s).symm⟩

/-! ### Buffer writes -/

/-- Bytes outside the word written read as before (R62). -/
theorem byte_putWord_outside (s : State) {sp q : Space} {w a : Nat} (h : q ≠ sp ∨ a / 4 ≠ w) (v : Word) :
    (s.putWord sp w v).byte q a = s.byte q a := by
  by_cases hq : q = sp
  · subst hq
    rw [State.byte, State.mem_putWord, if_pos rfl, Memory.byte_putWord, if_neg (h.resolve_left (· rfl)),
      State.putWord_resets]
    rfl
  · exact State.byte_eq_of_mem (by rw [State.mem_putWord, if_neg hq]) (State.putWord_resets s sp w v) a

theorem word_putWord_outside (s : State) {sp q : Space} {w u : Nat} (h : (q, u) ≠ (sp, w)) (v : Word) :
    (s.putWord sp w v).word q u = s.word q u :=
  State.word_eq_of_bytes fun k hk => byte_putWord_outside s
    (or_iff_not_imp_left.2 fun hq hu => h (Prod.ext (not_not.1 hq) (by simp only; omega))) v

/-- The word written reads back, less its bits beyond the capacity (R62). -/
theorem getLsbD_word_putWord (s : State) (sp : Space) (w : Nat) (v : Word) {j : Nat} (hj : j < 32) :
    ((s.putWord sp w v).word sp w).getLsbD j = (v.getLsbD j && decide (32 * w + j < capacityBits sp)) := by
  rw [State.word, State.mem_putWord, if_pos rfl]
  exact Memory.getLsbD_word_putWord sp _ (s.mem sp) w j v hj

theorem keepsPort_putWord (s : State) (sp : Space) (w : Nat) (v : Word) : KeepsPort s (s.putWord sp w v) :=
  ⟨State.putWord_host s sp w v, State.putWord_busData s sp w v, State.putWord_delay s sp w v,
    State.putWord_draws s sp w v, State.putWord_resets s sp w v⟩

theorem hostBufWrite_idle {s : State} (h : s.busy = false) (sp : Space) (w : Nat) (v : Word) :
    hostBufWrite sp w v s = s.putWord sp w v := by
  rw [hostBufWrite, h, if_neg Bool.false_ne_true]

/-- Settles O50: a buffer write to an idle block is `putWord`, whose reads and frame are the lemmas above. -/
theorem bufferWriteThenRead : Obligations.BufferWriteThenRead := by
  intro s sp w v hidle
  refine ⟨s.putWord sp w v, ?_, fun j hj => getLsbD_word_putWord s sp w v hj, fun q u h => word_putWord_outside s h v,
    fun q a h => byte_putWord_outside s h v, keepsRegs_setMem s sp _, keepsPort_putWord s sp w v⟩
  rw [hostAct_bufWrite, hostBufWrite_idle hidle]

/-! ### Writes while a command runs -/

theorem hostBufWrite_busy {s : State} (h : s.busy = true) (sp : Space) (w : Nat) (v : Word) :
    hostBufWrite sp w v s = s.dropWrite := by
  rw [hostBufWrite, h, if_pos rfl]

theorem hostRegWrite_busy {s : State} (h : s.busy = true) {off : Nat} (hoff : off ≠ Reg.status.offset) (v : Word) :
    hostRegWrite off v s = s.dropWrite := by
  rw [hostRegWrite, if_neg hoff, h, if_pos rfl]

/-- Settles O45: both kinds of write meet `dropWrite`. -/
theorem busyWritesAreDropped : Obligations.BusyWritesAreDropped := by
  rintro s a hbusy (⟨off, v, rfl, halign, hoff, hstatus⟩ | ⟨sp, w, v, rfl⟩)
  · refine ⟨s.dropWrite, ?_, rfl⟩
    rw [hostAct_regWrite ⟨halign, hoff⟩, hostRegWrite_busy hbusy hstatus]
  · refine ⟨s.dropWrite, ?_, rfl⟩
    rw [hostAct_bufWrite, hostBufWrite_busy hbusy]

/-! ### Reads -/

/-- What every host read leaves alone: the registers, the buffers, the pending actions, the time left to the command in
flight and the count of resets. It may change only the word answered and the draw counter. -/
def Undisturbed (s t : State) : Prop :=
  KeepsRegs [] s t ∧ KeepsBytes [] s t ∧ t.host = s.host ∧ t.delay = s.delay ∧ t.resets = s.resets

theorem undisturbed_answer (s : State) (v : Word) (n : Nat) : Undisturbed s { s with busData := v, draws := n } :=
  ⟨fun r _ => by cases r <;> rfl, keepsBytes_of_mem (fun sp _ => by cases sp <;> rfl) rfl, rfl, rfl, rfl⟩

theorem undisturbed_respond (s : State) (v : Word) : Undisturbed s (s.respond v) := undisturbed_answer s v s.draws

theorem undisturbed_respondFree (s : State) : Undisturbed s s.respondFree := undisturbed_answer s _ _

theorem undisturbed_respondOutside (s : State) : Undisturbed s s.respondOutside := undisturbed_answer s _ _

theorem undisturbed_hostRegRead (s : State) (off : Nat) : Undisturbed s (hostRegRead off s) := by
  unfold hostRegRead
  split
  · exact undisturbed_respond s _
  · split
    · exact undisturbed_respondFree s
    · exact undisturbed_respond s _

theorem undisturbed_hostBufRead (s : State) (sp : Space) (w : Nat) : Undisturbed s (hostBufRead sp w s) := by
  unfold hostBufRead
  split
  · exact undisturbed_respondFree s
  · exact undisturbed_respond s _

theorem busData_hostRegRead_status (s : State) : (hostRegRead Reg.status.offset s).busData = s.reg .status := by
  rw [hostRegRead, if_pos rfl]
  rfl

/-- A register read of an idle block answers the register, `STATUS` included (R61). -/
theorem busData_hostRegRead_reg {s : State} (hidle : s.busy = false) (r : Reg) :
    (hostRegRead r.offset s).busData = s.reg r := by
  by_cases hr : r = .status
  · exact hr ▸ busData_hostRegRead_status s
  · rw [hostRegRead, if_neg fun e => hr (Reg.offset_injective e), hidle, if_neg Bool.false_ne_true,
      State.respond_busData, State.regRead, regAt_offset]

/-- "An offset with no register reads 0" (R61). -/
theorem busData_hostRegRead_reserved {s : State} (hidle : s.busy = false) {off : Nat}
    (h : ∀ r : Reg, r.offset ≠ off) : (hostRegRead off s).busData = 0#32 := by
  rw [hostRegRead, if_neg (h .status).symm, hidle, if_neg Bool.false_ne_true, State.respond_busData, State.regRead,
    regAt_eq_none h]

theorem busData_hostBufRead {s : State} (hidle : s.busy = false) (sp : Space) (w : Nat) :
    (hostBufRead sp w s).busData = s.word sp w := by
  rw [hostBufRead, hidle, if_neg Bool.false_ne_true, State.respond_busData]

/-- Settles O47: every read is `Undisturbed`, and the answers are those of the lemmas above. -/
theorem readsHaveNoSideEffect : Obligations.ReadsHaveNoSideEffect := by
  refine ⟨fun s off halign hoff => ?_, fun s sp w => ?_⟩
  · obtain ⟨hregs, hbytes, hhost, -, -⟩ := undisturbed_hostRegRead s off
    exact ⟨_, hostAct_regRead ⟨halign, hoff⟩ s, hregs, hbytes, hhost, fun h => h ▸ busData_hostRegRead_status s,
      fun hidle => ⟨fun r hr => hr ▸ busData_hostRegRead_reg hidle r, busData_hostRegRead_reserved hidle⟩⟩
  · obtain ⟨hregs, hbytes, hhost, -, -⟩ := undisturbed_hostBufRead s sp w
    exact ⟨_, hostAct_bufRead sp w s, hregs, hbytes, hhost, fun hidle => busData_hostBufRead hidle sp w⟩

/-! ### Accesses that reach nothing -/

theorem busAccessOk_eq_false {addr size : Nat} (h : size ≠ 4 ∨ addr % 4 ≠ 0) : busAccessOk addr size = false := by
  simpa [busAccessOk, imp_iff_not_or] using h

/-- Outside the nine windows a write does nothing and a read answers a free word (R66; log 6). -/
theorem hostMem_outside {addr : Nat} (h : ∀ x ∈ windows, inWindow addr x = false) (v : Word) (s : State) :
    hostMemRead addr s = s.respondOutside ∧ hostMemWrite addr v s = s := by
  rw [hostMemRead, hostMemWrite, (busTarget_eq_none_iff addr).2 h]
  exact ⟨rfl, rfl⟩

/-- Settles O56: an access that is no aligned word is not part of the interface; outside the windows a write does
nothing and a read is `respondOutside`. -/
theorem accessesOutsideTheInterface : Obligations.AccessesOutsideTheInterface := by
  refine ⟨fun s addr size v h => ?_, fun s addr v halign hout => ?_⟩
  · have hbad := busAccessOk_eq_false h
    exact ⟨hostAct_refused (a := .memRead addr size) hbad s, hostAct_refused (a := .memWrite addr size v) hbad s⟩
  · obtain ⟨hread, hwrite⟩ := hostMem_outside hout v s
    refine ⟨?_, s.respondOutside, ?_, undisturbed_respondOutside s⟩
    · rw [hostAct_memWrite halign, hwrite]
    · rw [hostAct_memRead halign, hread]

/-! ### What the words hold -/

theorem getLsbD_word (s : State) (sp : Space) (w : Nat) {j : Nat} (hj : j < 32) :
    (s.word sp w).getLsbD j = s.bit sp (32 * w + j) := by
  rw [State.word, Memory.getLsbD_word _ _ _ _ _ hj, State.bit, Memory.bit,
    show (32 * w + j) / 8 = 4 * w + j / 8 by omega, show (32 * w + j) % 8 = j % 8 by omega]

/-- Byte `k` of a word, bit by bit: both are bits of the space (R63). -/
theorem extractLsb'_word (s : State) (sp : Space) (w : Nat) {k : Nat} (hk : k < 4) :
    (s.word sp w).extractLsb' (8 * k) 8 = s.byte sp (4 * w + k) := by
  apply BitVec.eq_of_getLsbD_eq
  intro i hi
  rw [BitVec.getLsbD_extractLsb', decide_eq_true hi, Bool.true_and, getLsbD_word s sp w (by omega), State.bit,
    Memory.bit, show (32 * w + (8 * k + i)) / 8 = 4 * w + k by omega, show (32 * w + (8 * k + i)) % 8 = i by omega]
  rfl

/-- An element beyond the capacity reads 0 (R62): its byte is masked. -/
theorem bit_beyond (s : State) {sp : Space} {i : Nat} (h : capacityBits sp ≤ i) : s.bit sp i = false := by
  have hmask : (byteMask sp (i / 8)).getLsbD (i % 8) = false := by
    rw [getLsbD_byteMask _ _ _ (by omega)]
    exact decide_eq_false (by omega)
  rw [State.bit, Memory.bit, ← Memory.byte_masked, BitVec.getLsbD_and, hmask, Bool.and_false]

/-- Settles O51: `GLEN` and the samples are read through words by definition; bits and bytes of a word are those of the
space, and the space reads 0 beyond its capacity. -/
theorem wordsHoldElements : Obligations.WordsHoldElements := by
  refine ⟨fun s g => ⟨BitVec.ofNat_toNat _ _, (s.word .glen g).isLt⟩, fun s sp w =>
    ⟨fun j hj => getLsbD_word s sp w hj, fun k hk => extractLsb'_word s sp w hk, fun j hj hcap => ?_,
      fun i => ⟨rfl, rfl⟩⟩⟩
  rw [getLsbD_word s sp w hj, bit_beyond s hcap]

end Sys2Proof.Proofs.HostAccess
end

section
/-! PROOFS. Command words (30_encoding.md R91 to R94, R98): a word decodes to a command exactly when it is the command's
encoding, and a row of the opcode table is selected by the encodings of its commands and by no other word. -/

namespace Sys2Proof.Proofs.Decoding

open Sys2Proof Sys2Proof.Machine

/-! ### Decoding and encoding are inverse -/

theorem encodeFields_zero (i : Instr) : (encodeFields i).zero = 0#19 := by cases i <;> rfl

/-- Each row's opcode is no earlier row's, and its command's unused fields are zero; only the packet type is recoded. -/
theorem decodeFields_encodeFields (i : Instr) : decodeFields (encodeFields i) = .ok i := by
  cases i with
  | bdet ptype legacy skipBw =>
    exact congrArg (fun p => Except.ok (Instr.bdet p legacy skipBw)) (packetTypeOf_packetTypeBits ptype)
  | _ => rfl

theorem decode_encode (i : Instr) : decode (encode i) = .ok i := by
  rw [decode, encode, fieldsOf_wordOf, if_pos (encodeFields_zero i), decodeFields_encodeFields]

theorem encode_of_decode {w : Word} {i : Instr} (h : decode w = .ok i) : encode i = w := by
  obtain ⟨hzero, h⟩ | ⟨-, h⟩ := ite_eq_cases h
  · rw [encode, encodeFields_eq_of_decodeFields hzero h, wordOf_fieldsOf]
  · cases h

theorem decode_eq_ok_iff {w : Word} {i : Instr} : decode w = .ok i ↔ encode i = w :=
  ⟨encode_of_decode, fun h => h ▸ decode_encode i⟩

/-- Settles O3: the fields come back from the word, and the command from the fields. -/
theorem decodeInvertsEncode : Obligations.DecodeInvertsEncode := fun i _ => decode_encode i

/-- Settles O4: fields that decode are the encoding's. -/
theorem encodeInvertsDecode : Obligations.EncodeInvertsDecode := fun _ _ => encode_of_decode

/-- Settles O2: each word is the encoding of the command it stands for. -/
theorem exampleWordsDecode : Obligations.ExampleWordsDecode :=
  ⟨decode_eq_ok_iff.2 rfl, decode_eq_ok_iff.2 rfl, decode_eq_ok_iff.2 rfl, decode_eq_ok_iff.2 rfl,
    decode_eq_ok_iff.2 rfl, decode_eq_ok_iff.2 rfl, decode_eq_ok_iff.2 rfl, decode_eq_ok_iff.2 rfl⟩

/-! ### Rows of the opcode table -/

theorem selects_iff (r : OpcodeRow) (w : Word) : r.selects w = true ↔ w &&& r.mask = r.pattern := beq_iff_eq

theorem opcodeRow_mem (i : Instr) : opcodeRow i ∈ opcodeRows := by
  cases i <;> dsimp only [opcodeRow] <;> decide

theorem fieldsOf_and (w m : Word) : fieldsOf (w &&& m) =
    ⟨(fieldsOf w).op &&& (fieldsOf m).op, (fieldsOf w).a &&& (fieldsOf m).a, (fieldsOf w).l && (fieldsOf m).l,
      (fieldsOf w).s && (fieldsOf m).s, (fieldsOf w).z && (fieldsOf m).z, (fieldsOf w).zero &&& (fieldsOf m).zero⟩ := by
  simp [fieldsOf, BitVec.extractLsb'_and]

/-- The command of `i`'s row that has its operands from the fields of a word. -/
def withOperands (f : CmdFields) : Instr → Instr
  | .bdet _ _ _ => .bdet (packetTypeOf f.a) f.l f.s
  | .cfoe _ => .cfoe f.s
  | .sxtr _ => .sxtr f.z
  | .qmap _ => .qmap f.a
  | .pdat _ => .pdat f.a
  | .nop => .nop
  | .clr => .clr
  | .rdm => .rdm
  | .dscr => .dscr
  | .pack => .pack
  | .pdec => .pdec
  | .crcc => .crcc

theorem opcodeRow_withOperands (f : CmdFields) (i : Instr) : opcodeRow (withOperands f i) = opcodeRow i := by
  cases i <;> rfl

/-- The fields of a row's mask (R93): ones but for the operands of its command. -/
def maskFields : Instr → CmdFields
  | .bdet _ _ _ => ⟨.allOnes 8, 0#2, false, false, true, .allOnes 19⟩
  | .cfoe _ => ⟨.allOnes 8, .allOnes 2, true, false, true, .allOnes 19⟩
  | .sxtr _ => ⟨.allOnes 8, .allOnes 2, true, true, false, .allOnes 19⟩
  | .qmap _ => ⟨.allOnes 8, 0#2, true, true, true, .allOnes 19⟩
  | .pdat _ => ⟨.allOnes 8, 0#2, true, true, true, .allOnes 19⟩
  | _ => ⟨.allOnes 8, .allOnes 2, true, true, true, .allOnes 19⟩

theorem fieldsOf_mask (i : Instr) : fieldsOf (opcodeRow i).mask = maskFields i := by
  cases i <;> dsimp only [opcodeRow, maskFields] <;> decide

/-- A row's pattern is its opcode and nothing else (R93). -/
theorem fieldsOf_pattern (i : Instr) :
    fieldsOf (opcodeRow i).pattern = ⟨(encodeFields i).op, 0#2, false, false, false, 0#19⟩ := by
  cases i <;> dsimp only [opcodeRow, encodeFields] <;> decide

/-- Selection, field by field: the operands are free, the opcode is the row's, and every other field is zero. -/
theorem selects_iff_fields (i : Instr) (w : Word) : (opcodeRow i).selects w = true ↔
    (fieldsOf w).op = (encodeFields i).op ∧ (fieldsOf w).a &&& (maskFields i).a = 0#2 ∧
      ((fieldsOf w).l && (maskFields i).l) = false ∧ ((fieldsOf w).s && (maskFields i).s) = false ∧
      ((fieldsOf w).z && (maskFields i).z) = false ∧ (fieldsOf w).zero = 0#19 := by
  have hones : (maskFields i).op = .allOnes 8 ∧ (maskFields i).zero = .allOnes 19 := by cases i <;> exact ⟨rfl, rfl⟩
  obtain ⟨hop, hzero⟩ := hones
  rw [selects_iff, ← (Function.LeftInverse.injective wordOf_fieldsOf).eq_iff, fieldsOf_and, fieldsOf_mask,
    fieldsOf_pattern, CmdFields.mk.injEq, hop, hzero, BitVec.and_allOnes, BitVec.and_allOnes]

/-- A word that selects a row has the fields of that row's command with the word's operands. -/
theorem encodeFields_withOperands {i : Instr} {w : Word} (h : (opcodeRow i).selects w = true) :
    encodeFields (withOperands (fieldsOf w) i) = fieldsOf w := by
  rw [selects_iff_fields] at h
  generalize fieldsOf w = f at h ⊢
  obtain ⟨op, a, l, s, z, zero⟩ := f
  obtain ⟨rfl, ha, hl, hs, hz, rfl⟩ := h
  cases i <;> simp_all only [encodeFields, withOperands, maskFields, packetTypeBits_packetTypeOf, BitVec.and_allOnes,
    Bool.and_true]

theorem encode_withOperands {i : Instr} {w : Word} (h : (opcodeRow i).selects w = true) :
    encode (withOperands (fieldsOf w) i) = w := by
  rw [encode, encodeFields_withOperands h, wordOf_fieldsOf]

theorem selects_encode (i : Instr) : (opcodeRow i).selects (encode i) = true := by
  rw [selects_iff_fields, encode, fieldsOf_wordOf]
  cases i <;> simp [encodeFields, maskFields]

theorem exists_row {r : OpcodeRow} (h : r ∈ opcodeRows) : ∃ i, opcodeRow i = r := by
  simp only [opcodeRows, List.mem_cons, List.not_mem_nil, or_false] at h
  obtain rfl | rfl | rfl | rfl | rfl | rfl | rfl | rfl | rfl | rfl | rfl | rfl := h <;> exact ⟨_, rfl⟩

theorem selects_of_decode {w : Word} {i : Instr} (h : decode w = .ok i) : (opcodeRow i).selects w = true :=
  encode_of_decode h ▸ selects_encode i

theorem decode_of_selects {w : Word} {r : OpcodeRow} (hr : r ∈ opcodeRows) (h : r.selects w = true) :
    ∃ i, decode w = .ok i ∧ opcodeRow i = r := by
  obtain ⟨i, rfl⟩ := exists_row hr
  exact ⟨withOperands (fieldsOf w) i, decode_eq_ok_iff.2 (encode_withOperands h), opcodeRow_withOperands _ i⟩

/-- Settles O5: the rows are disjoint because a word decodes to one command, which has one row. -/
theorem decodeFollowsOpcodeTable : Obligations.DecodeFollowsOpcodeTable := by
  refine ⟨rfl, selects_iff, fun w i h => ⟨opcodeRow_mem i, selects_of_decode h⟩, fun w r => decode_of_selects,
    fun w r q hr hq hrw hqw => ?_⟩
  obtain ⟨i, hi, rfl⟩ := decode_of_selects hr hrw
  obtain ⟨j, hj, rfl⟩ := decode_of_selects hq hqw
  obtain rfl : i = j := Except.ok.inj (hi.symm.trans hj)
  rfl

/-- A word that selects no row does not decode (R94). -/
theorem decode_error_of_no_row {w : Word} (h : ∀ r ∈ opcodeRows, r.selects w = false) : ∃ e, decode w = .error e := by
  cases hd : decode w with
  | error e => exact ⟨e, rfl⟩
  | ok i => exact absurd (selects_of_decode hd) (Bool.eq_false_iff.1 (h _ (opcodeRow_mem i)))

end Sys2Proof.Proofs.Decoding
end

section
/-! PROOFS. How a command comes to run (30_encoding.md R94, R96): what the block does at its turn, and what a write to
`CMD` leaves, of a legal word and of an illegal one. -/

namespace Sys2Proof.Proofs.Acceptance

open Sys2Proof Sys2Proof.Machine Sys2Proof.Proofs.Registers Sys2Proof.Proofs.Decoding

/-! ### The block's turn -/

theorem blockTurn_iff (s : State) : s.blockTurn = true ↔ s.busy = true ∧ (s.delay = 0 ∨ s.host = []) := by
  simp [State.blockTurn, or_comm]

theorem step_of_decode {s : State} {i : Instr} (hbusy : s.busy = true) (hturn : s.delay = 0 ∨ s.host = [])
    (hd : decode s.cmd = .ok i) : step s = exec i s := by
  rw [step_block ((blockTurn_iff s).2 ⟨hbusy, hturn⟩), blockStep_ok hd]

theorem withFetchWord_encode_cmd (s : State) (i : Instr) : (s.withFetchWord 32 (encode i).toNat).cmd = encode i := by
  show BitVec.ofNat 32 ((encode i).toNat % 2 ^ 32) = encode i
  rw [Nat.mod_eq_of_lt (encode i).isLt, BitVec.ofNat_toNat, BitVec.setWidth_eq]

/-- Settles O6: `withFetchWord` makes it the block's turn with the word in `CMD`. -/
theorem stepRunsDecodedCommand : Obligations.StepRunsDecodedCommand :=
  ⟨fun _ _ => step_of_decode, fun s i =>
    step_of_decode rfl (.inl rfl) (by rw [withFetchWord_encode_cmd, decode_encode])⟩

/-! ### Acceptance -/

/-- A `CMD` write to an idle block is the acceptance of the word (R96). -/
theorem step_cmdWrite_idle {s : State} {w : Word} {rest : List HostAction} (hidle : s.busy = false)
    (hhost : s.host = .regWrite 0 w :: rest) : step s = .next ((s.takeAction rest).accept w) := by
  rw [step_host (blockTurn_idle hidle) hhost]
  exact hostAct_regWrite_idle (by decide) (by decide) (s := s.takeAction rest) hidle w

theorem keepsRegs_accept (s : State) (w : Word) : KeepsRegs [.cmd, .status] s (s.accept w) := fun r hr => by
  cases r <;> first | rfl | exact absurd (by decide) hr

theorem keepsRegs_takeAction (s : State) (rest : List HostAction) : KeepsRegs [] s (s.takeAction rest) := fun r _ => by
  cases r <;> rfl

theorem keepsRegs_takeAction_accept (s : State) (rest : List HostAction) (w : Word) :
    KeepsRegs [.cmd, .status] s ((s.takeAction rest).accept w) :=
  ((keepsRegs_takeAction s rest).mono (by simp)).trans (keepsRegs_accept _ w)

theorem keepsBytes_takeAction_accept (s : State) (rest : List HostAction) (w : Word) :
    KeepsBytes [] s ((s.takeAction rest).accept w) :=
  keepsBytes_of_mem (fun sp _ => by simp) rfl

/-- Settles O7: the step is `accept`. -/
theorem idleCmdWriteIsAccepted : Obligations.IdleCmdWriteIsAccepted := fun s w rest hidle hhost =>
  ⟨_, step_cmdWrite_idle hidle hhost, rfl, rfl, rfl, rfl, rfl, rfl, keepsRegs_takeAction_accept s rest w,
    keepsBytes_takeAction_accept s rest w⟩

/-- Settles O8: a word that selects no row does not decode, so its time is over when it is accepted. -/
theorem illegalWordCompletesIllcmd : Obligations.IllegalWordCompletesIllcmd := by
  intro s w rest hidle hhost hnone
  obtain ⟨e, he⟩ := decode_error_of_no_row hnone
  exact ⟨_, _, step_cmdWrite_idle hidle hhost, rfl, rfl, rfl, step_accept_illegal he, rfl, rfl, ⟨rfl, rfl, rfl, rfl⟩,
    (keepsRegs_takeAction_accept s rest w).trans ((keepsRegs_complete _ .illcmd).mono (by decide)),
    (keepsBytes_takeAction_accept s rest w).trans (keepsBytes_complete [] _ .illcmd)⟩

end Sys2Proof.Proofs.Acceptance
end

section
/-! PROOFS. Every command in flight completes (30_encoding.md R96; 70_reset_and_hazards.md R262): the block's turn comes
within the command's time, and at its turn the block completes it. -/

namespace Sys2Proof.Proofs.Completion

open Sys2Proof Sys2Proof.Machine Sys2Proof.Proofs.Commands Sys2Proof.Proofs.HostAccess Sys2Proof.Proofs.Acceptance

theorem exec_completes (i : Instr) (s : State) : ∃ t, exec i s = .next t ∧ t.busy = false ∧ t.done = true := by
  by_cases hi : i = .clr
  · subst hi
    exact ⟨clr s, exec_clr s, rfl, rfl⟩
  · obtain ⟨-, t, he, ⟨-, hbusy, hdone, -⟩, -⟩ := exec_keeping hi s
    exact ⟨t, he, hbusy, hdone⟩

/-- At its turn the block completes the command in `CMD`, an illegal word with `ILLCMD` (R94, R96). -/
theorem step_blockTurn_completes {s : State} (hturn : s.blockTurn = true) :
    ∃ t, step s = .next t ∧ t.busy = false ∧ t.done = true := by
  rw [step_block hturn]
  cases hd : decode s.cmd with
  | ok i => rw [blockStep_ok hd]; exact exec_completes i s
  | error e => exact ⟨_, blockStep_error hd, rfl, rfl⟩

/-- What a host action other than reset leaves of a command in flight: `BUSY` and its time; a wait that is not over
stays pending (R99). -/
def StaysInFlight (s t : State) : Prop :=
  t.busy = true ∧ t.delay = s.delay ∧ (t.host = s.host ∨ t.host = .wait :: s.host)

theorem staysInFlight_of_undisturbed {s t : State} (hbusy : s.busy = true) (h : Undisturbed s t) :
    StaysInFlight s t := by
  obtain ⟨hregs, -, hhost, hdelay, -⟩ := h
  have hstatus : statusWord t = statusWord s := hregs .status List.not_mem_nil
  refine ⟨?_, hdelay, .inl hhost⟩
  rw [← (statusWord_bits t).1, hstatus, (statusWord_bits s).1, hbusy]

theorem staysInFlight_hostRegWrite {s : State} (hbusy : s.busy = true) (off : Nat) (v : Word) :
    StaysInFlight s (hostRegWrite off v s) := by
  by_cases hoff : off = Reg.status.offset
  · rw [hostRegWrite, if_pos hoff]
    exact ⟨hbusy, rfl, .inl rfl⟩
  · rw [hostRegWrite_busy hbusy hoff]
    exact ⟨hbusy, rfl, .inl rfl⟩

theorem staysInFlight_hostBufWrite {s : State} (hbusy : s.busy = true) (sp : Space) (w : Nat) (v : Word) :
    StaysInFlight s (hostBufWrite sp w v s) := by
  rw [hostBufWrite_busy hbusy]
  exact ⟨hbusy, rfl, .inl rfl⟩

theorem staysInFlight_hostWait {s : State} (hbusy : s.busy = true) : StaysInFlight s (hostWait s) := by
  have hpoll : ¬ (s.done && !s.busy) = true := by simp [hbusy]
  rw [hostWait, if_neg hpoll]
  exact ⟨hbusy, rfl, .inr rfl⟩

theorem staysInFlight_hostEffect {s : State} (hbusy : s.busy = true) {a : HostAction} (ha : a ≠ .reset) :
    StaysInFlight s (hostEffect a s) := by
  cases a with
  | regRead off => exact staysInFlight_of_undisturbed hbusy (undisturbed_hostRegRead s off)
  | regWrite off v => exact staysInFlight_hostRegWrite hbusy off v
  | bufRead sp w => exact staysInFlight_of_undisturbed hbusy (undisturbed_hostBufRead s sp w)
  | bufWrite sp w v => exact staysInFlight_hostBufWrite hbusy sp w v
  | memRead addr size =>
    obtain ⟨off, -, h⟩ | ⟨sp, w, -, h⟩ | ⟨-, h⟩ := hostMemRead_cases addr s <;> rw [hostEffect, h]
    · exact staysInFlight_of_undisturbed hbusy (undisturbed_hostRegRead s off)
    · exact staysInFlight_of_undisturbed hbusy (undisturbed_hostBufRead s sp w)
    · exact staysInFlight_of_undisturbed hbusy (undisturbed_respondOutside s)
  | memWrite addr size v =>
    obtain ⟨off, -, h⟩ | ⟨sp, w, -, h⟩ | ⟨-, h⟩ := hostMemWrite_cases addr v s <;> rw [hostEffect, h]
    · exact staysInFlight_hostRegWrite hbusy off v
    · exact staysInFlight_hostBufWrite hbusy sp w v
    · exact ⟨hbusy, rfl, .inl rfl⟩
  | wait => exact staysInFlight_hostWait hbusy
  | reset => exact absurd rfl ha

/-- The host actions a command in flight completes under: part of the interface, and no reset. -/
def Harmless (a : HostAction) : Prop := a.wellFormed = true ∧ a ≠ .reset

theorem harmless_wait : Harmless .wait := ⟨rfl, by decide⟩

/-- Before its time is over a command in flight comes one action nearer its completion at every step (log 2). -/
theorem step_inFlight {s : State} (hbusy : s.busy = true) (hturn : s.blockTurn = false)
    (hhost : ∀ a ∈ s.host, Harmless a) :
    ∃ t, step s = .next t ∧ t.busy = true ∧ t.delay + 1 = s.delay ∧ ∀ a ∈ t.host, Harmless a := by
  have hopen : ¬ (s.delay = 0 ∨ s.host = []) := fun h => by
    rw [(blockTurn_iff s).2 ⟨hbusy, h⟩] at hturn
    cases hturn
  obtain ⟨hdelay, hne⟩ := not_or.1 hopen
  obtain ⟨a, rest, hl⟩ := List.exists_cons_of_ne_nil hne
  rw [hl] at hhost
  obtain ⟨⟨hwf, hreset⟩, hrest⟩ := List.forall_mem_cons.1 hhost
  obtain ⟨hbusy', hdelay', hhost'⟩ := staysInFlight_hostEffect (s := s.takeAction rest) hbusy hreset
  refine ⟨_, (step_host hturn hl).trans (hostAct_ok hwf _), hbusy', ?_, ?_⟩
  · rw [hdelay', State.takeAction_delay]
    omega
  · obtain h | h := hhost' <;> rw [h]
    · exact hrest
    · exact List.forall_mem_cons.2 ⟨harmless_wait, hrest⟩

/-- Settles O9, by induction on the command's time: at its turn the block completes it, before that every host action
uses up one unit of the time. -/
theorem commandInFlightCompletes : Obligations.CommandInFlightCompletes := by
  intro s hbusy hhost
  induction hd : s.delay generalizing s with
  | zero =>
    obtain ⟨t, ht, hdone⟩ := step_blockTurn_completes ((blockTurn_iff s).2 ⟨hbusy, .inl hd⟩)
    exact ⟨1, t, Nat.le_refl 1, run_succ 0 ht, hdone⟩
  | succ d ih =>
    cases hturn : s.blockTurn with
    | true =>
      obtain ⟨t, ht, hdone⟩ := step_blockTurn_completes hturn
      exact ⟨1, t, by omega, run_succ 0 ht, hdone⟩
    | false =>
      obtain ⟨u, hu, hbusy', hdelay, hhost'⟩ := step_inFlight hbusy hturn hhost
      obtain ⟨n, t, hn, ht, hdone⟩ := ih u hbusy' hhost' (by omega)
      exact ⟨n + 1, t, by omega, (run_succ n hu).trans ht, hdone⟩

end Sys2Proof.Proofs.Completion
end

section
/-! PROOFS. The range checks (30_encoding.md R97): `RANGE` is the code of a failed check and of nothing else. -/

namespace Sys2Proof.Proofs.RangeChecks

open Sys2Proof Sys2Proof.Machine Sys2Proof.Proofs.Commands

/-- The range check of a command (R97); `NOP` and `CLR` have none. -/
def outOfRange : Instr → State → Bool
  | .nop, _ => false
  | .clr, _ => false
  | .bdet _ _ _, s => bdetOutOfRange s
  | .cfoe _, s => cfoeOutOfRange s
  | .sxtr _, s => sxtrOutOfRange s
  | .qmap _, s => symOutOfRange s
  | .rdm, s => rdmOutOfRange s
  | .dscr, s => dscrOutOfRange s
  | .pack, s => packOutOfRange s
  | .pdat _, s => symOutOfRange s
  | .pdec, s => symOutOfRange s
  | .crcc, s => crccOutOfRange s

/-- Every command is its range check and then its body. -/
theorem exec_eq_check_body (i : Instr) (s : State) :
    exec i s = .next (if outOfRange i s then s.complete .range else commandBody i s) := by
  cases i <;> rfl

theorem ite_ne_range {c : Prop} [Decidable c] {x y : ResultCode} (hx : x ≠ .range) (hy : y ≠ .range) :
    (if c then x else y) ≠ .range := by
  split
  · exact hx
  · exact hy

theorem bdetCode_ne_range (found : List (Nat × Nat)) (out : List Cand) : bdetCode found out ≠ .range :=
  ite_ne_range (by decide) (ite_ne_range (by decide) (by decide))

theorem completeByFrame_res_ne_range (s : State) : (completeByFrame s).res ≠ .range :=
  ite_ne_range (by decide) (by decide)

theorem completeByCrc_res_ne_range (s : State) : (completeByCrc s).res ≠ .range :=
  ite_ne_range (by decide) (by decide)

/-- `RANGE` is the range check's code alone: no command ends with it in range. -/
theorem commandBody_res_ne_range (i : Instr) (s : State) : (commandBody i s).res ≠ .range := by
  have hother {c : ResultCode} (hc : c ≠ .range) (u : State) : (u.complete c).res ≠ .range := hc
  cases i with
  | nop => exact hother (by decide) s
  | clr => exact hother (by decide) _
  | bdet ptype legacy skipBw => exact hother (bdetCode_ne_range _ _) _
  | cfoe skipBw => exact hother (ite_ne_range (by decide) (by decide)) _
  | sxtr skipZc =>
    obtain ⟨groups, -, -, hb⟩ | ⟨-, hb⟩ := sxtrBody_cases skipZc s <;> rw [commandBody, hb]
    · exact hother (by decide) _
    · exact hother (by decide) _
  | qmap h => exact hother (by decide) _
  | rdm => exact hother (by decide) _
  | dscr => exact hother (by decide) _
  | pack => exact completeByFrame_res_ne_range _
  | pdat h => exact completeByFrame_res_ne_range _
  | pdec =>
    obtain ⟨-, hb⟩ | ⟨-, hb⟩ := pdecBody_cases implParams s <;> rw [commandBody, hb]
    · exact completeByCrc_res_ne_range _
    · exact hother (by decide) _
  | crcc => exact completeByCrc_res_ne_range _

theorem exec_range_iff (i : Instr) (s : State) : ∃ t, exec i s = .next t ∧ (t.res = .range ↔ outOfRange i s = true) ∧
    (t.res = .range → CompletesKeeping .range [] [] s t) := by
  have he := exec_eq_check_body i s
  by_cases h : outOfRange i s = true
  · rw [if_pos h] at he
    exact ⟨_, he, iff_of_true rfl h, fun _ => completesKeeping_self .range [] [] s⟩
  · rw [if_neg h] at he
    have hres := commandBody_res_ne_range i s
    exact ⟨_, he, iff_of_false hres h, fun hr => absurd hr hres⟩

/-- Settles O11: the checks are R97's table, and a command out of range completes at once. -/
theorem rangeExactlyWhenOutOfRange : Obligations.RangeExactlyWhenOutOfRange := by
  intro i s
  obtain ⟨t, he, hiff, hkeeps⟩ := exec_range_iff i s
  refine ⟨t, he, hiff.trans ?_, hkeeps⟩
  cases i with
  | nop => exact iff_of_false Bool.false_ne_true id
  | clr => exact iff_of_false Bool.false_ne_true id
  | bdet ptype legacy skipBw => exact bdetOutOfRange_iff s
  | cfoe skipBw => exact cfoeOutOfRange_iff s
  | sxtr skipZc => exact sxtrOutOfRange_iff s
  | qmap h => exact symOutOfRange_iff s
  | rdm => exact rdmOutOfRange_iff s
  | dscr => exact dscrOutOfRange_iff s
  | pack => exact packOutOfRange_iff s
  | pdat h => exact symOutOfRange_iff s
  | pdec => exact symOutOfRange_iff s
  | crcc => exact crccOutOfRange_iff s

end Sys2Proof.Proofs.RangeChecks
end

section
/-! PROOFS. The burst detector (40_burst_detect.md R110 to R118): the regions of a mask are its maximal runs, the
duration window and the span are the rules' arithmetic, and the candidate table holds what the collected regions
give. -/

namespace Sys2Proof.Proofs.BurstDetect

open Sys2Proof Sys2Proof.Machine Sys2Proof.Proofs.Commands Sys2Proof.Proofs.Invariant

/-! ### Regions of a mask -/

/-- No run reaches step `a` from before it: the left end of a region (R112). -/
def StartsRun (mask : List Bool) (a : Nat) : Prop := a = 0 ∨ mask[a - 1]? = some false

/-- Steps `a` to `b - 1` are all marked. -/
def Marked (mask : List Bool) (a b : Nat) : Prop := ∀ i, a ≤ i → i < b → mask[i]? = some true

/-- A maximal run of marked steps (R112). -/
structure IsRegion (mask : List Bool) (a b : Nat) : Prop where
  nonempty : a ≤ b
  inside : b < mask.length
  marked : Marked mask a (b + 1)
  starts : StartsRun mask a
  ends : b + 1 = mask.length ∨ mask[b + 1]? = some false

/-- What the scan of `regionsFrom` knows at step `t`: `start` is where the run that reaches `t` began, if one does. -/
def ScanAt (mask : List Bool) (t : Nat) : Option Nat → Prop
  | none => StartsRun mask t
  | some a => a < t ∧ Marked mask a t ∧ StartsRun mask a

theorem Marked.snoc {mask : List Bool} {a t : Nat} (h : Marked mask a t) (ht : mask[t]? = some true) :
    Marked mask a (t + 1) := fun i ha hi => by
  obtain hlt | rfl := Nat.lt_succ_iff_lt_or_eq.1 hi
  · exact h i ha hlt
  · exact ht

theorem Marked.le_of_startsRun {mask : List Bool} {a b c : Nat} (h : Marked mask a b) (hc : StartsRun mask c)
    (hcb : c ≤ b) : c ≤ a := by
  by_contra hac
  obtain rfl | hfalse := hc
  · omega
  · have := h (c - 1) (by omega) (by omega)
    simp [hfalse] at this

/-- Two marked runs that both reach up to step `t`, each with a proper left end, have the same left end. -/
theorem startsRun_unique {mask : List Bool} {a c t : Nat} (ha : StartsRun mask a) (hc : StartsRun mask c)
    (hat : a ≤ t) (hct : c ≤ t) (hma : Marked mask a t) (hmc : Marked mask c t) : a = c :=
  Nat.le_antisymm (hmc.le_of_startsRun ha hat) (hma.le_of_startsRun hc hct)

/-- A marked step just behind a run continues it, so no region ends before it. -/
theorem IsRegion.succ_ne_of_marked {mask : List Bool} {a b t : Nat} (h : IsRegion mask a b)
    (ht : mask[t]? = some true) : b + 1 ≠ t := by
  rintro rfl
  obtain hend | hfalse := h.ends
  · simp [hend] at ht
  · simp [hfalse] at ht

/-- Where no run reaches step `t`, no region ends just before it. -/
theorem IsRegion.succ_ne_of_startsRun {mask : List Bool} {a b t : Nat} (h : IsRegion mask a b)
    (ht : StartsRun mask t) : b + 1 ≠ t := by
  rintro rfl
  have := h.marked.le_of_startsRun ht (Nat.le_refl _)
  have := h.nonempty
  omega

/-- The run that reaches step `t` and stops there is the one region that ends just before `t`. -/
theorem isRegion_of_scanAt {mask : List Bool} {t c : Nat} (hscan : ScanAt mask t (some c)) (hlen : t ≤ mask.length)
    (hstop : t = mask.length ∨ mask[t]? = some false) (a b : Nat) :
    IsRegion mask a b ∧ b + 1 = t ↔ (a, b) = (c, t - 1) := by
  obtain ⟨hct, hmarked, hstarts⟩ := hscan
  rw [Prod.mk.injEq]
  constructor
  · rintro ⟨h, rfl⟩
    exact ⟨startsRun_unique h.starts hstarts (Nat.le_succ_of_le h.nonempty) hct.le h.marked hmarked, rfl⟩
  · rintro ⟨rfl, rfl⟩
    have ht : t - 1 + 1 = t := by omega
    exact ⟨⟨by omega, by omega, ht ▸ hmarked, hstarts, ht.symm ▸ hstop⟩, ht⟩

theorem getElem?_of_drop_eq_cons {mask m : List Bool} {x : Bool} {t : Nat} (h : mask.drop t = x :: m) :
    mask[t]? = some x ∧ mask.drop (t + 1) = m ∧ t < mask.length := by
  have hx : mask[t]? = some x := by
    have := List.getElem?_drop (xs := mask) (i := t) (j := 0)
    rwa [h, List.getElem?_cons_zero, Nat.add_zero, eq_comm] at this
  exact ⟨hx, by rw [← List.tail_drop, h, List.tail_cons], (List.getElem?_eq_some_iff.1 hx).1⟩

/-- The regions that end at `t - 1` or later are the one that ends at `t - 1`, if there is one, and those after it. -/
theorem isRegion_from_split (mask : List Bool) (a b t : Nat) : IsRegion mask a b ∧ t ≤ b + 1 ↔
    (IsRegion mask a b ∧ b + 1 = t) ∨ (IsRegion mask a b ∧ t + 1 ≤ b + 1) := by
  rw [← and_or_left]
  exact and_congr_right fun _ => by omega

theorem isRegion_from_succ {mask : List Bool} {a b t : Nat} (h : IsRegion mask a b → b + 1 ≠ t) :
    IsRegion mask a b ∧ t + 1 ≤ b + 1 ↔ IsRegion mask a b ∧ t ≤ b + 1 :=
  (or_iff_right (not_and.2 h)).symm.trans (isRegion_from_split mask a b t).symm

/-- From step `t` on the scan lists the regions that end at step `t - 1` or later: the open run's region is among
them, and where no run is open none ends at `t - 1`. -/
theorem mem_regionsFrom {mask : List Bool} (m : List Bool) (t : Nat) (start : Option Nat) (hm : mask.drop t = m)
    (hlen : t ≤ mask.length) (hscan : ScanAt mask t start) (a b : Nat) :
    (a, b) ∈ regionsFrom m t start ↔ IsRegion mask a b ∧ t ≤ b + 1 := by
  fun_induction regionsFrom m t start with
  | case1 t c =>
    have hend : t = mask.length := Nat.le_antisymm hlen (List.drop_eq_nil_iff.1 hm)
    rw [List.mem_singleton, ← isRegion_of_scanAt hscan hlen (.inl hend)]
    exact and_congr_right fun hr => by have := hr.inside; omega
  | case2 t =>
    have hend : t = mask.length := Nat.le_antisymm hlen (List.drop_eq_nil_iff.1 hm)
    refine iff_of_false List.not_mem_nil fun ⟨hr, ht⟩ => hr.succ_ne_of_startsRun hscan ?_
    have := hr.inside; omega
  | case3 m t c ih =>
    obtain ⟨htrue, htail, hlt⟩ := getElem?_of_drop_eq_cons hm
    obtain ⟨hct, hmarked, hstarts⟩ := hscan
    rw [ih htail hlt ⟨Nat.lt_succ_of_lt hct, hmarked.snoc htrue, hstarts⟩]
    exact isRegion_from_succ fun hr => hr.succ_ne_of_marked htrue
  | case4 m t ih =>
    obtain ⟨htrue, htail, hlt⟩ := getElem?_of_drop_eq_cons hm
    have hmarked : Marked mask t t := fun i hti hit => absurd hti (Nat.not_le_of_lt hit)
    rw [ih htail hlt ⟨Nat.lt_succ_self t, hmarked.snoc htrue, hscan⟩]
    exact isRegion_from_succ fun hr => hr.succ_ne_of_marked htrue
  | case5 m t c ih =>
    obtain ⟨hfalse, htail, hlt⟩ := getElem?_of_drop_eq_cons hm
    rw [List.mem_cons, ← isRegion_of_scanAt hscan hlen (.inr hfalse), ih htail hlt (.inr hfalse),
      isRegion_from_split mask a b t]
  | case6 m t ih =>
    obtain ⟨hfalse, htail, hlt⟩ := getElem?_of_drop_eq_cons hm
    rw [ih htail hlt (.inr hfalse)]
    exact isRegion_from_succ fun hr => hr.succ_ne_of_startsRun hscan

theorem mem_regions (mask : List Bool) (a b : Nat) : (a, b) ∈ regions mask ↔ IsRegion mask a b :=
  (mem_regionsFrom mask 0 none List.drop_zero (Nat.zero_le _) (.inl rfl) a b).trans
    (and_iff_left (Nat.zero_le _))

/-- No region the scan lists begins before the open run, or before the step it has reached. -/
theorem le_start_of_mem_regionsFrom (m : List Bool) (t : Nat) (start : Option Nat) (hs : ∀ a ∈ start, a < t) :
    ∀ r ∈ regionsFrom m t start, start.getD t ≤ r.1 := by
  fun_induction regionsFrom m t start with
  | case1 t c => simp
  | case2 t => simp
  | case3 m t c ih => exact ih fun a ha => Nat.lt_succ_of_lt (hs a ha)
  | case4 m t ih => exact ih (by simp)
  | case5 m t c ih =>
    have hc := hs c rfl
    have hrest := ih (by simp)
    simp only [Option.getD_none] at hrest
    exact List.forall_mem_cons.2 ⟨Nat.le_refl c, fun r hr => hc.le.trans ((Nat.le_succ t).trans (hrest r hr))⟩
  | case6 m t ih => exact fun r hr => (Nat.le_succ t).trans (ih (by simp) r hr)

theorem regionsFrom_increasing (m : List Bool) (t : Nat) (start : Option Nat) (hs : ∀ a ∈ start, a < t) :
    (regionsFrom m t start).Pairwise (fun x y => x.1 < y.1) := by
  fun_induction regionsFrom m t start with
  | case1 t c => exact List.pairwise_singleton _ _
  | case2 t => exact .nil
  | case3 m t c ih => exact ih fun a ha => Nat.lt_succ_of_lt (hs a ha)
  | case4 m t ih => exact ih (by simp)
  | case5 m t c ih =>
    have hc := hs c rfl
    have hrest := le_start_of_mem_regionsFrom m (t + 1) none (by simp)
    exact .cons (fun r hr => (Nat.lt_succ_of_lt hc).trans_le (hrest r hr)) (ih (by simp))
  | case6 m t ih => exact ih (by simp)

/-- Settles O16: the scan meets every maximal run once, at the step behind its end. -/
theorem regionsAreMaximalRuns : Obligations.RegionsAreMaximalRuns := by
  refine fun mask => ⟨fun a b => (mem_regions mask a b).trans ⟨fun h => ?_, fun h => ?_⟩,
    regionsFrom_increasing mask 0 none (by simp)⟩
  · exact ⟨h.nonempty, h.inside, fun i ha hb => h.marked i ha (Nat.lt_succ_of_le hb), h.starts, h.ends⟩
  · obtain ⟨hne, hin, hmarked, hstarts, hends⟩ := h
    exact ⟨hne, hin, fun i ha hb => hmarked i ha (Nat.le_of_lt_succ hb), hstarts, hends⟩

/-! ### Durations and spans -/

theorem qualifies_iff (w rate lo hi : Nat) :
    qualifies w rate lo hi = true ↔ lo * rate ≤ 64 * 1000000 * w ∧ 64 * 1000000 * w ≤ hi * rate := by
  rw [qualifies, Bool.and_eq_true, decide_eq_true_iff, decide_eq_true_iff, stftN]

/-- The lower bound of R113 in seconds: both denominators are positive, so it can be cleared of them. -/
theorem us_le_duration_iff {w rate lo : Nat} (hr : 0 < rate) :
    (lo : ℚ) / 1000000 ≤ 64 * (w : ℚ) / rate ↔ lo * rate ≤ 64 * 1000000 * w := by
  rw [div_le_div_iff₀ (by norm_num) (by exact_mod_cast hr), mul_right_comm 64 (w : ℚ)]
  exact_mod_cast Iff.rfl

/-- The upper bound of R113 in seconds. -/
theorem duration_le_us_iff {w rate hi : Nat} (hr : 0 < rate) :
    64 * (w : ℚ) / rate ≤ (hi : ℚ) / 1000000 ↔ 64 * 1000000 * w ≤ hi * rate := by
  rw [div_le_div_iff₀ (by exact_mod_cast hr) (by norm_num), mul_right_comm 64 (w : ℚ)]
  exact_mod_cast Iff.rfl

/-- Settles O17: the model compares the naturals that R113's bounds become when the denominators are cleared. -/
theorem qualifiesIsDurationWindow : Obligations.QualifiesIsDurationWindow := by
  refine ⟨fun w rate lo hi hr => ?_, qualifies_iff, fun w => ?_⟩
  · rw [qualifies_iff, us_le_duration_iff hr, duration_le_us_iff hr]
  · rw [qualifies_iff]; omega

/-- Settles O18, row by row of R116's table. -/
theorem durWindowFollowsTable : Obligations.DurWindowFollowsTable :=
  ⟨rfl, rfl, fun l => ⟨rfl, rfl, by cases l <;> rfl⟩⟩

theorem span_fst (a b rate n : Nat) : (span a b rate n).1 = 64 * a - 45 * rate / 1000000 := rfl

theorem span_snd (a b rate n : Nat) : (span a b rate n).2 = min n (64 * (b + 1) + 45 * rate / 1000000) := rfl

/-- Settles O19: subtraction on naturals is R115's clamp at 0. -/
theorem spanIsGuardedAndClamped : Obligations.SpanIsGuardedAndClamped := by
  refine ⟨fun a b rate n hab hb => ⟨?_, span_snd a b rate n, (span_bounds rate hab hb).1⟩, rfl, rfl⟩
  rw [span_fst]
  omega

/-! ### Candidates -/

/-- A candidate as the rules give it (R117): its span, its offset, and whether it was forced. -/
abbrev Emission := (Nat × Nat) × Word × Bool

/-- What a collected region emits (R117), if anything. -/
def emission (legacy skipBw : Bool) (s : State) (r : Nat × Nat) : Option Emission :=
  let sp := span r.1 r.2 s.capRate.toNat s.capLen.toNat
  let call := cfoCall (s.samples .cap sp.1 sp.2) s.capRate skipBw
  if call.2 then some (sp, call.1, false) else if legacy then some (sp, 0#32, true) else none

/-- The table entry of an emission (R32). -/
def Emission.entry (e : Emission) : Cand :=
  ⟨BitVec.ofNat 32 e.1.1, BitVec.ofNat 32 e.1.2, BitVec.ofNat 32 (e.1.2 - e.1.1), e.2.1, true, e.2.2⟩

theorem candidate_examine (legacy skipBw : Bool) (s : State) (r : Nat × Nat) :
    candidate legacy (examine s skipBw r) = (emission legacy skipBw s r).map Emission.entry := by
  rw [emission, apply_ite (Option.map Emission.entry), apply_ite (Option.map Emission.entry)]
  rfl

/-- The emitted entries are the emissions' entries, in order (R110, R118). -/
theorem bdetOut_eq (ptype : PacketType) (legacy skipBw : Bool) (s : State) :
    bdetOut ptype legacy skipBw s =
      ((bdetFound ptype legacy s).filterMap (emission legacy skipBw s)).map Emission.entry := by
  rw [bdetOut, bdetExamined, List.filterMap_map, List.map_filterMap]
  exact congrArg (List.filterMap · _) (funext (candidate_examine legacy skipBw s))

theorem emission_span {legacy skipBw : Bool} {s : State} {r : Nat × Nat} {e : Emission}
    (he : emission legacy skipBw s r = some e) : e.1 = span r.1 r.2 s.capRate.toNat s.capLen.toNat := by
  simp only [emission] at he
  split at he
  · cases he; rfl
  · split at he
    · cases he; rfl
    · cases he

/-- Sample numbers of an emission fit a register (R115). -/
theorem emission_fits {ptype : PacketType} {legacy skipBw : Bool} {s : State} {e : Emission}
    (he : e ∈ (bdetFound ptype legacy s).filterMap (emission legacy skipBw s)) :
    e.1.1 < e.1.2 ∧ e.1.2 < 2 ^ 32 := by
  obtain ⟨r, hr, hre⟩ := List.mem_filterMap.1 he
  obtain ⟨hab, hb⟩ := bdetFound_bounds hr
  obtain ⟨hlt, hle⟩ := span_bounds s.capRate.toNat hab hb
  rw [emission_span hre]
  exact ⟨hlt, Nat.lt_of_le_of_lt hle s.capLen.isLt⟩

/-- The words of an entry, its sample numbers fitting a register. -/
theorem Emission.entry_words {e : Emission} (hlt : e.1.1 < e.1.2) (hfit : e.1.2 < 2 ^ 32) :
    e.entry.start.toNat = e.1.1 ∧ e.entry.stop.toNat = e.1.2 ∧ e.entry.dur.toNat = e.1.2 - e.1.1 :=
  ⟨Nat.mod_eq_of_lt (by omega), Nat.mod_eq_of_lt hfit, Nat.mod_eq_of_lt (by omega)⟩

/-- With `S = 1` every collected region is emitted and none is forced (R132). -/
theorem emission_skipBw (legacy : Bool) (s : State) (r : Nat × Nat) :
    ∃ e, emission legacy true s r = some e ∧ e.2.2 = false := ⟨_, rfl, rfl⟩

/-! ### What `BDET` leaves -/

theorem lastOffset_of_getLast? {examined : List Examined} {e : Examined} (h : examined.getLast? = some e) :
    lastOffset examined = e.offset := by
  rw [lastOffset, h]

theorem cand_complete (s : State) (c : ResultCode) (i : Nat) : (s.complete c).cand i = s.cand i := rfl

section
variable (ptype : PacketType) (legacy skipBw : Bool) (s : State)

theorem exec_bdet_in_range {s : State} (hlen : s.capLen.toNat ≤ Config.capDepth) (hrate : s.capRate ≠ 0#32) :
    exec (.bdet ptype legacy skipBw) s = .next (bdetBody ptype legacy skipBw s) :=
  exec_bdet_body ptype legacy skipBw fun hr =>
    ((bdetOutOfRange_iff s).1 hr).elim (Nat.not_lt_of_le hlen) hrate

theorem bdetBody_bdNfound : (bdetBody ptype legacy skipBw s).bdNfound.toNat = (bdetFound ptype legacy s).length := by
  have := bdetFound_length ptype legacy s
  exact Nat.mod_eq_of_lt (by omega)

theorem bdetBody_bdNcand : (bdetBody ptype legacy skipBw s).bdNcand.toNat = (bdetOut ptype legacy skipBw s).length := by
  have := bdetFound_length ptype legacy s
  have := bdetOut_length ptype legacy skipBw s
  exact Nat.mod_eq_of_lt (by omega)

theorem bdetBody_bdLastoff_of_nil (h : bdetFound ptype legacy s = []) :
    (bdetBody ptype legacy skipBw s).bdLastoff = 0#32 := by
  simp [bdetBody, bdetExamined, lastOffset, h]

theorem bdetBody_bdLastoff {r : Nat × Nat} (h : (bdetFound ptype legacy s).getLast? = some r) :
    (bdetBody ptype legacy skipBw s).bdLastoff = (examine s skipBw r).offset := by
  refine lastOffset_of_getLast? ?_
  rw [bdetExamined, List.getLast?_map, h, Option.map_some]

theorem bdetBody_cand {i : Nat} (hi : i < 3) :
    (bdetBody ptype legacy skipBw s).cand i = candEntry (bdetOut ptype legacy skipBw s) i := by
  rw [bdetBody, cand_complete, cand_storeCandidates hi]

theorem bdetBody_keeping : CompletesKeeping (bdetCode (bdetFound ptype legacy s) (bdetOut ptype legacy skipBw s))
    (writtenRegs (.bdet ptype legacy skipBw)) [] s (bdetBody ptype legacy skipBw s) :=
  completesKeeping_complete _ (keepsRegs_storeCandidates _ _ _ s) (keepsBytes_storeCandidates _ _ _ _ s) rfl
    (keepsPort_storeCandidates _ _ _ s)

end

theorem candEntry_of_getElem? {out : List Cand} {i : Nat} {c : Cand} (h : out[i]? = some c) : candEntry out i = c := by
  rw [candEntry, h, Option.getD_some]

theorem candEntry_of_le {out : List Cand} {i : Nat} (h : out.length ≤ i) : candEntry out i = Cand.zero := by
  rw [candEntry, List.getElem?_eq_none h, Option.getD_none]

/-- Settles O20: the table is that of the emissions, whose sample numbers fit the entries' words. -/
theorem bdetFillsCandidateTable : Obligations.BdetFillsCandidateTable := by
  intro ptype legacy skipBw s hlen hrate
  have hout := bdetOut_eq ptype legacy skipBw s
  have hcount := (congrArg List.length hout).trans (List.length_map _)
  refine ⟨bdetBody ptype legacy skipBw s, bdetFound ptype legacy s,
    (bdetFound ptype legacy s).filterMap (emission legacy skipBw s),
    exec_bdet_in_range ptype legacy skipBw hlen hrate, rfl, rfl, bdetBody_bdNfound ptype legacy skipBw s,
    (bdetBody_bdNcand ptype legacy skipBw s).trans hcount, bdetBody_bdLastoff_of_nil ptype legacy skipBw s,
    fun r => bdetBody_bdLastoff ptype legacy skipBw s, fun i e hi he => ?_, fun i hi hle => ?_, ?_⟩
  · have hentry : (bdetBody ptype legacy skipBw s).cand i = Emission.entry e := by
      rw [bdetBody_cand ptype legacy skipBw s hi, hout]
      exact candEntry_of_getElem? (by rw [List.getElem?_map, he, Option.map_some])
    obtain ⟨hlt, hfit⟩ := emission_fits (List.mem_of_getElem? he)
    obtain ⟨hstart, hstop, hdur⟩ := Emission.entry_words hlt hfit
    rw [hentry]
    exact ⟨hstart, hstop, hdur, rfl, rfl, rfl⟩
  · rw [bdetBody_cand ptype legacy skipBw s hi]
    exact candEntry_of_le (hcount.trans_le hle)
  · rw [← hcount]
    exact bdetBody_keeping ptype legacy skipBw s

theorem bdetOut_skipBw_length (ptype : PacketType) (legacy : Bool) (s : State) :
    (bdetOut ptype legacy true s).length = (bdetFound ptype legacy s).length := by
  rw [bdetOut_eq, List.length_map, List.filterMap_length_eq_length]
  intro r _
  obtain ⟨e, he, -⟩ := emission_skipBw legacy s r
  rw [he, Option.isSome_some]

theorem bdetOut_skipBw_forced {ptype : PacketType} {legacy : Bool} {s : State} {c : Cand}
    (hc : c ∈ bdetOut ptype legacy true s) : c.forced = false := by
  rw [bdetOut_eq] at hc
  obtain ⟨e, hmem, rfl⟩ := List.mem_map.1 hc
  obtain ⟨r, -, hre⟩ := List.mem_filterMap.1 hmem
  obtain ⟨e', he', hforced⟩ := emission_skipBw legacy s r
  obtain rfl : e' = e := Option.some.inj (he'.symm.trans hre)
  exact hforced

/-- `OFFSET` is the code of a table that lost every region (R110). -/
theorem bdetCode_ne_offset {found : List (Nat × Nat)} {out : List Cand} (h : out.length = found.length) :
    bdetCode found out ≠ .offset := by
  rw [bdetCode, h]
  split
  · decide
  · decide

/-- Settles O21: with `S = 1` every `CfoCall` answers found. -/
theorem bdetSkipBwDropsNothing : Obligations.BdetSkipBwDropsNothing := by
  intro ptype legacy s hlen hrate
  have hcount := bdetOut_skipBw_length ptype legacy s
  refine ⟨bdetBody ptype legacy true s, exec_bdet_in_range ptype legacy true hlen hrate, BitVec.eq_of_toNat_eq ?_,
    bdetCode_ne_offset hcount, fun i hi => ?_⟩
  · rw [bdetBody_bdNcand, bdetBody_bdNfound, hcount]
  · rw [bdetBody_cand ptype legacy true s hi]
    cases he : (bdetOut ptype legacy true s)[i]? with
    | none => rw [candEntry_of_le (List.getElem?_eq_none_iff.1 he)]; rfl
    | some c => rw [candEntry_of_getElem? he]; exact bdetOut_skipBw_forced (List.mem_of_getElem? he)

end Sys2Proof.Proofs.BurstDetect
end

section
/-! PROOFS. The coarse CFO estimator (41_cfo_estimate.md R130 to R132): what `CfoCall` makes of an estimate, and what
`CFOE` leaves. -/

namespace Sys2Proof.Proofs.CfoEstimate

open Sys2Proof Sys2Proof.Machine Sys2Proof.Proofs.Commands

/-! ### The estimate and `CfoCall` -/

/-- An estimate that is not computable claims nothing (R131). -/
theorem cfoEst_of_not_computable {slice : List Sample} {rate : Word} (hc : (cfoEst slice rate).computable = false) :
    (cfoEst slice rate).offset = 0#32 ∧ (cfoEst slice rate).bwOk = false := by
  rw [cfoEst] at hc ⊢
  split at hc
  next => cases hc
  next h => rw [if_neg h]; exact ⟨rfl, rfl⟩

/-- The `found` of `CfoCall`: `skipbw` sets aside the bandwidth check (R132). -/
theorem cfoCall_found (slice : List Sample) (rate : Word) (skipBw : Bool) :
    (cfoCall slice rate skipBw).2 = if skipBw then true else (cfoEst slice rate).bwOk := by
  cases skipBw with
  | false => rfl
  | true => rfl

/-! ### What `CFOE` leaves -/

/-- Within the bounds of R130 `CFOE` runs its body. -/
theorem exec_cfoe_in_range (skipBw : Bool) {s : State} (hlen : s.capLen.toNat ≤ Config.capDepth)
    (hrate : s.capRate ≠ 0#32) (hstart : s.cfoStart.toNat ≤ s.cfoEnd.toNat) (hend : s.cfoEnd.toNat ≤ s.capLen.toNat) :
    exec (.cfoe skipBw) s = .next (cfoeBody skipBw s) :=
  exec_cfoe_body skipBw fun hr => by
    obtain h | h | h | h := (cfoeOutOfRange_iff s).1 hr
    · exact Nat.not_lt_of_le hlen h
    · exact hrate h
    · exact Nat.not_lt_of_le hstart h
    · exact Nat.not_lt_of_le hend h

section
variable (skipBw : Bool) (s : State)

theorem cfoeBody_cfoOffset :
    (cfoeBody skipBw s).cfoOffset = (cfoCall (cfoSlice s) s.capRate skipBw).1 := by
  rw [cfoeBody, State.complete_cfoOffset, storeCfo_cfoOffset]

theorem cfoeBody_cfoComputable :
    (cfoeBody skipBw s).cfoComputable = (cfoEst (cfoSlice s) s.capRate).computable := by
  rw [cfoeBody, State.complete_cfoComputable, storeCfo_cfoComputable]

theorem cfoeBody_cfoFound :
    (cfoeBody skipBw s).cfoFound = (cfoCall (cfoSlice s) s.capRate skipBw).2 := by
  rw [cfoeBody, State.complete_cfoFound, storeCfo_cfoFound]

/-- The code of `CFOE` says what `CFO_STAT.FOUND` says (R130). -/
theorem cfoeBody_keeping : CompletesKeeping (if (cfoeBody skipBw s).cfoFound then .ok else .offset)
    (writtenRegs (.cfoe skipBw)) (writtenSpaces (.cfoe skipBw)) s (cfoeBody skipBw s) := by
  rw [cfoeBody_cfoFound]
  exact completesKeeping_complete _ (keepsRegs_storeCfo _ _ _ s) (keepsBytes_storeCfo _ _ _ _ s) rfl
    (keepsPort_storeCfo _ _ _ s)

end

/-- Settles O22: the estimate is the one of `cfoSlice`, and the body stores what `CfoCall` makes of it. -/
theorem cfoeReportsEstimate : Obligations.CfoeReportsEstimate := fun skipBw s hlen hrate hstart hend =>
  ⟨cfoeBody skipBw s, cfoEst (cfoSlice s) s.capRate, exec_cfoe_in_range skipBw hlen hrate hstart hend, rfl,
    cfoeBody_cfoOffset skipBw s, cfoeBody_cfoComputable skipBw s,
    (cfoeBody_cfoFound skipBw s).trans (cfoCall_found _ _ skipBw), cfoEst_of_not_computable, cfoeBody_keeping skipBw s⟩

end Sys2Proof.Proofs.CfoEstimate
end

section
/-! PROOFS. The symbol extractor (42_symbol_extract.md R140 to R143): a stored SymbolFrame reads back group by group,
and `SXTR` stores the demodulator's frame or zeroes both counts. -/

namespace Sys2Proof.Proofs.SymbolExtract

open Sys2Proof Sys2Proof.Machine Sys2Proof.Proofs.Commands

/-! ### Reading a space after words were stored in it -/

theorem word_putWords_inside {s : State} {sp : Space} {words : List Word} {k : Nat} {v : Word}
    (hc : 32 * (k + 1) ≤ capacityBits sp) (hk : words[k]? = some v) : (s.putWords sp words).word sp k = v := by
  have := Memory.word_putWords_inside (sp := sp) (m := s.mem sp) (w := 0) s.resets hk (by omega)
  simpa [State.word, State.mem_putWords] using this

theorem byte_putWords_outside {s : State} {sp : Space} {words : List Word} {a : Nat} (ha : 4 * words.length ≤ a) :
    (s.putWords sp words).byte sp a = s.byte sp a := by
  have := Memory.byte_putWords_outside (sp := sp) (m := s.mem sp) (w := 0) (vs := words) (x := a) s.resets (by omega)
  simpa [State.byte, State.mem_putWords] using this

/-! ### The words of a sequence of points -/

theorem sampleWords_cons (p : Sample) (points : List Sample) :
    sampleWords (p :: points) = p.re :: p.im :: sampleWords points := rfl

theorem sampleWords_length (points : List Sample) : (sampleWords points).length = 2 * points.length := by
  simp [sampleWords, List.length_flatMap, List.map_const', Nat.mul_comm]

/-- Point `k` is in words `2k` and `2k + 1` (20_memory.md R62). -/
theorem sampleWords_getElem? {points : List Sample} {k : Nat} {p : Sample} (hk : points[k]? = some p) :
    (sampleWords points)[2 * k]? = some p.re ∧ (sampleWords points)[2 * k + 1]? = some p.im := by
  induction points generalizing k with
  | nil => simp at hk
  | cons q points ih =>
    cases k with
    | zero =>
      obtain rfl : q = p := by simpa using hk
      exact ⟨rfl, rfl⟩
    | succ k => exact ih (by simpa using hk)

/-! ### What storing a SymbolFrame leaves -/

/-- The words of `GLEN` that give the groups' lengths (10_state.md R44). -/
def lengthWords (groups : List (List Sample)) : List Word := groups.map fun g => BitVec.ofNat 32 g.length

theorem lengthWords_length (groups : List (List Sample)) : (lengthWords groups).length = groups.length :=
  List.length_map _

theorem pointCount_eq (groups : List (List Sample)) : pointCount groups = groups.flatten.length :=
  List.length_flatten.symm

@[simp] theorem storeSymbols_resets (groups : List (List Sample)) (s : State) :
    (storeSymbols groups s).resets = s.resets := by
  simp [storeSymbols]

@[simp] theorem storeSymbols_ovr (groups : List (List Sample)) (s : State) :
    (storeSymbols groups s).ovr = s.ovr := by
  simp [storeSymbols]

/-- The points go to another space, so `GLEN` is as the lengths left it. -/
theorem storeSymbols_glen (groups : List (List Sample)) (s : State) :
    (storeSymbols groups s).mem .glen = (s.putWords .glen (lengthWords groups)).mem .glen := by
  rw [storeSymbols, storeCounts_mem, State.mem_putWords, if_neg (by decide), lengthWords]

/-- The lengths go to another space, so `SYM` is as if the points alone were stored. -/
theorem storeSymbols_sym (groups : List (List Sample)) (s : State) :
    (storeSymbols groups s).mem .sym = (s.putWords .sym (sampleWords groups.flatten)).mem .sym := by
  rw [storeSymbols, storeCounts_mem, State.mem_putWords, if_pos rfl, State.mem_putWords, if_neg (by decide),
    State.mem_putWords, if_pos rfl]

theorem storeSymbols_word_glen {groups : List (List Sample)} {g : Nat} {points : List Sample} (s : State)
    (hfit : groups.length ≤ Config.maxGroups) (hg : groups[g]? = some points) :
    (storeSymbols groups s).word .glen g = BitVec.ofNat 32 points.length := by
  have hlt := (List.getElem?_eq_some_iff.1 hg).1
  rw [State.word_eq_of_mem (storeSymbols_glen groups s) (by simp)]
  exact word_putWords_inside (by rw [capacityBits_glen]; omega) (by simp [lengthWords, hg])

theorem storeSymbols_sample {groups : List (List Sample)} {k : Nat} {p : Sample} (s : State)
    (hfit : groups.flatten.length ≤ Config.symDepth) (hk : groups.flatten[k]? = some p) :
    (storeSymbols groups s).sample .sym k = p := by
  have hlt := (List.getElem?_eq_some_iff.1 hk).1
  obtain ⟨hre, him⟩ := sampleWords_getElem? hk
  rw [State.sample_eq_of_mem (storeSymbols_sym groups s) (by simp), State.sample,
    word_putWords_inside (by rw [capacityBits_sym]; omega) hre,
    word_putWords_inside (by rw [capacityBits_sym]; omega) him]

/-- A group is part of the frame, so its length fits a word where the frame fits `SYM`. -/
theorem group_length_le {groups : List (List Sample)} {g : Nat} {points : List Sample}
    (hg : groups[g]? = some points) : points.length ≤ groups.flatten.length :=
  (List.sublist_flatten_of_mem (List.mem_of_getElem? hg)).length_le

theorem holdsSymbols_storeSymbols {groups : List (List Sample)} (s : State)
    (hgroups : groups.length ≤ Config.maxGroups) (hpoints : groups.flatten.length ≤ Config.symDepth) :
    HoldsSymbols groups s (storeSymbols groups s) := by
  have hmax := maxGroups_bounds
  have hdepth := symDepth_bounds
  refine ⟨Nat.mod_eq_of_lt (by omega), ?_, fun g points hg => ?_, fun k p => storeSymbols_sample s hpoints,
    fun a ha => ?_, fun a ha => ?_⟩
  · rw [storeSymbols, storeCounts_symCount, pointCount_eq]
    exact Nat.mod_eq_of_lt (by omega)
  · have hle := group_length_le hg
    rw [State.groupLen, storeSymbols_word_glen s hgroups hg]
    exact Nat.mod_eq_of_lt (by omega)
  · rw [State.byte_eq_of_mem (storeSymbols_glen groups s) (by simp)]
    exact byte_putWords_outside (by rw [lengthWords_length]; exact ha)
  · rw [State.byte_eq_of_mem (storeSymbols_sym groups s) (by simp)]
    exact byte_putWords_outside (by rw [sampleWords_length]; omega)

/-! ### Reading a SymbolFrame group by group -/

section
variable {groups : List (List Sample)} {s t : State} {g : Nat} {points : List Sample}

/-- Behind the points of the groups before it come the points of group `g`. -/
theorem getElem?_flatten_of_group (hg : groups[g]? = some points) {k : Nat} (hk : k < points.length) :
    groups.flatten[(groups.take g).flatten.length + k]? = points[k]? := by
  obtain ⟨hlt, rfl⟩ := List.getElem?_eq_some_iff.1 hg
  have hsplit : groups.flatten = (groups.take g).flatten ++ (groups[g] ++ (groups.drop (g + 1)).flatten) := by
    rw [← List.flatten_cons, ← List.drop_eq_getElem_cons hlt, ← List.flatten_append, List.take_append_drop]
  rw [hsplit, List.getElem?_append_right (Nat.le_add_right _ _), Nat.add_sub_cancel_left,
    List.getElem?_append_left hk]

/-- `o_g` is the number of points in the groups before `g` (10_state.md R44). -/
theorem groupStart_of_holdsSymbols (h : HoldsSymbols groups s t) (hg : g ≤ groups.length) :
    t.groupStart g = (groups.take g).flatten.length := by
  obtain ⟨-, -, hlen, -⟩ := h
  induction g with
  | zero => rfl
  | succ g ih =>
    have hget : groups[g]? = some groups[g] := List.getElem?_eq_getElem hg
    rw [State.groupStart, ih (Nat.le_of_succ_le hg), hlen g _ hget, List.take_add_one, hget, Option.toList_some,
      List.flatten_append, List.length_append, List.flatten_singleton]

theorem groupPoints_of_holdsSymbols (h : HoldsSymbols groups s t) (hg : groups[g]? = some points) :
    t.groupPoints g = points := by
  have hstart := groupStart_of_holdsSymbols h (List.getElem?_eq_some_iff.1 hg).1.le
  obtain ⟨-, -, hlen, hsym, -⟩ := h
  rw [State.groupPoints, hstart, hlen g _ hg]
  refine List.ext_getElem? fun k => ?_
  by_cases hk : k < points.length
  · have hpoint : points[k]? = some points[k] := List.getElem?_eq_getElem hk
    rw [State.samples_getElem? t .sym (Nat.add_lt_add_left hk _), hpoint,
      hsym _ _ ((getElem?_flatten_of_group hg hk).trans hpoint)]
  · rw [List.getElem?_eq_none (by simpa using hk), List.getElem?_eq_none (Nat.le_of_not_lt hk)]

end

/-- Settles O23: a frame that is held can be read group by group, since `GLEN`'s running sums find each group. -/
theorem symbolFrameIsStored : Obligations.SymbolFrameIsStored := fun s _ hgroups hpoints =>
  have h := holdsSymbols_storeSymbols s hgroups hpoints
  ⟨h, fun _ _ => groupPoints_of_holdsSymbols h⟩

/-! ### `SXTR` -/

theorem symbolsFit_iff (groups : List (List Sample)) : symbolsFit groups = true ↔
    groups.length ≤ Config.maxGroups ∧ groups.flatten.length ≤ Config.symDepth := by
  rw [symbolsFit, Bool.and_eq_true, decide_eq_true_iff, decide_eq_true_iff, pointCount_eq]

theorem symbolsFit_eq_false_iff (groups : List (List Sample)) : symbolsFit groups = false ↔
    Config.maxGroups < groups.length ∨ Config.symDepth < groups.flatten.length := by
  rw [← Bool.not_eq_true, symbolsFit_iff, not_and_or, Nat.not_le, Nat.not_le]

/-- A frame is held in the counts and the two spaces, not in `STATUS`. -/
theorem holdsSymbols_complete {groups : List (List Sample)} {s t : State} (h : HoldsSymbols groups s t)
    (c : ResultCode) : HoldsSymbols groups s (t.complete c) := h

/-- Success writes the two counts, `SYM` and `GLEN` (R140). -/
theorem storeSymbols_keeping (groups : List (List Sample)) (s : State) (skipZc : Bool) :
    CompletesKeeping .ok (writtenRegs (.sxtr skipZc)) (writtenSpaces (.sxtr skipZc)) s
      ((storeSymbols groups s).complete .ok) :=
  completesKeeping_complete .ok (keepsRegs_storeSymbols groups s) (keepsBytes_storeSymbols groups s)
    (storeSymbols_ovr groups s) (keepsPort_storeSymbols groups s)

/-- Failure writes the two counts and no buffer (R140). -/
theorem symbolsFailed_keeping (s : State) (skipZc : Bool) :
    CompletesKeeping .symx (writtenRegs (.sxtr skipZc)) [] s ((symbolsFailed s).complete .symx) :=
  completesKeeping_complete .symx (keepsRegs_storeCounts 0 0 s) (keepsBytes_storeCounts [] 0 0 s) rfl
    (keepsPort_storeCounts 0 0 s)

/-- Settles O24: the two cases of the body, `symbolsFit` being the two bounds. -/
theorem sxtrStoresSymbolFrame : Obligations.SxtrStoresSymbolFrame := by
  intro skipZc s hbur
  have hrange : ¬ sxtrOutOfRange s = true := fun hr => Nat.not_lt_of_le hbur ((sxtrOutOfRange_iff s).1 hr)
  refine ⟨sxtrBody skipZc s, exec_sxtr_body skipZc hrange, ?_⟩
  obtain ⟨groups, hdemod, hfit, hbody⟩ | ⟨hnone, hbody⟩ := sxtrBody_cases skipZc s <;> rw [hbody]
  · obtain ⟨hgroups, hpoints⟩ := (symbolsFit_iff groups).1 hfit
    exact .inl ⟨groups, hdemod, hgroups, hpoints,
      holdsSymbols_complete (holdsSymbols_storeSymbols s hgroups hpoints) .ok,
      storeSymbols_keeping groups s skipZc⟩
  · exact .inr ⟨fun groups hdemod => (symbolsFit_eq_false_iff groups).1 (hnone groups hdemod), rfl, rfl,
      symbolsFailed_keeping s skipZc⟩

end Sys2Proof.Proofs.SymbolExtract
end

section
/-! PROOFS. The positions a rate de-matching reads (44_rate_dematch.md R170 to R174): under a placement that marks
exactly the surplus cells, they are the positions of the stream in another order; the placement in use is one. -/

namespace Sys2Proof.Proofs.DematchPlacement

open Sys2Proof Sys2Proof.Machine

/-! ### The cells of the matrix -/

/-- A cell's place in column-major order (00_scope.md R10). -/
def columnMajorIndex (rows : Nat) (cell : Nat × Nat) : Nat := cell.2 * rows + cell.1

theorem columns_flatten (rows cols : Nat) :
    (List.range cols).flatMap (fun c => (List.range rows).map (fun r => c * rows + r)) = List.range (cols * rows) := by
  induction cols with
  | zero => simp
  | succ cols ih => rw [List.range_succ, List.flatMap_append, ih, Nat.succ_mul, List.range_add]; simp

theorem cellsByColumn_map_index (rows : Nat) :
    (cellsByColumn rows).map (columnMajorIndex rows) = List.range (rdmCols * rows) := by
  rw [← columns_flatten, cellsByColumn, List.map_flatMap]
  simp only [List.map_map]
  rfl

theorem cellsByColumn_nodup (rows : Nat) : (cellsByColumn rows).Nodup :=
  .of_map (columnMajorIndex rows) (cellsByColumn_map_index rows ▸ List.nodup_range)

theorem cellsByColumn_length (rows : Nat) : (cellsByColumn rows).length = rdmCols * rows := by
  simpa using congrArg List.length (cellsByColumn_map_index rows)

theorem mem_cellsByColumn (rows : Nat) (cell : Nat × Nat) :
    cell ∈ cellsByColumn rows ↔ cell.1 < rows ∧ cell.2 < rdmCols := by
  obtain ⟨r, c⟩ := cell
  simp [cellsByColumn, and_comm]

theorem mem_cellsByRow (rows : Nat) (cell : Nat × Nat) :
    cell ∈ cellsByRow rows ↔ cell.1 < rows ∧ cell.2 < rdmCols := by
  obtain ⟨r, c⟩ := cell
  simp [cellsByRow]

theorem cellsByRow_nodup (rows : Nat) : (cellsByRow rows).Nodup := List.nodup_range.product List.nodup_range

/-- The two orders visit the same cells. -/
theorem cellsByRow_perm (rows : Nat) : (cellsByRow rows).Perm (cellsByColumn rows) :=
  (List.perm_ext_iff_of_nodup (cellsByRow_nodup rows) (cellsByColumn_nodup rows)).2 fun cell =>
    (mem_cellsByRow rows cell).trans (mem_cellsByColumn rows cell).symm

/-! ### The permutation -/

theorem le_cells (len : Nat) : len ≤ rdmCols * rdmRows len := by unfold rdmRows rdmCols; omega

theorem dummyAdmissible_iff (dummy : Nat → Nat → Nat → Bool) (len : Nat) : dummyAdmissible dummy len = true ↔
    ((cellsByColumn (rdmRows len)).filter (fun cell => dummy len cell.1 cell.2)).length
      = rdmCols * rdmRows len - len := beq_iff_eq

/-- An admissible placement leaves one real cell per stream element (R172). -/
theorem filledCells_length {dummy : Nat → Nat → Nat → Bool} {len : Nat} (h : dummyAdmissible dummy len = true) :
    (filledCells dummy len).length = len := by
  have hsplit := List.length_eq_length_filter_add (l := cellsByColumn (rdmRows len))
    (fun cell => dummy len cell.1 cell.2)
  rw [(dummyAdmissible_iff dummy len).1 h, cellsByColumn_length] at hsplit
  have hreal : (filledCells dummy len).length
      = ((cellsByColumn (rdmRows len)).filter (fun cell => !dummy len cell.1 cell.2)).length := rfl
  have := le_cells len
  omega

theorem map_idxOf_self {α : Type} [BEq α] [LawfulBEq α] {l : List α} (h : l.Nodup) :
    l.map l.idxOf = List.range l.length :=
  List.ext_getElem (by simp) fun i hi _ => by
    rw [List.getElem_map, List.getElem_range, h.idxOf_getElem i]

/-- The reading order is a permutation of the stream positions (R174). -/
theorem dematchPerm_perm {dummy : Nat → Nat → Nat → Bool} {len : Nat} (h : dummyAdmissible dummy len = true) :
    (dematchPerm dummy len).Perm (List.range len) := by
  have hnodup : (filledCells dummy len).Nodup := (cellsByColumn_nodup _).filter _
  have hcells : (readCells dummy len).Perm (filledCells dummy len) := (cellsByRow_perm _).filter _
  have hpos := hcells.map fun cell => (filledCells dummy len).idxOf cell
  rwa [map_idxOf_self hnodup, filledCells_length h] at hpos

/-! ### The placement in use -/

theorem dummyAdmissible_default (len : Nat) : dummyAdmissible rdmDummyDefault len = true := by
  rw [dummyAdmissible_iff]
  calc ((cellsByColumn (rdmRows len)).filter (fun cell => rdmDummyDefault len cell.1 cell.2)).length
      = (((cellsByColumn (rdmRows len)).map (columnMajorIndex (rdmRows len))).filter
          (fun k => decide (len ≤ k))).length := by rw [List.filter_map, List.length_map]; rfl
    _ = (List.Ico (max 0 len) (rdmCols * rdmRows len)).length := by
        rw [cellsByColumn_map_index, ← List.Ico.zero_bot, List.Ico.filter_le]
    _ = rdmCols * rdmRows len - len := by rw [List.Ico.length, Nat.zero_max]

/-- Admissibility at a length looks at that length only. -/
theorem dummyAdmissible_congr {f g : Nat → Nat → Nat → Bool} {len : Nat} (h : f len = g len) :
    dummyAdmissible f len = dummyAdmissible g len := by
  unfold dummyAdmissible
  rw [h]

/-- What the implementation asks for is used only where it is admissible, and the default is admissible (log 11). -/
theorem dummyAdmissible_implParams (len : Nat) : dummyAdmissible implParams.dummy len = true := by
  by_cases h : dummyAdmissible Config.requestedDummy len = true
  · exact (dummyAdmissible_congr (by funext r c; exact if_pos h)).trans h
  · exact (dummyAdmissible_congr (by funext r c; exact if_neg h)).trans (dummyAdmissible_default len)

end Sys2Proof.Proofs.DematchPlacement
end

section
/-! PROOFS. The steps of the phase decoder (43_phase_decode.md R150 to R154): the default tables, `QMAP` and `PACK`. -/

namespace Sys2Proof.Proofs.PhaseDecode

open Sys2Proof Sys2Proof.Machine

/-! ### The default tables (R152) -/

/-- The default tables in closed form: quarter turns of the two sign bits. -/
theorem qpskLutDefault_signs (re im : Bool) :
    qpskLutDefault 0#2 (BitVec.ofBool re ++ BitVec.ofBool im) = BitVec.ofBool re ++ BitVec.ofBool im ∧
    qpskLutDefault 1#2 (BitVec.ofBool re ++ BitVec.ofBool im) = BitVec.ofBool im ++ BitVec.ofBool (!re) ∧
    qpskLutDefault 2#2 (BitVec.ofBool re ++ BitVec.ofBool im) = BitVec.ofBool (!re) ++ BitVec.ofBool (!im) ∧
    qpskLutDefault 3#2 (BitVec.ofBool re ++ BitVec.ofBool im) = BitVec.ofBool (!im) ++ BitVec.ofBool re := by
  revert re im; decide

theorem qpskLutDefault_succ (h : BitVec 2) (re im : Bool) :
    qpskLutDefault (h + 1#2) (BitVec.ofBool re ++ BitVec.ofBool im) =
      qpskLutDefault h (BitVec.ofBool im ++ BitVec.ofBool (!re)) := by
  revert h re im; decide

theorem qpskLutDefault_injective (h : BitVec 2) : Function.Injective (qpskLutDefault h) := by
  unfold Function.Injective; revert h; decide

/-- The table's first entry already tells which table it is. -/
theorem qpskLutDefault_zero_injective : Function.Injective fun h => qpskLutDefault h 0#2 := by
  unfold Function.Injective; decide

/-- Settles O26: the closed form is the tables'; the first column separates them. -/
theorem qpskTablesAreRotations : Obligations.QpskTablesAreRotations :=
  ⟨fun _ => rfl, qpskLutDefault_signs, qpskLutDefault_succ, fun h _ _ e => qpskLutDefault_injective h e,
    fun _ _ e => qpskLutDefault_zero_injective (e 0#2)⟩

/-! ### Lengths -/

/-- Twice a symbol count in range is a register word. -/
theorem toNat_twice {n : Nat} (hn : n ≤ Config.symDepth) : (BitVec.ofNat 32 (2 * n)).toNat = 2 * n := by
  have := symDepth_bounds
  rw [BitVec.toNat_ofNat, Nat.mod_eq_of_lt (by omega)]

/-- The packed length of a word fits the word. -/
theorem toNat_eighth (w : Word) : (BitVec.ofNat 32 (w.toNat / 8)).toNat = w.toNat / 8 := by
  have := w.isLt
  rw [BitVec.toNat_ofNat, Nat.mod_eq_of_lt (by omega)]

theorem bytes_from_zero (s : State) (sp : Space) (n : Nat) : s.bytes sp 0 n = (List.range n).map (s.byte sp) := by
  rw [State.bytes, indices, List.range_eq_range', Nat.sub_zero]

/-! ### `QMAP` -/

theorem mapBits_bit {lut : BitVec 2 → BitVec 2 → BitVec 2} {h : BitVec 2} {s : State}
    (hfit : s.symCount.toNat ≤ Config.symDepth) {k : Nat} (hk : k < s.symCount.toNat) :
    (mapBits lut h s).bit .raw (2 * k) = (lut h (quadrant (s.sample .sym k))).getLsbD 1 ∧
      (mapBits lut h s).bit .raw (2 * k + 1) = (lut h (quadrant (s.sample .sym k))).getLsbD 0 := by
  have hcap : (mappedBits lut h s).length ≤ 2 * Config.symDepth := by rw [mappedBits_length]; omega
  obtain ⟨hhigh, hlow⟩ := mappedBits_getElem? lut h s hk
  exact ⟨bit_storeRaw h hcap hhigh, bit_storeRaw h hcap hlow⟩

theorem exec_qmap_in_range (h : BitVec 2) {s : State} (hfit : s.symCount.toNat ≤ Config.symDepth) :
    exec (.qmap h) s = .next ((mapBits implParams.lut h s).complete .ok) :=
  exec_qmap_body h fun hr => Nat.not_lt_of_le hfit ((symOutOfRange_iff s).1 hr)

/-- Settles O25: `MapBits` stores the pairs of all points, and completion changes `STATUS` only. -/
theorem qmapMapsEveryPoint : Obligations.QmapMapsEveryPoint := by
  intro h s hfit
  have hlen := mappedBits_length implParams.lut h s
  have hcap : (mappedBits implParams.lut h s).length ≤ 2 * Config.symDepth := by omega
  exact ⟨_, exec_qmap_in_range h hfit,
    (congrArg BitVec.toNat (mapBits_rawLen implParams.lut h s)).trans (toNat_twice hfit),
    mapBits_pdHyp implParams.lut h s, mapBits_pdOk implParams.lut h s, mapBits_pdLenx implParams.lut h s,
    mapBits_pdAtt implParams.lut h s, fun k hk => mapBits_bit hfit hk,
    fun i hi => bit_storeRaw_outside h hcap (hlen.trans_le hi),
    fun a ha => byte_storeRaw_outside h (hlen.trans_le ha),
    completesKeeping_complete .ok (keepsRegs_mapBits _ h s) (keepsBytes_mapBits _ h s) (mapBits_ovr _ h s)
      (keepsPort_storeRaw _ h s)⟩

/-! ### `PACK` -/

theorem packedBytes_length (s : State) : (packBits (s.bits .dsc 0 s.dscLen.toNat)).length = s.dscLen.toNat / 8 := by
  rw [packBits_length, State.bits_length, Nat.sub_zero]

theorem byte_packBytes (struct : List Byte → Bool) (s : State) (a : Nat) :
    (packBytes struct s).byte .frm a = (packFrame s).byte .frm a :=
  State.byte_eq_of_mem (storeVerdict_mem _ (packFrame s) .frm) (storeVerdict_resets _ _) a

theorem packFrame_byte {s : State} (hfit : s.dscLen.toNat ≤ 2 * Config.symDepth) {j : Nat}
    (hj : j < s.dscLen.toNat / 8) : (packFrame s).byte .frm j =
      packByte (s.bit .dsc (8 * j)) (s.bit .dsc (8 * j + 1)) (s.bit .dsc (8 * j + 2)) (s.bit .dsc (8 * j + 3))
        (s.bit .dsc (8 * j + 4)) (s.bit .dsc (8 * j + 5)) (s.bit .dsc (8 * j + 6)) (s.bit .dsc (8 * j + 7)) :=
  byte_storeFrm (by rw [packedBytes_length]; omega) (packBits_bits_getElem? s .dsc hj)

theorem packFrame_byte_outside {s : State} {a : Nat} (ha : s.dscLen.toNat / 8 ≤ a) :
    (packFrame s).byte .frm a = s.byte .frm a := byte_storeFrm_outside ((packedBytes_length s).trans_le ha)

theorem exec_pack_in_range {s : State} (hfit : s.dscLen.toNat ≤ 2 * Config.symDepth) :
    exec .pack s = .next (completeByFrame (packBytes implParams.struct s)) :=
  exec_pack_body fun hr => Nat.not_lt_of_le hfit ((packOutOfRange_iff s).1 hr)

theorem packBytes_frmLen_toNat (struct : List Byte → Bool) (s : State) :
    (packBytes struct s).frmLen.toNat = s.dscLen.toNat / 8 :=
  (congrArg BitVec.toNat (packBytes_frmLen struct s)).trans (toNat_eighth _)

/-- Settles O34: `PackFrame` stores the packed bytes, the verdict is that of the bytes it leaves, and completion changes
`STATUS` only. -/
theorem packMakesBytes : Obligations.PackMakesBytes := by
  intro s hfit
  have hbyte := byte_packBytes implParams.struct s
  refine ⟨_, exec_pack_in_range hfit, packBytes_frmLen_toNat implParams.struct s, fun j hj => ?_,
    fun a ha => (hbyte a).trans (packFrame_byte_outside ha), packBytes_crcCalc implParams.struct s,
    packBytes_crcRx implParams.struct s, packBytes_crcValid implParams.struct s, ?_,
    packBytes_pdHyp implParams.struct s, packBytes_pdLenx implParams.struct s, packBytes_pdAtt implParams.struct s,
    completesKeeping_complete _ (keepsRegs_packBytes _ s) (keepsBytes_packBytes _ s) (packBytes_ovr _ s)
      (Commands.keepsPort_packBytes _ s)⟩
  · exact (congrArg BitVec.toNat ((hbyte j).trans (packFrame_byte hfit hj))).trans (packByte_toNat ..)
  · have hok := packBytes_pdOk_iff implParams.struct s
    rwa [packBytes_frmLen_toNat, bytes_from_zero] at hok

end Sys2Proof.Proofs.PhaseDecode
end

section
/-! PROOFS. One decode attempt and the ordered loop of attempts (43_phase_decode.md R155 to R158): `PDAT` is its four
micro-commands, `PDEC` is `PDAT` by `PDAT` and then `CRCC`. -/

namespace Sys2Proof.Proofs.DecodeAttempts

open Sys2Proof Sys2Proof.Machine Sys2Proof.Proofs.PhaseDecode

/-! ### The micro-commands after another command -/

theorem exec_rdm_complete {s : State} (hfit : s.rawLen.toNat ≤ 2 * Config.symDepth) (c : ResultCode) :
    exec .rdm (s.complete c) = .next ((dematch implParams.dummy s).complete .ok) := by
  have hr : ¬ rdmOutOfRange (s.complete c) = true := fun hr => Nat.not_lt_of_le hfit ((rdmOutOfRange_iff _).1 hr)
  rw [exec_rdm_body hr, dematch_complete, State.complete_complete]

theorem exec_dscr_complete {s : State} (hfit : s.demLen.toNat ≤ 2 * Config.symDepth) (c : ResultCode) :
    exec .dscr (s.complete c) = .next ((descramble implParams.poly s).complete .ok) := by
  have hr : ¬ dscrOutOfRange (s.complete c) = true := fun hr => Nat.not_lt_of_le hfit ((dscrOutOfRange_iff _).1 hr)
  rw [exec_dscr_body hr, descramble_complete, State.complete_complete]

theorem exec_pack_complete {s : State} (hfit : s.dscLen.toNat ≤ 2 * Config.symDepth) (c : ResultCode) :
    exec .pack (s.complete c) = .next (completeByFrame (packBytes implParams.struct s)) := by
  rw [exec_pack_in_range (s := s.complete c) hfit, packBytes_complete, completeByFrame_complete]

/-! ### One attempt -/

theorem attempt_frmLen_toNat {p : DecoderParams} {h : BitVec 2} {s : State}
    (hfit : s.symCount.toNat ≤ Config.symDepth) : (attempt p h s).frmLen.toNat = 2 * s.symCount.toNat / 8 := by
  rw [attempt_frmLen, toNat_eighth, toNat_twice hfit]

/-- The verdict of an attempt: 364 points fill the 91 bytes of a frame (R157, R158). -/
theorem attempt_pdOk_iff_points {p : DecoderParams} {h : BitVec 2} {s : State}
    (hfit : s.symCount.toNat ≤ Config.symDepth) : (attempt p h s).pdOk = true ↔
      364 ≤ s.symCount.toNat ∧ p.struct ((attempt p h s).bytes .frm 0 91) = true := by
  have hlen : 91 ≤ (attempt p h s).frmLen.toNat ↔ 364 ≤ s.symCount.toNat := by
    rw [attempt_frmLen_toNat hfit]
    omega
  rw [attempt_pdOk_iff, hlen]

theorem exec_pdat_in_range (h : BitVec 2) {s : State} (hfit : s.symCount.toNat ≤ Config.symDepth) :
    exec (.pdat h) s = .next (pdatBody implParams h s) :=
  exec_pdat_body h fun hr => Nat.not_lt_of_le hfit ((symOutOfRange_iff s).1 hr)

theorem pdatBody_eq_complete (p : DecoderParams) (h : BitVec 2) (s : State) : pdatBody p h s =
    (storeAttempts 1 (attempt p h s)).complete (if (attempt p h s).pdOk then .ok else .phase) := by
  rw [pdatBody, completeByFrame, storeAttempts_pdOk]

theorem pdatBody_symCount (p : DecoderParams) (h : BitVec 2) (s : State) :
    (pdatBody p h s).symCount = s.symCount := by
  rw [pdatBody_eq_complete, State.complete_symCount, storeAttempts_symCount, attempt_symCount]

theorem pdatBody_res (p : DecoderParams) (h : BitVec 2) (s : State) :
    (pdatBody p h s).res = if (attempt p h s).pdOk then .ok else .phase := by
  rw [pdatBody_eq_complete, State.complete_res]

theorem pdatBody_res_eq_ok_iff (p : DecoderParams) (h : BitVec 2) (s : State) :
    (pdatBody p h s).res = .ok ↔ (attempt p h s).pdOk = true := by
  rw [pdatBody_res]
  cases (attempt p h s).pdOk <;> decide

theorem pdatBody_bytes (p : DecoderParams) (h : BitVec 2) (s : State) (n : Nat) :
    (pdatBody p h s).bytes .frm 0 n = (attempt p h s).bytes .frm 0 n := by
  rw [pdatBody_eq_complete]
  exact State.bytes_eq_of_mem (by rw [State.mem_complete, storeAttempts_mem])
    (by rw [State.complete_resets, storeAttempts_resets]) 0 n

/-- Counting attempts before or after completion is the same. -/
theorem completeByFrame_storeAttempts_one (s : State) :
    completeByFrame (storeAttempts 1 s) = { completeByFrame s with pdAtt := 1#3 } := rfl

/-- Settles O35: each micro-command takes up where the one before completed, and a result code enters none of them. -/
theorem pdatIsTheMicroCommands : Obligations.PdatIsTheMicroCommands := by
  intro h s hfit
  have hlen : (BitVec.ofNat 32 (2 * s.symCount.toNat)).toNat ≤ 2 * Config.symDepth := by
    rw [toNat_twice hfit]; omega
  have hraw : (mapBits implParams.lut h s).rawLen.toNat ≤ 2 * Config.symDepth := by rwa [mapBits_rawLen]
  have hdem : (dematch implParams.dummy (mapBits implParams.lut h s)).demLen.toNat ≤ 2 * Config.symDepth := by
    rwa [dematch_demLen, mapBits_rawLen]
  have hdsc : (descramble implParams.poly (dematch implParams.dummy (mapBits implParams.lut h s))).dscLen.toNat
      ≤ 2 * Config.symDepth := by rwa [descramble_dscLen, dematch_demLen, mapBits_rawLen]
  refine ⟨_, _, _, completeByFrame (attempt implParams h s), _, exec_qmap_in_range h hfit, exec_rdm_complete hraw .ok,
    exec_dscr_complete hdem .ok, exec_pack_complete hdsc .ok, exec_pdat_in_range h hfit, rfl, rfl, rfl,
    RangeChecks.completeByFrame_res_ne_range _, completeByFrame_storeAttempts_one _, ?_⟩
  have hok := attempt_pdOk_iff_points (p := implParams) (h := h) hfit
  rw [← pdatBody_bytes, bytes_from_zero] at hok
  rw [pdatBody_res]
  exact if_congr hok rfl rfl

/-! ### The loop, attempt by attempt -/

/-- What `PDEC` does after its loop (R156). -/
def afterLoop (u : State) : State := if u.pdOk then completeByCrc (checkCrc u) else u.complete .phase

theorem pdecBody_eq_afterLoop (p : DecoderParams) (s : State) :
    pdecBody p s = afterLoop (attemptLoop p hypotheses 0 s) := rfl

theorem afterLoop_of_pdOk {u : State} (h : u.pdOk = true) (n : Nat) :
    afterLoop (storeAttempts n u) = completeByCrc (checkCrc (storeAttempts n u)) := if_pos h

theorem afterLoop_of_not_pdOk {u : State} (h : ¬ u.pdOk = true) (n : Nat) :
    afterLoop (storeAttempts n u) = (storeAttempts n u).complete .phase := if_neg h

theorem afterLoop_complete (u : State) (c : ResultCode) : afterLoop (u.complete c) = afterLoop u := by
  rw [afterLoop, State.complete_pdOk, checkCrc_complete, completeByCrc_complete, State.complete_complete, afterLoop]

/-- Neither a result code nor the attempts counted before enter the loop. -/
theorem attemptLoop_complete (p : DecoderParams) (hs : List (BitVec 2)) (n : Nat) (s : State) (c : ResultCode) :
    attemptLoop p hs n (s.complete c) = (attemptLoop p hs n s).complete c := by
  induction hs generalizing n s with
  | nil => exact storeAttempts_complete n s c
  | cons h hs ih =>
    rw [attemptLoop, attemptLoop, attempt_complete, State.complete_pdOk, ih, storeAttempts_complete]
    split <;> rfl

theorem attemptLoop_storeAttempts (p : DecoderParams) (hs : List (BitVec 2)) (m n : Nat) (s : State) :
    attemptLoop p hs n (storeAttempts m s) = attemptLoop p hs n s := by
  induction hs generalizing n s with
  | nil => exact storeAttempts_storeAttempts n m s
  | cons h hs ih =>
    rw [attemptLoop, attemptLoop, attempt_storeAttempts, storeAttempts_pdOk, ih, storeAttempts_storeAttempts]

/-- Whether the attempt was `PDAT`'s does not matter to what follows it. -/
theorem afterLoop_pdatBody (p : DecoderParams) (h : BitVec 2) (hs : List (BitVec 2)) (n : Nat) (s : State) :
    afterLoop (attemptLoop p hs n (pdatBody p h s)) = afterLoop (attemptLoop p hs n (attempt p h s)) := by
  rw [pdatBody_eq_complete, attemptLoop_complete, afterLoop_complete, attemptLoop_storeAttempts]

theorem storeAttempts_pdatBody (n : Nat) (p : DecoderParams) (h : BitVec 2) (s : State) :
    storeAttempts n (pdatBody p h s) =
      (storeAttempts n (attempt p h s)).complete (if (attempt p h s).pdOk then .ok else .phase) := by
  rw [pdatBody_eq_complete, storeAttempts_complete, storeAttempts_storeAttempts]

section
variable {p : DecoderParams} {h : BitVec 2} {s t : State}

/-- A hypothesis that fails: the loop goes on from the state `PDAT` leaves. -/
theorem afterLoop_cons_of_fail (ht : pdatBody p h s = t) (hfail : ¬ t.res = .ok) (hs : List (BitVec 2)) (n : Nat) :
    afterLoop (attemptLoop p (h :: hs) n s) = afterLoop (attemptLoop p hs (n + 1) t) := by
  subst ht
  rw [pdatBody_res_eq_ok_iff] at hfail
  rw [attemptLoop, if_neg hfail, afterLoop_pdatBody]

/-- The last hypothesis fails: `PDEC` ends as `PDAT` did. -/
theorem afterLoop_nil_of_fail (ht : pdatBody p h s = t) (hfail : ¬ t.res = .ok) (n : Nat) :
    afterLoop (attemptLoop p [] n t) = storeAttempts n t := by
  subst ht
  rw [pdatBody_res_eq_ok_iff] at hfail
  rw [attemptLoop, storeAttempts_pdatBody, afterLoop_complete, afterLoop_of_not_pdOk hfail, if_neg hfail]

theorem res_eq_phase_of_fail (ht : pdatBody p h s = t) (hfail : ¬ t.res = .ok) : t.res = .phase := by
  subst ht
  rw [pdatBody_res_eq_ok_iff] at hfail
  rw [pdatBody_res, if_neg hfail]

/-- A hypothesis that succeeds: the loop ends, and the frame is long enough for `CRCC`. -/
theorem exec_crcc_of_success (hfit : s.symCount.toNat ≤ Config.symDepth) (ht : pdatBody p h s = t) (hok : t.res = .ok)
    (hs : List (BitVec 2)) (n : Nat) :
    exec .crcc (storeAttempts (n + 1) t) = .next (afterLoop (attemptLoop p (h :: hs) n s)) := by
  subst ht
  rw [pdatBody_res_eq_ok_iff] at hok
  have hmin : 91 ≤ (attempt p h s).frmLen.toNat := ((attempt_pdOk_iff p h s).1 hok).1
  have hmax : (attempt p h s).frmLen.toNat ≤ 2 * Config.symDepth / 8 := by rw [attempt_frmLen_toNat hfit]; omega
  have hr : ¬ crccOutOfRange (storeAttempts (n + 1) (attempt p h s)) = true := by
    rw [crccOutOfRange_iff, storeAttempts_frmLen]; omega
  rw [storeAttempts_pdatBody, exec_crcc_complete hr, attemptLoop, if_pos hok, afterLoop_of_pdOk hok]

end

/-- The loop over the four hypotheses when all of them fail. -/
theorem afterLoop_of_all_fail {p : DecoderParams} {s a b c d : State} (ha : pdatBody p 0#2 s = a)
    (hb : pdatBody p 1#2 a = b) (hc : pdatBody p 2#2 b = c) (hd : pdatBody p 3#2 c = d) (h0 : ¬ a.res = .ok)
    (h1 : ¬ b.res = .ok) (h2 : ¬ c.res = .ok) (h3 : ¬ d.res = .ok) :
    afterLoop (attemptLoop p hypotheses 0 s) = storeAttempts 4 d := by
  rw [hypotheses, afterLoop_cons_of_fail ha h0, afterLoop_cons_of_fail hb h1, afterLoop_cons_of_fail hc h2,
    afterLoop_cons_of_fail hd h3, afterLoop_nil_of_fail hd h3]

/-! ### `PDEC` -/

/-- `PDAT` in range, with the state it leaves under a name. -/
theorem exists_pdat (h : BitVec 2) {s : State} (hfit : s.symCount.toNat ≤ Config.symDepth) :
    ∃ t, exec (.pdat h) s = .next t ∧ pdatBody implParams h s = t ∧ t.symCount = s.symCount :=
  ⟨_, exec_pdat_in_range h hfit, rfl, pdatBody_symCount implParams h s⟩

theorem exec_pdec_in_range {s : State} (hfit : s.symCount.toNat ≤ Config.symDepth) :
    exec .pdec s = .next (afterLoop (attemptLoop implParams hypotheses 0 s)) :=
  exec_pdec_body fun hr => Nat.not_lt_of_le hfit ((symOutOfRange_iff s).1 hr)

/-- Settles O36: the loop is followed hypothesis by hypothesis, up to the first that succeeds. -/
theorem pdecTriesHypothesesInOrder : Obligations.PdecTriesHypothesesInOrder := by
  intro s hs
  obtain ⟨a, hexa, ha, hsa⟩ := exists_pdat 0#2 hs
  have hfa : a.symCount.toNat ≤ Config.symDepth := by rwa [hsa]
  obtain ⟨b, hexb, hb, hsb⟩ := exists_pdat 1#2 hfa
  have hfb : b.symCount.toNat ≤ Config.symDepth := by rwa [hsb]
  obtain ⟨c, hexc, hc, hsc⟩ := exists_pdat 2#2 hfb
  have hfc : c.symCount.toNat ≤ Config.symDepth := by rwa [hsc]
  obtain ⟨d, hexd, hd, -⟩ := exists_pdat 3#2 hfc
  refine ⟨a, b, c, d, _, hexa, hexb, hexc, hexd, exec_pdec_in_range hs, ?_⟩
  split_ifs with h0 h1 h2 h3
  · exact exec_crcc_of_success hs ha h0 _ 0
  · rw [hypotheses, afterLoop_cons_of_fail ha h0]
    exact exec_crcc_of_success hfa hb h1 _ 1
  · rw [hypotheses, afterLoop_cons_of_fail ha h0, afterLoop_cons_of_fail hb h1]
    exact exec_crcc_of_success hfb hc h2 _ 2
  · rw [hypotheses, afterLoop_cons_of_fail ha h0, afterLoop_cons_of_fail hb h1, afterLoop_cons_of_fail hc h2]
    exact exec_crcc_of_success hfc hd h3 _ 3
  · rw [afterLoop_of_all_fail ha hb hc hd h0 h1 h2 h3]
    exact ⟨rfl, (storeAttempts_res 4 d).trans (res_eq_phase_of_fail hd h3)⟩

/-- Fewer than 364 points give fewer than 91 bytes, so `PDAT` fails and leaves as few points. -/
theorem pdat_fails_of_short (h : BitVec 2) {s : State} (hshort : s.symCount.toNat < 364) :
    ∃ t, exec (.pdat h) s = .next t ∧ pdatBody implParams h s = t ∧ t.symCount.toNat < 364 ∧ ¬ t.res = .ok := by
  have hfit : s.symCount.toNat ≤ Config.symDepth := by have := symDepth_bounds; omega
  obtain ⟨t, hex, ht, hcount⟩ := exists_pdat h hfit
  refine ⟨t, hex, ht, hcount ▸ hshort, ?_⟩
  rw [← ht, pdatBody_res_eq_ok_iff, attempt_pdOk_iff_points hfit]
  exact fun hok => Nat.not_lt_of_le hok.1 hshort

/-- What a failed `PDAT` leaves in the registers (R155, R158). -/
theorem pdat_registers_of_fail {p : DecoderParams} {h : BitVec 2} {s t : State} (ht : pdatBody p h s = t)
    (hfail : ¬ t.res = .ok) :
    t.pdHyp = h ∧ t.pdOk = false ∧ t.res = .phase ∧ t.crcCalc = 0#16 ∧ t.crcRx = 0#16 ∧ t.crcValid = false := by
  have hres := res_eq_phase_of_fail ht hfail
  subst ht
  rw [pdatBody_res_eq_ok_iff, Bool.not_eq_true] at hfail
  rw [pdatBody_eq_complete] at hres ⊢
  simp only [State.complete_pdHyp, State.complete_pdOk, State.complete_crcCalc, State.complete_crcRx,
    State.complete_crcValid, storeAttempts_pdHyp, storeAttempts_pdOk, storeAttempts_crcCalc, storeAttempts_crcRx,
    storeAttempts_crcValid]
  exact ⟨attempt_pdHyp p h s, hfail, hres, attempt_crcCalc p h s, attempt_crcRx p h s, attempt_crcValid p h s⟩

/-- Settles O38: all four hypotheses fail on a short frame, and the last one's state stays. -/
theorem pdecFailsAfterFourAttempts : Obligations.PdecFailsAfterFourAttempts := by
  intro s hshort
  have hfit : s.symCount.toNat ≤ Config.symDepth := by have := symDepth_bounds; omega
  obtain ⟨a, hexa, ha, hsa, h0⟩ := pdat_fails_of_short 0#2 hshort
  obtain ⟨b, hexb, hb, hsb, h1⟩ := pdat_fails_of_short 1#2 hsa
  obtain ⟨c, hexc, hc, hsc, h2⟩ := pdat_fails_of_short 2#2 hsb
  obtain ⟨d, hexd, hd, -, h3⟩ := pdat_fails_of_short 3#2 hsc
  have hpdec := exec_pdec_in_range hfit
  rw [afterLoop_of_all_fail ha hb hc hd h0 h1 h2 h3] at hpdec
  exact ⟨a, b, c, d, _, hexa, hexb, hexc, hexd, hpdec, rfl,
    by simpa only [storeAttempts_pdHyp, storeAttempts_pdOk, storeAttempts_res, storeAttempts_crcCalc,
      storeAttempts_crcRx, storeAttempts_crcValid] using pdat_registers_of_fail hd h3⟩

/-! ### The CRC check after the loop -/

theorem completeByCrc_storeCrc_res (sum rx : BitVec 16) (s : State) :
    (completeByCrc (storeCrc sum rx s)).res = if sum = rx then .ok else .crc := by
  show (if (sum == rx) = true then ResultCode.ok else .crc) = _
  simp only [beq_iff_eq]

/-- The code of a completed check says whether the two checksums it leaves agree (R156, R190). -/
theorem completeByCrc_checkCrc_res (s : State) : (completeByCrc (checkCrc s)).res =
    if (completeByCrc (checkCrc s)).crcCalc = (completeByCrc (checkCrc s)).crcRx then .ok else .crc :=
  completeByCrc_storeCrc_res (crcOfPayload s) (crcEmbedded s) s

/-- The check touches nothing of `PD_STAT`. -/
theorem completeByCrc_checkCrc_pdStat (s : State) : (completeByCrc (checkCrc s)).pdHyp = s.pdHyp ∧
    (completeByCrc (checkCrc s)).pdAtt = s.pdAtt ∧ (completeByCrc (checkCrc s)).pdOk = s.pdOk := by
  rw [completeByCrc, State.complete_pdHyp, State.complete_pdAtt, State.complete_pdOk]
  exact ⟨checkCrc_pdHyp s, checkCrc_pdAtt s, checkCrc_pdOk s⟩

/-- Settles O37: under a test that is always true, 364 points make hypothesis 0 succeed. -/
theorem pdecStopsAtHypothesisZero : Obligations.PdecStopsAtHypothesisZero := by
  refine ⟨fun _ => rfl, fun _ _ => rfl, fun p s hstruct hmin hfit => ?_⟩
  have hrange : ¬ symOutOfRange s = true := fun hr => Nat.not_lt_of_le hfit ((symOutOfRange_iff s).1 hr)
  have hpdOk : (attempt p 0#2 s).pdOk = true := (attempt_pdOk_iff_points hfit).2 ⟨hmin, hstruct _⟩
  have hok : (pdatBody p 0#2 s).res = .ok := (pdatBody_res_eq_ok_iff p 0#2 s).2 hpdOk
  have hcrcc := exec_crcc_of_success hfit rfl hok [1#2, 2#2, 3#2] 0
  have hend : afterLoop (attemptLoop p hypotheses 0 s) =
      completeByCrc (checkCrc (storeAttempts 1 (attempt p 0#2 s))) := by
    rw [hypotheses, attemptLoop, if_pos hpdOk, afterLoop_of_pdOk hpdOk]
  have hatt : storeAttempts 1 (pdatBody p 0#2 s) = pdatBody p 0#2 s := by
    rw [storeAttempts_pdatBody, pdatBody_eq_complete]
  rw [hatt, ← hypotheses, hend] at hcrcc
  rw [pdatWith, if_neg hrange, pdecWith, if_neg hrange, pdecBody_eq_afterLoop, hend]
  obtain ⟨hhyp, hcount, hverdict⟩ := completeByCrc_checkCrc_pdStat (storeAttempts 1 (attempt p 0#2 s))
  exact ⟨_, _, rfl, hok, hcrcc, rfl,
    hhyp.trans ((storeAttempts_pdHyp 1 _).trans (attempt_pdHyp p 0#2 s)),
    hcount.trans (storeAttempts_pdAtt 1 _), hverdict.trans ((storeAttempts_pdOk 1 _).trans hpdOk),
    completeByCrc_checkCrc_res _⟩

end Sys2Proof.Proofs.DecodeAttempts
end

section
/-! PROOFS. What a decode depends on (43_phase_decode.md R151, R156; 45_gold_descramble.md R182): the frame of one
attempt in closed form, and from it that `PDEC`'s outcome is a function of `SYM_COUNT`, the sign bits and the seed. -/

namespace Sys2Proof.Proofs.DecodeInputs

open Sys2Proof Sys2Proof.Machine Sys2Proof.Proofs.DematchPlacement Sys2Proof.Proofs.PhaseDecode
  Sys2Proof.Proofs.DecodeAttempts

/-! ### Reading a space back as a whole -/

theorem bits_of_getElem? {s : State} {sp : Space} {bits : List Bool} {n : Nat} (hn : bits.length = n)
    (h : ∀ {k : Nat} {v : Bool}, bits[k]? = some v → s.bit sp k = v) : s.bits sp 0 n = bits := by
  subst hn
  refine List.ext_getElem? fun k => ?_
  by_cases hk : k < bits.length
  · rw [State.bits_getElem? s sp (by omega), Nat.zero_add, List.getElem?_eq_getElem hk,
      h (List.getElem?_eq_getElem hk)]
  · rw [List.getElem?_eq_none (by simpa using hk), List.getElem?_eq_none (Nat.le_of_not_lt hk)]

theorem mapBits_bits {lut : BitVec 2 → BitVec 2 → BitVec 2} {h : BitVec 2} {s : State}
    (hfit : s.symCount.toNat ≤ Config.symDepth) :
    (mapBits lut h s).bits .raw 0 (2 * s.symCount.toNat) = mappedBits lut h s :=
  bits_of_getElem? (mappedBits_length lut h s) (bit_storeRaw h (by rw [mappedBits_length]; omega))

theorem dematch_bits {dummy : Nat → Nat → Nat → Bool} {s : State}
    (hadm : dummyAdmissible dummy s.rawLen.toNat = true) (hfit : s.rawLen.toNat ≤ 2 * Config.symDepth) :
    (dematch dummy s).bits .dem 0 s.rawLen.toNat = dematchedBits dummy s := by
  have hlen : (dematchedBits dummy s).length = s.rawLen.toNat := by
    rw [dematchedBits_length, (dematchPerm_perm hadm).length_eq, List.length_range]
  exact bits_of_getElem? hlen (bit_storeDem (hlen.trans_le hfit))

theorem descramble_bits {poly : GoldPoly} {s : State} (hfit : s.demLen.toNat ≤ 2 * Config.symDepth) :
    (descramble poly s).bits .dsc 0 s.demLen.toNat = descrambledBits poly s :=
  bits_of_getElem? (descrambledBits_length poly s) (bit_storeDsc ((descrambledBits_length poly s).trans_le hfit))

theorem packBytes_byte {struct : List Byte → Bool} {s : State} (hfit : s.dscLen.toNat ≤ 2 * Config.symDepth) {j : Nat}
    (hj : j < s.dscLen.toNat / 8) :
    (packBits (s.bits .dsc 0 s.dscLen.toNat))[j]? = some ((packBytes struct s).byte .frm j) := by
  rw [packBits_bits_getElem? s .dsc hj, byte_packBytes, packFrame_byte hfit hj]

/-- An admissible de-matching reads the stream and nothing beyond it. -/
theorem dematchedBits_eq {dummy : Nat → Nat → Nat → Bool} {s : State}
    (hadm : dummyAdmissible dummy s.rawLen.toNat = true) : dematchedBits dummy s =
      (dematchPerm dummy s.rawLen.toNat).map fun j => (s.bits .raw 0 s.rawLen.toNat).getD j false := by
  refine List.map_congr_left fun j hj => ?_
  have hlt : j < s.rawLen.toNat := List.mem_range.1 ((dematchPerm_perm hadm).mem_iff.1 hj)
  rw [List.getD_eq_getElem?_getD, State.bits_getElem? s .raw (by omega), Nat.zero_add, Option.getD_some]

/-! ### The frame of one attempt -/

/-- The bytes an attempt packs: the mapped stream, de-matched, descrambled and packed (R155). -/
def attemptFrame (p : DecoderParams) (h : BitVec 2) (s : State) : List Byte :=
  packBits (List.zipWith xor
    ((dematchPerm p.dummy (2 * s.symCount.toNat)).map fun j => (mappedBits p.lut h s).getD j false)
    (gold p.poly (seedOf s.goldSeed) (2 * s.symCount.toNat)))

/-- An attempt leaves the bytes of `attemptFrame` in `FRM`: each step reads back what the one before has stored. -/
theorem attempt_byte {p : DecoderParams} (hadm : ∀ len, dummyAdmissible p.dummy len = true) (h : BitVec 2) {s : State}
    (hfit : s.symCount.toNat ≤ Config.symDepth) {j : Nat} (hj : j < 2 * s.symCount.toNat / 8) :
    (attemptFrame p h s)[j]? = some ((attempt p h s).byte .frm j) := by
  have hraw : (mapBits p.lut h s).rawLen.toNat = 2 * s.symCount.toNat := by rw [mapBits_rawLen, toNat_twice hfit]
  have hdem : (dematch p.dummy (mapBits p.lut h s)).demLen.toNat = 2 * s.symCount.toNat := by rw [dematch_demLen, hraw]
  have hdsc : (descramble p.poly (dematch p.dummy (mapBits p.lut h s))).dscLen.toNat = 2 * s.symCount.toNat := by
    rw [descramble_dscLen, hdem]
  have hdemBits := dematch_bits (hadm _) (by omega : (mapBits p.lut h s).rawLen.toNat ≤ 2 * Config.symDepth)
  rw [dematchedBits_eq (hadm _), hraw, mapBits_bits hfit] at hdemBits
  have hdscBits := descramble_bits (poly := p.poly)
    (by omega : (dematch p.dummy (mapBits p.lut h s)).demLen.toNat ≤ 2 * Config.symDepth)
  rw [descrambledBits, hdem, hdemBits, dematch_goldSeed, mapBits_goldSeed] at hdscBits
  have hbyte := packBytes_byte (struct := p.struct)
    (by omega : (descramble p.poly (dematch p.dummy (mapBits p.lut h s))).dscLen.toNat ≤ 2 * Config.symDepth)
    (by omega : j < (descramble p.poly (dematch p.dummy (mapBits p.lut h s))).dscLen.toNat / 8)
  rwa [hdsc, hdscBits] at hbyte

/-! ### States that agree on what a decode reads -/

/-- `SYM_COUNT`, the points' quadrants and the seed bits in use agree, and the count is in range. -/
structure SameInputs (s t : State) : Prop where
  fits : s.symCount.toNat ≤ Config.symDepth
  count : s.symCount = t.symCount
  seed : seedOf s.goldSeed = seedOf t.goldSeed
  quadrants : ∀ k, k < s.symCount.toNat → quadrant (s.sample .sym k) = quadrant (t.sample .sym k)

/-- What a decode leaves agrees, but for `PD_STAT.ATT`; a frame that passed is whole. -/
structure SameFrame (s t : State) : Prop where
  hyp : s.pdHyp = t.pdHyp
  ok : s.pdOk = t.pdOk
  lenx : s.pdLenx = t.pdLenx
  rawLen : s.rawLen = t.rawLen
  demLen : s.demLen = t.demLen
  dscLen : s.dscLen = t.dscLen
  frmLen : s.frmLen = t.frmLen
  crcCalc : s.crcCalc = t.crcCalc
  crcRx : s.crcRx = t.crcRx
  crcValid : s.crcValid = t.crcValid
  frame : ∀ j, j < s.frmLen.toNat → s.byte .frm j = t.byte .frm j
  whole : s.pdOk = true → 91 ≤ s.frmLen.toNat

/-- What a decode leaves agrees. -/
structure SameDecode (s t : State) : Prop extends SameFrame s t where
  att : s.pdAtt = t.pdAtt

section
variable {s t : State}

theorem bytes_congr {sp : Space} {n : Nat} (h : ∀ j, j < n → s.byte sp j = t.byte sp j) :
    s.bytes sp 0 n = t.bytes sp 0 n := by
  rw [bytes_from_zero, bytes_from_zero]
  exact List.map_congr_left fun j hj => h j (List.mem_range.1 hj)

theorem SameInputs.mappedBits_eq (hin : SameInputs s t) (lut : BitVec 2 → BitVec 2 → BitVec 2) (h : BitVec 2) :
    mappedBits lut h s = mappedBits lut h t := by
  unfold mappedBits State.samples
  rw [← hin.count, List.flatMap_map, List.flatMap_map]
  refine List.flatMap_congr fun k hk => ?_
  have hlt : k < s.symCount.toNat := by simpa [indices] using hk
  rw [pointBits, pointBits, hin.quadrants k hlt]

theorem SameInputs.attemptFrame_eq (hin : SameInputs s t) (p : DecoderParams) (h : BitVec 2) :
    attemptFrame p h s = attemptFrame p h t := by
  rw [attemptFrame, attemptFrame, hin.mappedBits_eq, hin.count, hin.seed]

/-! ### One attempt -/

theorem attempt_sample (p : DecoderParams) (h : BitVec 2) (s : State) (k : Nat) :
    (attempt p h s).sample .sym k = s.sample .sym k := by
  have hword (w : Nat) : (attempt p h s).word .sym w = s.word .sym w :=
    State.word_eq_of_bytes fun _ _ => keepsBytes_attempt p h s .sym _ (by decide)
  rw [State.sample, State.sample, hword, hword]

/-- An attempt writes none of what it reads first. -/
theorem SameInputs.attempt (hin : SameInputs s t) (p : DecoderParams) (h : BitVec 2) :
    SameInputs (attempt p h s) (attempt p h t) where
  fits := by rw [attempt_symCount]; exact hin.fits
  count := by rw [attempt_symCount, attempt_symCount, hin.count]
  seed := by rw [attempt_goldSeed, attempt_goldSeed, hin.seed]
  quadrants k hk := by
    rw [attempt_symCount] at hk
    rw [attempt_sample, attempt_sample, hin.quadrants k hk]

theorem attempt_pdLenx {p : DecoderParams} {h : BitVec 2} {s : State} :
    (attempt p h s).pdLenx = ((BitVec.ofNat 32 (2 * s.symCount.toNat)).toNat != sysLenExpected) := by
  rw [Machine.attempt, packBytes_pdLenx, descramble_pdLenx, dematch_pdLenx, mapBits_rawLen]

/-- Equal inputs give equal attempts. -/
theorem sameFrame_attempt {p : DecoderParams} (hadm : ∀ len, dummyAdmissible p.dummy len = true)
    (hin : SameInputs s t) (h : BitVec 2) : SameFrame (attempt p h s) (attempt p h t) := by
  have hfit' : t.symCount.toNat ≤ Config.symDepth := hin.count ▸ hin.fits
  have hframe (j : Nat) (hj : j < 2 * s.symCount.toNat / 8) :
      (attempt p h s).byte .frm j = (attempt p h t).byte .frm j := by
    have hs := attempt_byte hadm h hin.fits hj
    rw [hin.attemptFrame_eq, attempt_byte hadm h hfit' (hin.count ▸ hj)] at hs
    exact (Option.some_inj.1 hs).symm
  have hok : (attempt p h s).pdOk = true ↔ (attempt p h t).pdOk = true := by
    rw [attempt_pdOk_iff_points hin.fits, attempt_pdOk_iff_points hfit', ← hin.count]
    refine and_congr_right fun hmin => ?_
    rw [bytes_congr fun j hj => hframe j (by omega)]
  exact {
    hyp := by rw [attempt_pdHyp, attempt_pdHyp]
    ok := Bool.eq_iff_iff.2 hok
    lenx := by rw [attempt_pdLenx, attempt_pdLenx, hin.count]
    rawLen := by rw [attempt_rawLen, attempt_rawLen, hin.count]
    demLen := by rw [attempt_demLen, attempt_demLen, hin.count]
    dscLen := by rw [attempt_dscLen, attempt_dscLen, hin.count]
    frmLen := by rw [attempt_frmLen, attempt_frmLen, hin.count]
    crcCalc := by rw [attempt_crcCalc, attempt_crcCalc]
    crcRx := by rw [attempt_crcRx, attempt_crcRx]
    crcValid := by rw [attempt_crcValid, attempt_crcValid]
    frame := fun j hj => hframe j (by rwa [attempt_frmLen_toNat hin.fits] at hj)
    whole := fun hpd => ((attempt_pdOk_iff p h s).1 hpd).1 }

/-! ### The loop and the check after it -/

theorem SameFrame.storeAttempts (h : SameFrame s t) (n : Nat) : SameDecode (storeAttempts n s) (storeAttempts n t) :=
  { h with att := rfl }

theorem SameDecode.complete (h : SameDecode s t) (c : ResultCode) :
    (s.complete c).res = (t.complete c).res ∧ SameDecode (s.complete c) (t.complete c) := ⟨rfl, { h with }⟩

theorem SameDecode.storeCrc (h : SameDecode s t) (sum rx : BitVec 16) :
    SameDecode (storeCrc sum rx s) (storeCrc sum rx t) :=
  { h with crcCalc := rfl, crcRx := rfl, crcValid := rfl }

/-- A loop over at least one hypothesis overwrites all that the states differ in. -/
theorem sameDecode_attemptLoop {p : DecoderParams} (hadm : ∀ len, dummyAdmissible p.dummy len = true)
    (hs : List (BitVec 2)) (n : Nat) (hin : SameInputs s t) (hnil : hs = [] → SameFrame s t) :
    SameDecode (attemptLoop p hs n s) (attemptLoop p hs n t) := by
  induction hs generalizing n s t with
  | nil => exact (hnil rfl).storeAttempts n
  | cons h hs ih =>
    have hframe := sameFrame_attempt hadm hin h
    rw [attemptLoop, attemptLoop, ← hframe.ok]
    split
    · exact hframe.storeAttempts (n + 1)
    · exact ih (n + 1) (hin.attempt p h) fun _ => hframe

theorem SameDecode.checkCrc (h : SameDecode s t) (hok : s.pdOk = true) : SameDecode (checkCrc s) (checkCrc t) := by
  have hmin := h.whole hok
  have hpayload : crcOfPayload s = crcOfPayload t :=
    congrArg crc16 (bytes_congr fun j hj => h.frame j (Nat.lt_of_lt_of_le (Nat.lt_of_lt_of_le hj (by decide)) hmin))
  have hembedded : crcEmbedded s = crcEmbedded t := by
    rw [crcEmbedded, crcEmbedded, h.frame 90 (by omega), h.frame 89 (by omega)]
  rw [Machine.checkCrc, Machine.checkCrc, ← hpayload, ← hembedded]
  exact h.storeCrc _ _

/-- The end of `PDEC` reads nothing but what the loop leaves. -/
theorem SameDecode.afterLoop (h : SameDecode s t) :
    (afterLoop s).res = (afterLoop t).res ∧ SameDecode (afterLoop s) (afterLoop t) := by
  rw [DecodeAttempts.afterLoop, DecodeAttempts.afterLoop, ← h.ok]
  split
  · next hok =>
    have hcrc := h.checkCrc hok
    rw [completeByCrc, completeByCrc, ← hcrc.crcValid]
    exact hcrc.complete _
  · exact h.complete .phase

theorem SameDecode.pdStat (h : SameDecode s t) : s.reg .pdStat = t.reg .pdStat := by
  show pdStatWord s = pdStatWord t
  rw [pdStatWord, pdStatWord, h.att, h.lenx, h.ok, h.hyp]

end

/-- Settles O39: equal inputs go through the loop and the check alike. -/
theorem pdecReadsOnlySignBits : Obligations.PdecReadsOnlySignBits := by
  intro s t hfit hcount hseed hsigns
  have hin : SameInputs s t := {
    fits := hfit
    count := hcount.symm
    seed := hseed.symm
    quadrants := fun k hk => by
      obtain ⟨hre, him⟩ := hsigns k hk
      rw [quadrant, quadrant, signBit, signBit, signBit, signBit, hre, him] }
  have hloop := sameDecode_attemptLoop (p := implParams) dummyAdmissible_implParams hypotheses 0 hin
    fun hnil => absurd hnil (by decide)
  obtain ⟨hres, hend⟩ := hloop.afterLoop
  have hpdecS := exec_pdec_in_range hfit
  have hpdecT := exec_pdec_in_range (s := t) (by rwa [hcount])
  generalize afterLoop (attemptLoop implParams hypotheses 0 s) = a at *
  generalize afterLoop (attemptLoop implParams hypotheses 0 t) = b at *
  exact ⟨a, b, hpdecS, hpdecT, hres, hend.pdStat, hend.rawLen, hend.demLen, hend.dscLen, hend.frmLen, hend.crcCalc,
    hend.crcRx, hend.crcValid, hend.frame⟩

end Sys2Proof.Proofs.DecodeInputs
end

section
/-! PROOFS. Rate de-matching (44_rate_dematch.md R170 to R174): counting cells by their place in an order gives the two
readings of R172 their dummies and the default its closed form; `RDM` then reads the stream in the order so found. -/

namespace Sys2Proof.Proofs.RateDematch

open Sys2Proof Sys2Proof.Machine Sys2Proof.Proofs.DematchPlacement

/-! ### Lists numbered by their elements' places -/

theorem idxOf_of_map_eq_range {α : Type} [BEq α] [LawfulBEq α] {l : List α} {f : α → Nat} {n : Nat}
    (h : l.map f = List.range n) {x : α} (hx : x ∈ l) : l.idxOf x = f x := by
  have hlt := List.idxOf_lt_length_iff.2 hx
  have hplace : (l.map f)[l.idxOf x]? = some (f x) := by
    rw [List.getElem?_map, List.getElem?_eq_getElem hlt, List.getElem_idxOf, Option.map_some]
  rw [h] at hplace
  exact (List.getElem?_eq_some_iff.1 hplace).2 ▸ (List.getElem_range _).symm

theorem length_filter_le_of_map_eq_range {α : Type} {l : List α} {f : α → Nat} {n : Nat}
    (h : l.map f = List.range n) (k : Nat) : (l.filter fun x => decide (k ≤ f x)).length = n - k := by
  calc (l.filter fun x => decide (k ≤ f x)).length
      = ((l.map f).filter fun i => decide (k ≤ i)).length := by rw [List.filter_map, List.length_map]; rfl
    _ = (List.Ico (max 0 k) n).length := by rw [h, ← List.Ico.zero_bot, List.Ico.filter_le]
    _ = n - k := by rw [List.Ico.length, Nat.zero_max]

/-! ### The alternative placement (R172) -/

/-- A cell's place in row-major order (00_scope.md R10). -/
def rowMajorIndex (cell : Nat × Nat) : Nat := cell.1 * rdmCols + cell.2

theorem cellsByRow_map_rowMajorIndex (rows : Nat) :
    (cellsByRow rows).map rowMajorIndex = List.range (rows * rdmCols) := by
  rw [← columns_flatten, cellsByRow, List.map_flatMap]
  simp only [List.map_map]
  rfl

/-- The alternative marks the cells from `len` on in row-major order; they all lie in the last row. -/
theorem rdmDummyAlt_eq {len : Nat} {cell : Nat × Nat} (hr : cell.1 < rdmRows len) (hc : cell.2 < rdmCols) :
    rdmDummyAlt len cell.1 cell.2 = decide (len ≤ rowMajorIndex cell) := by
  rw [rdmDummyAlt, ← Bool.decide_and, decide_eq_decide]
  simp only [rdmRows, rdmCols, rowMajorIndex] at *
  omega

theorem dummyAdmissible_alt (len : Nat) : dummyAdmissible rdmDummyAlt len = true := by
  rw [dummyAdmissible_iff]
  calc ((cellsByColumn (rdmRows len)).filter fun cell => rdmDummyAlt len cell.1 cell.2).length
      = ((cellsByRow (rdmRows len)).filter fun cell => rdmDummyAlt len cell.1 cell.2).length :=
        ((cellsByRow_perm _).filter _).length_eq.symm
    _ = ((cellsByRow (rdmRows len)).filter fun cell => decide (len ≤ rowMajorIndex cell)).length := by
        refine congrArg List.length (List.filter_congr fun cell hcell => ?_)
        obtain ⟨hr, hc⟩ := (mem_cellsByRow _ cell).1 hcell
        exact rdmDummyAlt_eq hr hc
    _ = rdmCols * rdmRows len - len := by
        rw [length_filter_le_of_map_eq_range (cellsByRow_map_rowMajorIndex _), Nat.mul_comm]

/-- Settles O29: the admissible placements are those `dematchPerm_perm` speaks of, and the three named are admissible. -/
theorem dematchIsPermutation : Obligations.DematchIsPermutation := by
  refine ⟨fun dummy len hcount => dematchPerm_perm ((dummyAdmissible_iff dummy len).2 hcount), fun len => ?_⟩
  simp only [List.forall_mem_cons]
  exact ⟨(dummyAdmissible_iff _ len).1 (dummyAdmissible_default len),
    (dummyAdmissible_iff _ len).1 (dummyAdmissible_alt len),
    (dummyAdmissible_iff _ len).1 (dummyAdmissible_implParams len), fun _ h => absurd h List.not_mem_nil⟩

/-! ### The default placement in closed form (R173) -/

/-- Under the default a cell is real where its column-major place is a stream position. -/
theorem realCell_default (len : Nat) :
    realCell rdmDummyDefault len = fun cell => decide (columnMajorIndex (rdmRows len) cell < len) := by
  funext cell
  rw [realCell, rdmDummyDefault, ← decide_not, decide_eq_decide, Nat.not_le]
  rfl

/-- Numbering the default's real cells, in any order, leaves the numbers below the length. -/
theorem map_index_filter_realCell_default (len : Nat) (cells : List (Nat × Nat)) :
    (cells.filter (realCell rdmDummyDefault len)).map (columnMajorIndex (rdmRows len)) =
      (cells.map (columnMajorIndex (rdmRows len))).filter fun k => decide (k < len) := by
  rw [realCell_default, List.filter_map]
  rfl

theorem filledCells_default_map_index (len : Nat) :
    (filledCells rdmDummyDefault len).map (columnMajorIndex (rdmRows len)) = List.range len := by
  rw [filledCells, map_index_filter_realCell_default, cellsByColumn_map_index, ← List.Ico.zero_bot,
    List.Ico.filter_lt, Nat.min_eq_right (le_cells len), List.Ico.zero_bot]

/-- The stream fills a cell from the position that is its column-major place. -/
theorem dematchPerm_default (len : Nat) : dematchPerm rdmDummyDefault len =
    ((cellsByRow (rdmRows len)).map (columnMajorIndex (rdmRows len))).filter fun k => decide (k < len) := by
  rw [← map_index_filter_realCell_default]
  refine List.map_congr_left fun cell hcell => ?_
  exact idxOf_of_map_eq_range (filledCells_default_map_index len) (((cellsByRow_perm _).filter _).mem_iff.1 hcell)

theorem cellsByRow_map_columnMajorIndex (rows : Nat) : (cellsByRow rows).map (columnMajorIndex rows) =
    (List.range rows).flatMap fun r => (List.range rdmCols).map fun c => c * rows + r := by
  rw [cellsByRow, List.map_flatMap]
  simp only [List.map_map]
  rfl

/-! ### `RDM` -/

section
variable {dummy : Nat → Nat → Nat → Bool} {s : State}

theorem dematchedBits_length_of_admissible (hadm : dummyAdmissible dummy s.rawLen.toNat = true) :
    (dematchedBits dummy s).length = s.rawLen.toNat := by
  rw [dematchedBits_length, (dematchPerm_perm hadm).length_eq, List.length_range]

theorem dematch_bit (hadm : dummyAdmissible dummy s.rawLen.toNat = true)
    (hfit : s.rawLen.toNat ≤ 2 * Config.symDepth) {i j : Nat} (hj : (dematchPerm dummy s.rawLen.toNat)[i]? = some j) :
    (dematch dummy s).bit .dem i = s.bit .raw j := by
  refine bit_storeDem ((dematchedBits_length_of_admissible hadm).trans_le hfit) ?_
  rw [dematchedBits, List.getElem?_map, hj, Option.map_some]

theorem rdm_in_range (hfit : s.rawLen.toNat ≤ 2 * Config.symDepth) : ¬ rdmOutOfRange s = true :=
  fun hr => Nat.not_lt_of_le hfit ((rdmOutOfRange_iff s).1 hr)

end

/-- Settles O28: row by row, a cell's number `c × R + r` is its column-major place. -/
theorem defaultDematchReadsRowByRow : Obligations.DefaultDematchReadsRowByRow := by
  refine ⟨fun len => ?_, fun s i j hfit hj => ?_⟩
  · rw [dematchPerm_default, cellsByRow_map_columnMajorIndex]
    rfl
  · rw [rdmWith, if_neg (rdm_in_range hfit)]
    exact dematch_bit (dummyAdmissible_default _) hfit hj

/-- Settles O27: `Dematch` stores the stream in the order of an admissible placement, and completion changes `STATUS`
only. -/
theorem rdmReadsPermutedStream : Obligations.RdmReadsPermutedStream := by
  intro s hfit
  have hadm := dummyAdmissible_implParams s.rawLen.toNat
  have hlen := dematchedBits_length_of_admissible hadm
  exact ⟨_, exec_rdm_body (rdm_in_range hfit), dematch_demLen implParams.dummy s,
    (dematch_pdLenx implParams.dummy s).trans (decide_not.symm),
    dematch_pdHyp implParams.dummy s, dematch_pdOk implParams.dummy s, dematch_pdAtt implParams.dummy s,
    dematchPerm_perm hadm, fun i j hj => dematch_bit hadm hfit hj,
    fun i hi => bit_storeDem_outside (hlen.trans_le hfit) (hlen.trans_le hi),
    fun a ha => byte_storeDem_outside (hlen.trans_le ha),
    completesKeeping_complete .ok (keepsRegs_dematch _ s) (keepsBytes_dematch _ s) (dematch_ovr _ s)
      (keepsPort_storeDem _ s)⟩

end Sys2Proof.Proofs.RateDematch
end

section
/-! PROOFS. The Gold descrambler (45_gold_descramble.md R180 to R183): the stages of a shift register are the next bits
of the sequence its stage 0 runs through, so `Gold` is the xor of two such sequences, and two sequences that agree for
31 bits come from one register. `DSCR` then is an xor with `Gold`. -/

namespace Sys2Proof.Proofs.GoldDescramble

open Sys2Proof Sys2Proof.Machine

/-! ### One shift (R181) -/

theorem getLsbD_goldShift (taps : List Nat) (r : BitVec 31) (i : Nat) : (goldShift taps r).getLsbD i =
    if i < 30 then (r.extractLsb' 1 30).getLsbD i else (BitVec.ofBool (goldFeedback taps r)).getLsbD (i - 30) :=
  BitVec.getLsbD_append

theorem getLsbD_goldShift_of_lt (taps : List Nat) (r : BitVec 31) {i : Nat} (hi : i < 30) :
    (goldShift taps r).getLsbD i = r.getLsbD (i + 1) := by
  rw [getLsbD_goldShift, if_pos hi, BitVec.getLsbD_extractLsb', decide_eq_true hi, Bool.true_and, Nat.add_comm]

theorem getLsbD_goldShift_last (taps : List Nat) (r : BitVec 31) :
    (goldShift taps r).getLsbD 30 = goldFeedback taps r := by
  simp only [getLsbD_goldShift, Nat.lt_irrefl, if_false, Nat.sub_self, BitVec.getLsbD_ofBool, decide_true,
    Bool.true_and]

theorem goldFeedback_taps1 (r : BitVec 31) :
    goldFeedback goldPolyDefault.taps1 r = (r.getLsbD 3 ^^ r.getLsbD 0) := by
  simp [goldFeedback, goldPolyDefault]

theorem goldFeedback_taps2 (r : BitVec 31) : goldFeedback goldPolyDefault.taps2 r =
    (r.getLsbD 3 ^^ r.getLsbD 2 ^^ r.getLsbD 1 ^^ r.getLsbD 0) := by
  simp [goldFeedback, goldPolyDefault]

/-- A shift of the second register loses nothing: stage 0, which moves out, enters the feedback. -/
theorem goldShift_taps2_injective : Function.Injective (goldShift goldPolyDefault.taps2) := by
  intro r r' h
  have hmoved (i : Nat) (hi : i < 30) : r.getLsbD (i + 1) = r'.getLsbD (i + 1) := by
    rw [← getLsbD_goldShift_of_lt _ r hi, h, getLsbD_goldShift_of_lt _ r' hi]
  have hfed : goldFeedback goldPolyDefault.taps2 r = goldFeedback goldPolyDefault.taps2 r' := by
    rw [← getLsbD_goldShift_last, h, getLsbD_goldShift_last]
  rw [goldFeedback_taps2, goldFeedback_taps2, hmoved 2 (by omega), hmoved 1 (by omega), hmoved 0 (by omega)] at hfed
  refine BitVec.eq_of_getLsbD_eq fun i hi => ?_
  cases i with
  | zero => exact Bool.xor_right_inj.1 hfed
  | succ i => exact hmoved i (by omega)

/-! ### The sequence of one register -/

/-- Bit `k` of the sequence of a register: its stage 0 after `k` shifts (R181). -/
def registerBit (taps : List Nat) (r : BitVec 31) (k : Nat) : Bool := (goldShifts taps r k).getLsbD 0

theorem goldShifts_add (taps : List Nat) (r : BitVec 31) (k j : Nat) :
    goldShifts taps r (k + j) = goldShifts taps (goldShifts taps r k) j := by
  induction k generalizing r with
  | zero => rw [Nat.zero_add, goldShifts]
  | succ k ih => rw [Nat.add_right_comm, goldShifts, ih, goldShifts]

theorem registerBit_succ (taps : List Nat) (r : BitVec 31) (k : Nat) :
    registerBit taps r (k + 1) = registerBit taps (goldShift taps r) k := rfl

theorem registerBit_add (taps : List Nat) (r : BitVec 31) (k j : Nat) :
    registerBit taps r (k + j) = registerBit taps (goldShifts taps r k) j := by
  rw [registerBit, goldShifts_add, registerBit]

/-- A register starts as the first 31 bits of its sequence. -/
theorem registerBit_of_lt (taps : List Nat) (r : BitVec 31) {i : Nat} (hi : i < 31) :
    registerBit taps r i = r.getLsbD i := by
  induction i generalizing r with
  | zero => rfl
  | succ i ih => rw [registerBit_succ, ih _ (by omega), getLsbD_goldShift_of_lt _ _ (by omega)]

/-- The stages after `k` shifts are the sequence from bit `k` on. -/
theorem getLsbD_goldShifts (taps : List Nat) (r : BitVec 31) (k : Nat) {i : Nat} (hi : i < 31) :
    (goldShifts taps r k).getLsbD i = registerBit taps r (k + i) := by
  rw [registerBit_add, registerBit_of_lt taps _ hi]

/-- The bit 31 places on is the feedback. -/
theorem registerBit_add_31 (taps : List Nat) (r : BitVec 31) (k : Nat) :
    registerBit taps r (k + 31) = goldFeedback taps (goldShifts taps r k) := by
  rw [registerBit_add, registerBit_succ taps _ 30, registerBit_of_lt _ _ (by omega), getLsbD_goldShift_last]

theorem registerBit_taps1_recurrence (r : BitVec 31) (k : Nat) :
    registerBit goldPolyDefault.taps1 r (k + 31) =
      (registerBit goldPolyDefault.taps1 r (k + 3) ^^ registerBit goldPolyDefault.taps1 r k) := by
  simp (disch := omega) only [registerBit_add_31, goldFeedback_taps1, getLsbD_goldShifts, Nat.add_zero]

theorem registerBit_taps2_recurrence (r : BitVec 31) (k : Nat) :
    registerBit goldPolyDefault.taps2 r (k + 31) =
      (registerBit goldPolyDefault.taps2 r (k + 3) ^^ registerBit goldPolyDefault.taps2 r (k + 2) ^^
        registerBit goldPolyDefault.taps2 r (k + 1) ^^ registerBit goldPolyDefault.taps2 r k) := by
  simp (disch := omega) only [registerBit_add_31, goldFeedback_taps2, getLsbD_goldShifts, Nat.add_zero]

theorem goldShifts_taps2_injective (k : Nat) :
    Function.Injective fun r => goldShifts goldPolyDefault.taps2 r k := by
  induction k with
  | zero => exact Function.injective_id
  | succ k ih => exact ih.comp goldShift_taps2_injective

/-- 31 consecutive bits of its sequence determine where the second register started. -/
theorem eq_of_registerBit_window {r r' : BitVec 31} {k : Nat}
    (h : ∀ i, i < 31 → registerBit goldPolyDefault.taps2 r (k + i) = registerBit goldPolyDefault.taps2 r' (k + i)) :
    r = r' := by
  refine goldShifts_taps2_injective k (BitVec.eq_of_getLsbD_eq fun i hi => ?_)
  rw [getLsbD_goldShifts _ _ _ hi, getLsbD_goldShifts _ _ _ hi, h i hi]

/-! ### `Gold` (R181) -/

theorem goldBits_eq_map_range (poly : GoldPoly) (r1 r2 : BitVec 31) (n : Nat) : goldBits poly r1 r2 n =
    (List.range n).map fun i => registerBit poly.taps1 r1 i ^^ registerBit poly.taps2 r2 i := by
  induction n generalizing r1 r2 with
  | zero => rfl
  | succ n ih =>
    rw [goldBits, ih, List.range_succ_eq_map, List.map_cons, List.map_map]
    rfl

/-- Bit `i` of `Gold`: the xor of the two sequences, `Nc = 1600` places on. -/
def goldBit (poly : GoldPoly) (seed : BitVec 31) (i : Nat) : Bool :=
  registerBit poly.taps1 poly.fill1 (i + 1600) ^^ registerBit poly.taps2 seed (i + 1600)

theorem gold_eq_map_range (poly : GoldPoly) (seed : BitVec 31) (n : Nat) :
    gold poly seed n = (List.range n).map (goldBit poly seed) := by
  rw [gold, goldBits_eq_map_range]
  refine List.map_congr_left fun i _ => ?_
  rw [goldBit, Nat.add_comm i 1600, registerBit_add, registerBit_add, goldNc]

theorem gold_length (poly : GoldPoly) (seed : BitVec 31) (n : Nat) : (gold poly seed n).length = n :=
  goldBits_length poly _ _ n

theorem gold_getElem? (poly : GoldPoly) (seed : BitVec 31) {n i : Nat} (hi : i < n) :
    (gold poly seed n)[i]? = some (goldBit poly seed i) := by
  rw [gold_eq_map_range, List.getElem?_map, List.getElem?_range hi, Option.map_some]

theorem gold_take (poly : GoldPoly) (seed : BitVec 31) {m n : Nat} (hmn : m ≤ n) :
    gold poly seed m = (gold poly seed n).take m := by
  rw [gold_eq_map_range, gold_eq_map_range, ← List.map_take, List.take_range, Nat.min_eq_left hmn]

/-- The first register's sequence is the same for both seeds, so it is the second's that differs (R183). -/
theorem gold_ne_in_window {seed other : BitVec 31} {k n : Nat} (hne : seed ≠ other) (hkn : k + 31 ≤ n) :
    ∃ i, k ≤ i ∧ i < k + 31 ∧ (gold goldPolyDefault seed n)[i]? ≠ (gold goldPolyDefault other n)[i]? := by
  by_contra hsame
  push Not at hsame
  refine hne (eq_of_registerBit_window (k := k + 1600) fun i hi => ?_)
  have hbit := hsame (k + i) (by omega) (by omega)
  rw [gold_getElem? _ _ (by omega), gold_getElem? _ _ (by omega), Option.some_inj, goldBit, goldBit,
    Bool.xor_right_inj] at hbit
  rwa [Nat.add_right_comm k 1600 i]

/-- Settles O31: the two sequences are those of the two registers. -/
theorem goldFollowsRecurrences : Obligations.GoldFollowsRecurrences := by
  intro seed
  refine ⟨registerBit goldPolyDefault.taps1 goldPolyDefault.fill1, registerBit goldPolyDefault.taps2 seed, by decide,
    fun i hlow hhigh => ?_, fun i hi => registerBit_of_lt _ seed (by omega), registerBit_taps1_recurrence _,
    registerBit_taps2_recurrence seed, gold_eq_map_range goldPolyDefault seed⟩
  rw [registerBit_of_lt _ _ (by omega), goldPolyDefault, BitVec.getLsbD_one]
  exact decide_eq_false (by omega)

/-! ### `DSCR` (R180) -/

section
variable {poly : GoldPoly} {s : State}

theorem exec_dscr_in_range (hfit : s.demLen.toNat ≤ 2 * Config.symDepth) :
    exec .dscr s = .next ((descramble implParams.poly s).complete .ok) :=
  exec_dscr_body fun hr => Nat.not_lt_of_le hfit ((dscrOutOfRange_iff s).1 hr)

theorem descramble_bit (hfit : s.demLen.toNat ≤ 2 * Config.symDepth) {i : Nat} (hi : i < s.demLen.toNat) :
    (descramble poly s).bit .dsc i = (s.bit .dem i ^^ goldBit poly (seedOf s.goldSeed) i) := by
  refine bit_storeDsc ((descrambledBits_length poly s).trans_le hfit) ?_
  have hdem := State.bits_getElem? s .dem (a := 0) (k := i) (by omega : 0 + i < s.demLen.toNat)
  rw [descrambledBits, List.getElem?_zipWith, hdem, gold_getElem? _ _ hi, Nat.zero_add]

end

/-- Settles O30: `Descramble` stores the xor with `Gold`, and completion changes `STATUS` only. -/
theorem dscrXorsGoldSequence : Obligations.DscrXorsGoldSequence := by
  intro s hfit
  have hlen := descrambledBits_length implParams.poly s
  refine ⟨_, exec_dscr_in_range hfit, descramble_dscLen implParams.poly s, fun i hi => ?_,
    fun i hi => bit_storeDsc_outside (hlen.trans_le hfit) (hlen.trans_le hi),
    fun a ha => byte_storeDsc_outside (hlen.trans_le ha),
    completesKeeping_complete .ok (keepsRegs_descramble _ s) (keepsBytes_descramble _ s) (descramble_ovr _ s)
      (keepsPort_storeDsc _ s)⟩
  have hbit : ((descramble implParams.poly s).complete .ok).bit .dsc i = _ := descramble_bit hfit hi
  rw [gold_getElem? _ _ hi, hbit, Bool.xor_comm (s.bit .dem i), Bool.xor_assoc, Bool.xor_self, Bool.xor_false]
  rfl

/-- Settles O33: both runs xor with one `Gold` sequence, the second the output of the first. -/
theorem dscrTwiceRestores : Obligations.DscrTwiceRestores := by
  intro s t u hfit hst hseed hlen hfed
  obtain ⟨t', hst', -, hfirst, -⟩ := dscrXorsGoldSequence s hfit
  obtain rfl : t = t' := Host.Outcome.next.inj (hst.symm.trans hst')
  obtain ⟨v, huv, -, hsecond, -⟩ := dscrXorsGoldSequence u (hlen ▸ hfit)
  rw [hseed, hlen] at hsecond
  refine ⟨v, huv, fun i hi => ?_⟩
  have hgold := Option.some_inj.1 ((hsecond i hi).symm.trans (hfirst i hi))
  rwa [hfed i hi, Bool.xor_comm, Bool.xor_right_inj] at hgold

/-! ### Bit 31 of `GOLD_SEED` (R182) -/

theorem seedOf_append (v : Bool) (seed : Word) : seedOf (BitVec.ofBool v ++ seed.extractLsb' 0 31) = seedOf seed :=
  BitVec.extractLsb'_append_eq_right

theorem descrambledBits_of_seedOf (poly : GoldPoly) (s : State) {seed : Word} (h : seedOf seed = seedOf s.goldSeed) :
    descrambledBits poly { s with goldSeed := seed } = descrambledBits poly s := by
  rw [descrambledBits, descrambledBits, h]
  rfl

theorem descramble_byte_of_seedOf (poly : GoldPoly) (s : State) {seed : Word} (h : seedOf seed = seedOf s.goldSeed)
    (a : Nat) : (descramble poly { s with goldSeed := seed }).byte .dsc a = (descramble poly s).byte .dsc a := by
  rw [descramble, descramble, descrambledBits_of_seedOf poly s h]
  generalize descrambledBits poly s = bits
  rfl

/-- Settles O32: `Gold` bit by bit, the window that determines the second register, and the bits of the seed in use. -/
theorem goldSeedsDifferInEveryWindow : Obligations.GoldSeedsDifferInEveryWindow :=
  ⟨gold_length goldPolyDefault, fun seed _ _ hmn => gold_take goldPolyDefault seed hmn,
    fun _ _ _ _ hne hkn => gold_ne_in_window hne hkn,
    fun s v hfit => ⟨_, _, exec_dscr_in_range hfit, exec_dscr_in_range hfit,
      descramble_byte_of_seedOf implParams.poly s (seedOf_append v s.goldSeed)⟩⟩

end Sys2Proof.Proofs.GoldDescramble
end

section
/-! PROOFS. The CRC-16 frame validator and the RawFrame layout (46_crc_frame.md R190 to R193, R196): a shift of the CRC
register loses nothing, so a byte taken in by two registers, or two bytes taken in by one, leave two registers. `CRCC`
then compares the checksum of the payload with the one stored after it. -/

namespace Sys2Proof.Proofs.CrcFrame

open Sys2Proof Sys2Proof.Machine Sys2Proof.Proofs.Commands Sys2Proof.Proofs.PhaseDecode

/-! ### The frame layout (R196) -/

/-- Settles O44: the offsets of the 23 fields against the running sums of the widths. -/
theorem frameFieldsFillFrame : Obligations.FrameFieldsFillFrame := by
  have hrunning : ∀ i : Fin frameFields.length,
      frameFields[i].offset = ((frameFields.take i).map FrameField.width).sum := by decide
  refine ⟨fun i f hf => ?_, by decide, rfl⟩
  obtain ⟨hi, rfl⟩ := List.getElem?_eq_some_iff.1 hf
  exact hrunning ⟨i, hi⟩

/-! ### The CRC register (R191) -/

theorem crcShifts_eq_iterate (crc : BitVec 16) (k : Nat) : crcShifts crc k = crcShift^[k] crc := by
  induction k generalizing crc with
  | zero => rfl
  | succ k ih => exact ih (crcShift crc)

theorem crcByte_eq_iterate (crc : BitVec 16) (b : Byte) : crcByte crc b = crcShift^[8] (crc ^^^ b.setWidth 16) :=
  crcShifts_eq_iterate _ 8

theorem crc16_append_singleton (bytes : List Byte) (b : Byte) : crc16 (bytes ++ [b]) = crcByte (crc16 bytes) b := by
  rw [crc16, List.foldl_concat, crc16]

/-- Settles O41: one byte more is one `crcByte` more. -/
theorem crcFollowsRegister : Obligations.CrcFollowsRegister :=
  ⟨rfl, fun bytes b => (crc16_append_singleton bytes b).trans (crcByte_eq_iterate _ b), by decide,
    by decide +kernel⟩

/-! ### The register loses nothing (R192) -/

/-- The bit shifted out comes back as the top bit: `0x8408` has bit 15 set. -/
theorem crcShift_getLsbD_top (c : BitVec 16) : (crcShift c).getLsbD 15 = c.getLsbD 0 := by
  rw [crcShift]
  split
  · next h => simp [crcPolyReversed, h]
  · next h => simpa using h

theorem crcShift_injective : Function.Injective crcShift := by
  intro c d h
  have hlow : c.getLsbD 0 = d.getLsbD 0 := by rw [← crcShift_getLsbD_top, h, crcShift_getLsbD_top]
  have hshift : c >>> 1 = d >>> 1 := by
    rw [crcShift, crcShift, hlow] at h
    split at h
    · exact (BitVec.xor_left_inj _).1 h
    · exact h
  refine BitVec.eq_of_getLsbD_eq fun i _ => ?_
  cases i with
  | zero => exact hlow
  | succ i => simpa [Nat.add_comm] using congrArg (BitVec.getLsbD · i) hshift

theorem crcByte_injective_crc (b : Byte) : Function.Injective (crcByte · b) := by
  intro c d h
  simp only [crcByte_eq_iterate] at h
  exact (BitVec.xor_left_inj _).1 (crcShift_injective.iterate 8 h)

theorem crcByte_injective_byte (crc : BitVec 16) : Function.Injective (crcByte crc) := by
  intro a b h
  simp only [crcByte_eq_iterate] at h
  have hwide : a.setWidth 16 = b.setWidth 16 := (BitVec.xor_right_inj crc).1 (crcShift_injective.iterate 8 h)
  simpa using congrArg (BitVec.setWidth 8) hwide

theorem foldl_crcByte_injective (bytes : List Byte) : Function.Injective (bytes.foldl crcByte) := by
  induction bytes with
  | nil => exact Function.injective_id
  | cons b bytes ih => exact ih.comp (crcByte_injective_crc b)

/-- Two messages that differ in one byte have two checksums. -/
theorem crc16_ne_of_byte_ne (before after : List Byte) {a b : Byte} (hne : a ≠ b) :
    crc16 (before ++ a :: after) ≠ crc16 (before ++ b :: after) := by
  rw [crc16, crc16, List.foldl_append, List.foldl_append]
  exact fun h => hne (crcByte_injective_byte _ (foldl_crcByte_injective after h))

theorem flipBit_ne (b : Byte) {k : Nat} (hk : k < 8) : b ^^^ (1#8 <<< k) ≠ b := by
  intro h
  simpa [hk] using congrArg (BitVec.getLsbD · k) h

/-- Settles O43: a byte with a bit flipped is another byte. -/
theorem crcDetectsSingleBitFlip : Obligations.CrcDetectsSingleBitFlip :=
  fun before after b _ hk => crc16_ne_of_byte_ne before after (flipBit_ne b hk)

/-! ### `CRCC` (R190) -/

theorem crcOfPayload_eq (s : State) : crcOfPayload s = crc16 ((List.range 89).map (s.byte .frm)) := by
  rw [crcOfPayload, bytes_from_zero, payloadLen]

theorem crcEmbedded_toNat (s : State) :
    (crcEmbedded s).toNat = (s.byte .frm 89).toNat + 256 * (s.byte .frm 90).toNat := by
  rw [crcEmbedded, BitVec.toNat_append, ← Nat.shiftLeft_add_eq_or_of_lt (s.byte .frm 89).isLt, Nat.shiftLeft_eq]
  omega

theorem exec_crcc_in_range {s : State} (hlow : 91 ≤ s.frmLen.toNat)
    (hhigh : s.frmLen.toNat ≤ 2 * Config.symDepth / 8) : exec .crcc s = .next (completeByCrc (checkCrc s)) :=
  exec_crcc_body fun hr => by
    rw [crccOutOfRange_iff] at hr
    omega

/-- The code of completion is the comparison of the two checksums, and nothing but the check's registers changes. -/
theorem completeByCrc_checkCrc_keeps (s : State) :
    CompletesKeeping (if crcOfPayload s = crcEmbedded s then .ok else .crc) [.crcCalc, .crcRx, .crcStat] [] s
      (completeByCrc (checkCrc s)) := by
  rw [completeByCrc, checkCrc_crcValid]
  simp only [beq_iff_eq]
  exact completesKeeping_complete _ (keepsRegs_checkCrc s) (keepsBytes_checkCrc _ s) (checkCrc_ovr s)
    (keepsPort_checkCrc s)

theorem completeByCrc_checkCrc_crcCalc (s : State) : (completeByCrc (checkCrc s)).crcCalc = crcOfPayload s := by
  rw [completeByCrc, State.complete_crcCalc, checkCrc_crcCalc]

theorem completeByCrc_checkCrc_crcRx (s : State) : (completeByCrc (checkCrc s)).crcRx = crcEmbedded s := by
  rw [completeByCrc, State.complete_crcRx, checkCrc_crcRx]

theorem completeByCrc_checkCrc_crcValid (s : State) :
    (completeByCrc (checkCrc s)).crcValid = true ↔ crcOfPayload s = crcEmbedded s := by
  rw [completeByCrc, State.complete_crcValid, checkCrc_crcValid, beq_iff_eq]

/-- Settles O40: `CheckCrc` stores the two checksums and its verdict, and completion changes `STATUS` only. -/
theorem crccComparesChecksums : Obligations.CrccComparesChecksums := by
  intro s hlow hhigh
  refine ⟨_, exec_crcc_in_range hlow hhigh, ?_⟩
  rw [completeByCrc_checkCrc_crcCalc, completeByCrc_checkCrc_crcRx]
  exact ⟨crcOfPayload_eq s, crcEmbedded_toNat s, completeByCrc_checkCrc_crcValid s, completeByCrc_checkCrc_keeps s⟩

/-! ### A checksum stored after its payload (R192) -/

theorem toNat_low_add_toNat_high (c : BitVec 16) :
    (c.extractLsb' 0 8).toNat + 256 * (c.extractLsb' 8 8).toNat = c.toNat := by
  have := c.isLt
  rw [BitVec.extractLsb'_toNat, BitVec.extractLsb'_toNat, Nat.shiftRight_eq_div_pow, Nat.shiftRight_eq_div_pow]
  omega

/-- Settles O42: the two stored bytes read back as the checksum, so the comparison succeeds. -/
theorem appendedCrcVerifies : Obligations.AppendedCrcVerifies := by
  intro s hlow hhigh hbyte89 hbyte90
  obtain ⟨t, hexec, hcalc, hrx, hvalid, ⟨hres, -⟩, -⟩ := crccComparesChecksums s hlow hhigh
  have hagree : t.crcCalc = t.crcRx := by
    rw [hbyte89, hbyte90, toNat_low_add_toNat_high, ← hcalc] at hrx
    exact BitVec.eq_of_toNat_eq hrx.symm
  exact ⟨t, hexec, hres.trans (if_pos hagree), hvalid.2 hagree⟩

end Sys2Proof.Proofs.CrcFrame
end

section
/-! PROOFS. How every command ends (60_exceptions.md R220, 70_reset_and_hazards.md R262), and the two that only control
the block: `NOP` and `CLR` (47_control.md R210, R211). -/

namespace Sys2Proof.Proofs.Control

open Sys2Proof Sys2Proof.Machine Sys2Proof.Proofs.Commands

/-! ### Every command completes -/

/-- `CMD` is written at acceptance only: no command lists it. -/
theorem cmd_not_mem_writtenRegs (i : Instr) : Reg.cmd ∉ Reg.status :: writtenRegs i := by
  cases i <;> simp [writtenRegs, candWords]

theorem keepsPort_clr (s : State) : KeepsPort s (clr s) := ⟨rfl, rfl, rfl, rfl, rfl⟩

/-- Settles O10: `CLR` by its definition, every other command by what it keeps. -/
theorem everyCommandCompletes : Obligations.EveryCommandCompletes := by
  intro i s
  by_cases hi : i = .clr
  · subst hi
    exact ⟨clr s, exec_clr s, rfl, rfl, rfl, rfl, keepsPort_clr s⟩
  · obtain ⟨code, t, he, ⟨-, hbusy, hdone, hovr⟩, hregs, -, hport⟩ := exec_keeping hi s
    have hcmd : t.cmd = s.cmd := hregs .cmd (cmd_not_mem_writtenRegs i)
    exact ⟨t, he, hbusy, hdone, hcmd, hovr.trans (if_neg hi).symm, hport⟩

/-! ### `NOP` -/

/-- Completion raises the interrupt output exactly when `CTRL.IE` enables it (R210, R224). -/
@[simp] theorem irq_complete (s : State) (c : ResultCode) : (s.complete c).irq = s.ie := by
  rw [State.irq, State.complete_done, State.complete_ie, Bool.true_and]

/-- Settles O14: `NOP` is completion with `OK` and nothing else. -/
theorem nopCompletesOk : Obligations.NopCompletesOk :=
  ⟨by decide, fun s => ⟨_, exec_nop s, completesKeeping_self .ok [] [] s, irq_complete s .ok⟩⟩

/-! ### `CLR` -/

/-- The reset values of R40: 0 everywhere but in `GOLD_SEED`. -/
theorem reg_reset (r : Reg) : State.reset.reg r = if r = .goldSeed then goldSeedReset else 0#32 := by
  have hall : ∀ r ∈ allRegs, State.reset.reg r = if r = .goldSeed then goldSeedReset else 0#32 := by decide
  exact hall r (mem_allRegs r)

/-- After `CLR` every register but `CMD` and `STATUS` reads as it does after reset (R211). -/
theorem keepsRegs_reset_clr (s : State) : KeepsRegs [.cmd, .status] State.reset (clr s) := fun r hr => by
  cases r <;> first | rfl | exact absurd (by decide) hr

theorem reg_clr (s : State) {r : Reg} (hcmd : r ≠ .cmd) (hstatus : r ≠ .status) :
    (clr s).reg r = if r = .goldSeed then goldSeedReset else 0#32 :=
  (keepsRegs_reset_clr s r (by simp [hcmd, hstatus])).trans (reg_reset r)

/-- The four fields of `STATUS` are those of a reset block that has completed with `OK` (R211). -/
theorem reg_clr_status (s : State) : (clr s).reg .status = 0x00000002#32 := by
  have hfields : (clr s).reg .status = (State.reset.complete .ok).reg .status := rfl
  rw [hfields]
  decide

/-- `CLR` clears `CTRL.IE`, so its own completion raises no interrupt (R211). -/
theorem irq_clr (s : State) : (clr s).irq = false := irq_complete _ .ok

/-- Settles O15: the registers are those of reset, and `CMD`, the buffers and the port are not touched. -/
theorem clrRestoresResetValues : Obligations.ClrRestoresResetValues :=
  ⟨by decide, fun s => ⟨clr s, exec_clr s, rfl, reg_clr_status s, reg_clr s (by decide) (by decide),
    fun _ hcmd hstatus hseed => (reg_clr s hcmd hstatus).trans (if_neg hseed), keepsBytes_clr s, keepsPort_clr s,
    irq_clr s⟩⟩

end Sys2Proof.Proofs.Control
end

section
/-! PROOFS. The interrupt output (60_exceptions.md R224), the idle block (R230) and reset (70_reset_and_hazards.md R250,
R251). -/

namespace Sys2Proof.Proofs.InterruptAndReset

open Sys2Proof Sys2Proof.Machine Sys2Proof.Proofs.Registers Sys2Proof.Proofs.Control

/-! ### The interrupt output -/

/-- `irq` read off the two registers that hold its factors (R24, R25). -/
theorem irq_eq_reg_bits (s : State) : s.irq = ((s.reg .status).getLsbD 1 && (s.reg .ctrl).getLsbD 0) := by
  obtain ⟨-, hdone, -⟩ := statusWord_bits s
  rw [State.reg, State.reg, hdone, ctrlWord_bit, State.irq]

theorem irq_of_not_done {s : State} (h : s.done = false) : s.irq = false := by rw [State.irq, h, Bool.false_and]

theorem irq_of_not_enabled {s : State} (h : s.ie = false) : s.irq = false := by rw [State.irq, h, Bool.and_false]

/-- The acknowledgement (R226). -/
theorem writeStatus_done_of_ack (s : State) {v : Word} (h : v.getLsbD 1 = true) : (s.writeStatus v).done = false := by
  rw [State.writeStatus_done, h, Bool.not_true, Bool.and_false]

/-- Settles O54: the first two ways of clearing clear `DONE`, the third clears `IE`. -/
theorem irqFollowsDoneAndEnable : Obligations.IrqFollowsDoneAndEnable := by
  refine ⟨irq_eq_reg_bits, fun s v hack => ?_, fun s w hidle => ?_, fun s v hidle hbit => ?_⟩
  · exact ⟨s.writeStatus v, hostAct_regWrite (by decide) v s, irq_of_not_done (writeStatus_done_of_ack s hack)⟩
  · exact ⟨s.accept w, hostAct_regWrite_idle (by decide) (by decide) hidle w, irq_of_not_done (State.accept_done s w)⟩
  · have hact := hostAct_regWrite_idle (off := Reg.ctrl.offset) (by decide) (by decide) hidle v
    rw [regWrite_offset s (by decide) (by decide)] at hact
    exact ⟨s.storeReg .ctrl v, hact, irq_of_not_enabled hbit⟩

/-! ### The idle block -/

theorem hostStep_nil {s : State} (h : s.host = []) : hostStep s = .next s := by simp only [hostStep, h]

/-- Settles O57: it is not the block's turn, and the host has nothing to do. -/
theorem idleBlockHoldsState : Obligations.IdleBlockHoldsState := by
  intro s hidle hhost
  have hturn : ¬ s.blockTurn = true := Bool.eq_false_iff.1 (blockTurn_idle hidle)
  rw [step, if_neg hturn, hostStep_nil hhost]

/-! ### Reset -/

/-- The fields reset leaves alone are not the block's, and no register shows them. -/
theorem reg_assertReset (s : State) (r : Reg) :
    s.assertReset.reg r = if r = .goldSeed then goldSeedReset else 0#32 := by
  have hreset : s.assertReset.reg r = State.reset.reg r := by cases r <;> rfl
  rw [hreset, reg_reset]

/-- After a reset no byte has been written, so each is the free byte of the new count (R49; log 3). -/
theorem byte_assertReset (s : State) (sp : Space) (a : Nat) :
    s.assertReset.byte sp a = Config.resetByte (s.resets + 1) sp a &&& byteMask sp a := by
  have hmem : s.assertReset.mem sp = [] := by cases sp <;> rfl
  have hresets : s.assertReset.resets = s.resets + 1 := rfl
  rw [State.byte, hmem, hresets, Memory.byte, Memory.get?_nil, Option.getD_none]

/-- Settles O53: reset gives every register its reset value, and with them no command in flight and no interrupt. -/
theorem resetFromAnyState : Obligations.ResetFromAnyState := fun s =>
  ⟨s.assertReset, hostAct_reset s, fun r hseed => (reg_assertReset s r).trans (if_neg hseed),
    reg_assertReset s .goldSeed, rfl, rfl, irq_of_not_done rfl, byte_assertReset s⟩

end Sys2Proof.Proofs.InterruptAndReset
end
